-- ==== Sys2Proof/Word.lean ====
section
/-! DEFINITION. The block's data: bytes, 24-bit RGB pixels as three 8-bit lanes, and channel differences as exact
integers (00_scope.md rules R9, R10, R11; 40_pixel_model.md rules R102, R107). -/

namespace Sys2Proof

/-- A byte is 8 bits (R9). -/
abbrev Byte := BitVec 8

/-- A pixel: three independent unsigned 8-bit lanes r, g, b (R11, R107). -/
@[ext] structure Pixel where
  r : Byte
  g : Byte
  b : Byte
deriving DecidableEq, Repr, Inhabited

/-- `ZERO = (0, 0, 0)` (R11). -/
def Pixel.zero : Pixel := ⟨0, 0, 0⟩

/-- A channel-wise difference: three mathematical integers (R10, R102). -/
@[ext] structure Diff where
  r : Int
  g : Int
  b : Int
deriving DecidableEq, Repr, Inhabited

end Sys2Proof
end

