-- ==== Sys2Proof/Config.lean ====
section
/-! DEFINITION. What a build of the block fixes (00_scope.md rule R8, 10_state.md rule R39) and the values the spec
leaves free. `DIM_IN_WIDTH` = 32 and `CURSOR_WIDTH` = 32 are decided by the spec (R8) and are widths of types or bounds of
the invariant; `STRICT_TRAILING` and `ADDR_WIDTH` stay named parameters. -/

namespace Sys2Proof

/-- The named parameters of a build that the spec leaves OPEN (R8, R39). State carries one as plain data that no step
writes (log 3), so a statement about every state is a statement about every build. -/
structure Config where
  /-- `STRICT_TRAILING`: bytes left after the grid is full are an error (R8, R163). -/
  strictTrailing : Bool
  /-- `ADDR_WIDTH`: the width of stream offsets and lengths; `L < 2^ADDR_WIDTH` is required (R8). -/
  addrWidth : Nat
deriving DecidableEq, Repr

/-- The build that `State.reset` has: `STRICT_TRAILING = true`, the spec's default (R8), and `ADDR_WIDTH = 35`, the least
width that holds a full-size worst-case stream (R8). DESIGN CHOICE for the 35 (log 3). -/
def Config.standard : Config := ⟨true, 35⟩

/-- `CURSOR_WIDTH` (R8): the width of `enc.i`, `enc.N`, `dec.cur`, `dec.N`. -/
def Config.cursorWidth : Nat := 32

/-! Free values. The argument is the counter `fresh` of State; nothing can be proved of the values (log 6, log 7). -/

/-- A byte a host read of `BYTES_OUT` delivers when there is no result (20_memory.md rule R63 (c)). -/
opaque Config.anyByte : Nat → Byte

/-- A pixel a host read of `GRID_OUT` delivers when there is no result (R63 (c)). -/
opaque Config.anyPixel : Nat → Pixel

/-- A value a host read of `DEC_H` or `DEC_W` delivers when there is no result (10_state.md rule R36). -/
opaque Config.anyDim : Nat → BitVec 16

/-- A value a host read of `ENC_OUTLEN` delivers when there is no result (R36), before it is cut to `ADDR_WIDTH` bits. -/
opaque Config.anyLength : Nat → Nat

/-- Which engine steps when both are BUSY and no move is scheduled: the encoder when true (60_exceptions.md rule R213). -/
opaque Config.encoderFirst : Nat → Bool

end Sys2Proof
end

