-- ==== Sys2Proof/Syntax.lean ====
section
/-! DEFINITION. The units of the byte stream, one constructor per row of spec/opcode_table.json, with the operands of the
notation of 30_encoding.md rule R85: differences and run lengths are the numbers themselves, without their bias. -/

namespace Sys2Proof

/-- The header and the five ops (30_encoding.md rules R70 to R77). -/
inductive Instr where
  /-- `HDR H, W`: the 4-byte header (R70). -/
  | hdr (h w : BitVec 16)
  /-- `CACHE k`: the pixel of cache slot k (R73). -/
  | cache (idx : BitVec 6)
  /-- `SMALL dr, dg, db`, each in [-2, 1] (R74). -/
  | small (dr dg db : Int)
  /-- `MED dr, dg, db`, dr in [-32, 31], dg and db in [-8, 7] (R75). -/
  | med (dr dg db : Int)
  /-- `RUN n`: run length n, 1 to 63 (R76, R85). -/
  | run (n : Nat)
  /-- `RAW r, g, b` (R77). -/
  | raw (r g b : Byte)
deriving DecidableEq, Repr

/-- Where in the stream a unit stands: the header is the first 4 bytes and never an op (R70, R71). -/
inductive Place where
  | start
  | opStream
deriving DecidableEq, Repr

/-- The place at which an instruction is read. -/
def Instr.place : Instr → Place
  | .hdr _ _ => .start
  | .cache _ => .opStream
  | .small _ _ _ => .opStream
  | .med _ _ _ => .opStream
  | .run _ => .opStream
  | .raw _ _ _ => .opStream

/-- The length in bytes (30_encoding.md rules R70, R81). -/
def Instr.length : Instr → Nat
  | .hdr _ _ => 4
  | .cache _ => 1
  | .small _ _ _ => 1
  | .med _ _ _ => 2
  | .run _ => 1
  | .raw _ _ _ => 4

end Sys2Proof
end

