-- ==== Sys2Proof/WellFormed.lean ====
section
/-! DEFINITION. Which instructions the notation of 30_encoding.md rule R85 admits: the operand ranges of rules R73 to R77.
Operands whose type is already their range (a slot index, a channel, a dimension) need no check. -/

namespace Sys2Proof

/-- `d` lies in the closed range [lo, hi]. -/
def inRange (lo hi d : Int) : Bool := decide (lo ≤ d) && decide (d ≤ hi)

/-- The operand ranges of R85. -/
def Instr.wf : Instr → Bool
  | .hdr _ _ => true
  | .cache _ => true
  | .small dr dg db => inRange (-2) 1 dr && inRange (-2) 1 dg && inRange (-2) 1 db
  | .med dr dg db => inRange (-32) 31 dr && inRange (-8) 7 dg && inRange (-8) 7 db
  | .run n => decide (1 ≤ n) && decide (n ≤ 63)
  | .raw _ _ _ => true

end Sys2Proof
end

