-- ==== Sys2Proof/Decode.lean ====
section
/-! DEFINITION. Bytes to instructions and back (30_encoding.md). Decoding is total on any bytes and rejects by name; the
only thing to reject is a unit whose bytes are not all there, since every first byte is some op (R81, R83). -/

namespace Sys2Proof

/-- Why bytes do not decode. -/
inductive DecodeError where
  /-- No byte at all: the op stream is exhausted. -/
  | empty
  /-- Fewer than 4 bytes where the header is read (R161). -/
  | truncatedHeader
  /-- An op's continuation bytes are missing (R165, R168). -/
  | truncatedOp
deriving DecidableEq, Repr

/-- The kinds of op a first byte can announce (R80). -/
inductive OpKind where
  | raw
  | run
  | small
  | med
  | cache
deriving DecidableEq, Repr

/-- Classification of a first byte, in the order of R80: the escape before the RUN tag. -/
def opKind (b : Byte) : OpKind :=
  if b = 0xFF#8 then .raw
  else if b.extractLsb' 6 2 = 0b11#2 then .run
  else if b.extractLsb' 6 2 = 0b01#2 then .small
  else if b.extractLsb' 6 2 = 0b10#2 then .med
  else .cache

/-- The length of an op, known from its first byte alone (R81). -/
def opLength (b : Byte) : Nat :=
  match opKind b with
  | .raw => 4
  | .run => 1
  | .small => 1
  | .med => 2
  | .cache => 1

/-! Field to operand (R79): a field is read zero-extended and its bias is subtracted as an integer. -/

/-- A 2-bit SMALL field at bit `lo` (R74, R79). -/
def smallField (b : Byte) (lo : Nat) : Int := ((b.extractLsb' lo 2).toNat : Int) - 2

/-- The 6-bit red field of MED's first byte (R75, R79). -/
def medRed (b : Byte) : Int := ((b.extractLsb' 0 6).toNat : Int) - 32

/-- A 4-bit field of MED's second byte at bit `lo` (R75, R79). -/
def medNibble (b : Byte) (lo : Nat) : Int := ((b.extractLsb' lo 4).toNat : Int) - 8

/-- The run length of a RUN byte (R76, R79). -/
def runLength (b : Byte) : Nat := (b.extractLsb' 0 6).toNat + 1

/-- The slot of a CACHE byte (R73, R79). -/
def slotIndex (b : Byte) : BitVec 6 := b.extractLsb' 0 6

/-- A 16-bit value from two bytes, the byte at the lower offset more significant (20_memory.md rule R55). -/
def bigEndian (hi lo : Byte) : BitVec 16 := hi ++ lo

/-- One op from the front of the bytes, with the bytes after it (R71, R80, R82). -/
def decodeOp : List Byte → Except DecodeError (Instr × List Byte)
  | [] => .error .empty
  | b :: rest =>
    match opKind b with
    | .raw =>
      match rest with
      | r :: g :: bl :: rest' => .ok (.raw r g bl, rest')
      | _ => .error .truncatedOp
    | .run => .ok (.run (runLength b), rest)
    | .small => .ok (.small (smallField b 4) (smallField b 2) (smallField b 0), rest)
    | .med =>
      match rest with
      | b1 :: rest' => .ok (.med (medRed b) (medNibble b1 4) (medNibble b1 0), rest')
      | [] => .error .truncatedOp
    | .cache => .ok (.cache (slotIndex b), rest)

/-- The header from the front of the bytes, with the bytes after it (R70, R161). -/
def decodeHeader : List Byte → Except DecodeError (Instr × List Byte)
  | h1 :: h0 :: w1 :: w0 :: rest => .ok (.hdr (bigEndian h1 h0) (bigEndian w1 w0), rest)
  | _ => .error .truncatedHeader

/-- The decoder: what a unit's bytes mean depends on whether the stream begins there (R70, R71). -/
def decode : Place → List Byte → Except DecodeError (Instr × List Byte)
  | .start => decodeHeader
  | .opStream => decodeOp

/-! Operand to field (R78). -/

/-- `fSmall(d) = zext_2(d + 2)` (R78). -/
def fSmall (d : Int) : BitVec 2 := BitVec.ofInt 2 (d + 2)

/-- `fMedR(d) = zext_6(d + 32)` (R78). -/
def fMedR (d : Int) : BitVec 6 := BitVec.ofInt 6 (d + 32)

/-- `fMedGB(d) = zext_4(d + 8)` (R78). -/
def fMedGB (d : Int) : BitVec 4 := BitVec.ofInt 4 (d + 8)

/-- `fRun(len) = zext_6(len - 1)` (R78). -/
def fRun (len : Nat) : BitVec 6 := BitVec.ofNat 6 (len - 1)

/-- The bytes of an instruction (R70, R73 to R77; fields MSB-first, 20_memory.md rule R56). -/
def encode : Instr → List Byte
  | .hdr h w => [h.extractLsb' 8 8, h.extractLsb' 0 8, w.extractLsb' 8 8, w.extractLsb' 0 8]
  | .cache idx => [0b00#2 ++ idx]
  | .small dr dg db => [0b01#2 ++ fSmall dr ++ fSmall dg ++ fSmall db]
  | .med dr dg db => [0b10#2 ++ fMedR dr, fMedGB dg ++ fMedGB db]
  | .run n => [0b11#2 ++ fRun n]
  | .raw r g b => [0xFF#8, r, g, b]

/-! The opcode table's numbering: bit 0 of a row is the least significant bit of its first byte, and later bytes count
on from it. -/

/-- Byte `k` of a table word, 0 above its `nbits` bits. -/
def tableByte (nbits w k : Nat) : Byte := BitVec.ofNat 8 (w % 2 ^ nbits / 2 ^ (8 * k))

/-- The four bytes of a table word, zeros above its bits, lowest offset first. -/
def tableBytes (nbits w : Nat) : List Byte :=
  [tableByte nbits w 0, tableByte nbits w 1, tableByte nbits w 2, tableByte nbits w 3]

/-- Where a table word is read. Of the two 32-bit rows, RAW is the one whose first byte is 0xFF; every other 32-bit word
is the header, the row that stands at the start of the stream only (log 10). -/
def tablePlace (nbits w : Nat) : Place :=
  if nbits = 32 ∧ tableByte nbits w 0 ≠ 0xFF#8 then .start else .opStream

/-- The instruction the decoder reads from a table word (log 10). -/
def decodeTableWord (nbits w : Nat) : Option Instr :=
  match decode (tablePlace nbits w) (tableBytes nbits w) with
  | .ok (i, _) => some i
  | .error _ => none

end Sys2Proof
end

