-- ==== Sys2Proof/Machine/State.lean ====
section
/-! DEFINITION. The block's whole state as plain data (10_state.md rule R40; 20_memory.md rule R50), the reasons a step
can stop, and the state after hardware reset. -/

namespace Sys2Proof.Machine

/-- An engine's phase (10_state.md rule R32). -/
inductive Phase where
  | idle
  | busy
  | done
  | error
deriving DecidableEq, Repr

/-- A status code (60_exceptions.md rule R200). Value 7 is never written and has no constructor. -/
inductive Code where
  | ok
  | dimensionOverflow
  | truncatedHeader
  | truncatedOp
  | corruptStream
  | gridOverrun
  | truncatedStream
deriving DecidableEq, Repr

/-- The hidden sub-state of a busy encoder (10_state.md rule R33). -/
inductive EncStage where
  | hdr
  | pix
deriving DecidableEq, Repr

/-- The hidden sub-state of a busy decoder (10_state.md rule R33). -/
inductive DecStage where
  | hdr
  | ops
deriving DecidableEq, Repr

/-- The two engines (10_state.md rule R20). -/
inductive Engine where
  | enc
  | dec
deriving DecidableEq, Repr

/-- 64 slots of 24-bit pixels, one file per engine (10_state.md rule R23). -/
abbrev Cache := Vector Pixel 64

/-- An address space: (index, unit) pairs, indices strictly rising. An unlisted index has NO VALUE (log 4). A byte space
is a list of `Host.Cell`. -/
abbrev Memory (α : Type) := List (Nat × α)

/-- The encoder engine (10_state.md sections 2 to 6). Counters and lengths are naturals; their widths are kept by the
invariant of Safety.lean (log 9). -/
structure Enc where
  phase  : Phase
  code   : Code
  stage  : EncStage
  /-- `enc.prev` (R21). -/
  prev   : Pixel
  /-- `enc.cache[0..63]` (R23). -/
  cache  : Cache
  /-- `enc.run`, 6 bits (R28). -/
  run    : Nat
  /-- `enc.i`, 32 bits (R25). -/
  i      : Nat
  /-- `enc.outlen`, ADDR_WIDTH bits (R29). -/
  outlen : Nat
  /-- `enc.Hin` (R30). -/
  hin    : BitVec 32
  /-- `enc.Win` (R30). -/
  win    : BitVec 32
  /-- `enc.H` (R30). -/
  h      : BitVec 16
  /-- `enc.W` (R30). -/
  w      : BitVec 16
  /-- `enc.N`, 32 bits (R30). -/
  n      : Nat
deriving DecidableEq, Repr

/-- The decoder engine (10_state.md sections 2 to 6). -/
structure Dec where
  phase : Phase
  code  : Code
  stage : DecStage
  /-- `dec.prev` (R21). -/
  prev  : Pixel
  /-- `dec.cache[0..63]` (R23). -/
  cache : Cache
  /-- `dec.L`, ADDR_WIDTH bits (R31). -/
  l     : Nat
  /-- `dec.rp`, ADDR_WIDTH bits (R26). -/
  rp    : Nat
  /-- `dec.cur`, 32 bits (R27). -/
  cur   : Nat
  /-- `dec.H` (R31). -/
  h     : BitVec 16
  /-- `dec.W` (R31). -/
  w     : BitVec 16
  /-- `dec.N`, 32 bits (R31). -/
  n     : Nat
deriving DecidableEq, Repr

/-- The host-visible registers (10_state.md rules R35, R36). -/
inductive HostReg where
  | encStatus
  | decStatus
  | encOutlen
  | decH
  | decW
deriving DecidableEq, Repr

/-- The moves of the host (60_exceptions.md rule R213; 70_reset_and_hazards.md rules R230, R236). -/
inductive HostCmd where
  /-- `ENC_START(Hin, Win)` (R37, R130). -/
  | encStart (hin win : BitVec 32)
  /-- `DEC_START(L)` (R37, R160). -/
  | decStart (l : Nat)
  /-- The host places a pixel of the input grid (R235). -/
  | writeGridIn (row col : BitVec 32) (p : Pixel)
  /-- The host places a byte of the input buffer (R235). -/
  | writeBytesIn (a : Nat) (b : Byte)
  /-- A register read (R35, R36). -/
  | readReg (r : HostReg)
  /-- A write to a read-only register (R35). -/
  | writeReg (r : HostReg) (v : Nat)
  /-- A read of one byte of the encoded stream (R63). -/
  | readBytesOut (a : Nat)
  /-- A read of one cell of the decoded grid (R63). -/
  | readGridOut (i : Nat)
  /-- The hardware reset input (R230, R232). -/
  | reset
deriving DecidableEq, Repr

/-- One move of one agent: a turn of an engine, or a host command (R14, R213). -/
inductive Move where
  | enc
  | dec
  | host (c : HostCmd)
deriving DecidableEq, Repr

/-- What a host read delivers (R35, R36, R63). -/
inductive HostData where
  | nothing
  | status (v : BitVec 8)
  | length (v : Nat)
  | dim (v : BitVec 16)
  | byte (v : Byte)
  | pixel (v : Pixel)
deriving DecidableEq, Repr

/-- Why the model stops with a fault. The spec says no step of an engine reaches one while the host keeps its duties. -/
inductive Fault where
  /-- The decoder would read `BYTES_IN` at or beyond L (R53: no such offset is ever read). Raised by the fetch. Safe. -/
  | bytesInOutOfRange
  /-- The decoder reads an offset of `BYTES_IN` below L at which the host placed no byte (R235). Raised by the fetch. Safe. -/
  | bytesInAbsent
  /-- The encoder would read a position outside the grid (R51: no such position is ever read). Raised by the pixel fetch. Safe. -/
  | gridInOutOfRange
  /-- The encoder reads a position of the grid at which the host placed no pixel (R235). Raised by the pixel fetch. Safe. -/
  | gridInAbsent
  /-- An op would write a cell at or beyond `dec.N` (R50, R54). Raised by the ops' pixel writes. Safe. -/
  | gridOutOutOfRange
  /-- The host reads `BYTES_OUT` at or beyond `enc.outlen` (R50) after the encoder finished. Raised by the host read. Safe. -/
  | bytesOutReadOutOfRange
  /-- The host reads `GRID_OUT` at or beyond `dec.N` (R50) after the decoder finished. Raised by the host read. Safe. -/
  | gridOutReadOutOfRange
deriving DecidableEq, Repr

/-- Why the model refuses a move. -/
inductive Refusal where
  /-- An instruction without a meaning yet: raised by no arm of this model. Safe. -/
  | notModelled (mnemonic : String)
  /-- `ENC_START` while the encoder is BUSY: no move exists for it (60_exceptions.md rule R210). Unsafe as the spec says:
  errs toward proving if real hardware accepts it. -/
  | encStartWhileBusy
  /-- `DEC_START` while the decoder is BUSY (R210). Unsafe as the spec says. -/
  | decStartWhileBusy
  /-- A host write of `GRID_IN` while the encoder is BUSY (R240 (b)). Unsafe as the spec says. -/
  | gridInWriteWhileBusy
  /-- A host write of `BYTES_IN` while the decoder is BUSY (R240 (b)). Unsafe as the spec says. -/
  | bytesInWriteWhileBusy
  /-- `DEC_START(L)` with an L that ADDR_WIDTH bits do not hold (R8, R160). Safe. -/
  | lengthTooWide
deriving DecidableEq, Repr

end Sys2Proof.Machine

namespace Sys2Proof.Machine

/-- The block, its four address spaces, and the model's own fields `cfg`, `agenda`, `hostData`, `fresh`. -/
structure State where
  /-- The build's parameters; no step writes them (10_state.md rule R39, log 3). -/
  cfg      : Config
  enc      : Enc
  dec      : Dec
  /-- `GRID_IN`, keyed by (row, col) as Operands.lean's `gridKey` says (R50, R51, log 5). -/
  gridIn   : Memory Pixel
  /-- `BYTES_IN` (R50, R53). -/
  bytesIn  : Memory Byte
  /-- `BYTES_OUT` (R50, R52). -/
  bytesOut : Memory Byte
  /-- `GRID_OUT`, keyed by linear index (R50, R54). -/
  gridOut  : Memory Pixel
  /-- The moves still to come, the next one first (log 6). -/
  agenda   : List Move
  /-- What the last host read delivered (log 7). -/
  hostData : HostData
  /-- How many free values have been used (log 7). -/
  fresh    : Nat
deriving DecidableEq, Repr

/-- The encoder after hardware reset: phase IDLE, code OK (R230); every other register holds the value log 1 names. -/
def Enc.reset : Enc :=
  { phase := .idle, code := .ok, stage := .hdr, prev := Pixel.zero, cache := Vector.replicate 64 Pixel.zero,
    run := 0, i := 0, outlen := 0, hin := 0, win := 0, h := 0, w := 0, n := 0 }

/-- The decoder after hardware reset: phase IDLE, code OK (R230); every other register holds the value log 1 names. -/
def Dec.reset : Dec :=
  { phase := .idle, code := .ok, stage := .hdr, prev := Pixel.zero, cache := Vector.replicate 64 Pixel.zero,
    l := 0, rp := 0, cur := 0, h := 0, w := 0, n := 0 }

/-- The machine right after hardware reset (70_reset_and_hazards.md rule R230): no memory is listed, nothing is scheduled. -/
def State.reset : State :=
  { cfg := Config.standard, enc := Enc.reset, dec := Dec.reset, gridIn := [], bytesIn := [], bytesOut := [], gridOut := [],
    agenda := [], hostData := .nothing, fresh := 0 }

end Sys2Proof.Machine
end

