-- ==== Sys2Proof/Machine/Operands.lean ====
section
/-! DEFINITION. The combinational functions that make operands: packing, hash, difference, reconstruction
(00_scope.md rule R11; 40_pixel_model.md rules R101, R102, R106, R107), and the grid positions (20_memory.md rules R51,
R61). Pure and total. -/

namespace Sys2Proof.Machine

/-- A pixel as one 24-bit value `{r, g, b}` (R11). -/
def pixelPack (p : Pixel) : BitVec 24 := p.r ++ p.g ++ p.b

/-- The pixel of a 24-bit value: r in bits 23:16, g in 15:8, b in 7:0 (R11). -/
def pixelUnpack (v : BitVec 24) : Pixel := ⟨v.extractLsb' 16 8, v.extractLsb' 8 8, v.extractLsb' 0 8⟩

/-- `hash(p) = (3r + 5g + 7b) mod 64` (R101). -/
def hashPixel (p : Pixel) : BitVec 6 := BitVec.ofNat 6 ((3 * p.r.toNat + 5 * p.g.toNat + 7 * p.b.toNat) % 64)

/-- `diff(p, q)`: channel-wise subtraction of the reference q from the target p, exact (R102). -/
def diff (p q : Pixel) : Diff :=
  ⟨(p.r.toNat : Int) - q.r.toNat, (p.g.toNat : Int) - q.g.toNat, (p.b.toNat : Int) - q.b.toNat⟩

/-- One lane of `recon`: the exact sum, or nothing when it leaves [0, 255] (R106, R107). -/
def reconLane (q : Byte) (d : Int) : Option Byte :=
  if 0 ≤ (q.toNat : Int) + d ∧ (q.toNat : Int) + d ≤ 255 then some (BitVec.ofInt 8 ((q.toNat : Int) + d)) else none

/-- `recon(q, d)`: the pixel q + d, or FAIL (`none`) when a lane leaves [0, 255] (R106). -/
def recon (q : Pixel) (d : Diff) : Option Pixel :=
  match reconLane q.r d.r, reconLane q.g d.g, reconLane q.b d.b with
  | some r, some g, some b => some ⟨r, g, b⟩
  | _, _, _ => none

/-- The key under which `GRID_IN` holds position (row, col). Columns are 32-bit, so distinct positions have distinct
keys (R50, log 5). -/
def gridKey (row col : Nat) : Nat := row * 2 ^ 32 + col

/-- The linear index of (row, col) in a grid of width w (00_scope.md rule R17, R61). -/
def linearIndex (w row col : Nat) : Nat := row * w + col

/-- A dimension's low 16 bits, `v[15:0]` (42_encoder.md rule R132). -/
def dimLow (v : BitVec 32) : BitVec 16 := v.extractLsb' 0 16

/-- The pixel count `H * W`, exact (40_pixel_model.md rule R108). -/
def pixelCount (h w : BitVec 16) : Nat := h.toNat * w.toNat

end Sys2Proof.Machine
end

