-- ==== Sys2Proof/Machine/Ops.lean ====
section
/-! DEFINITION. The named operations over memories and registers that the meanings share: the address spaces, the pixel
cache, the output stream, the pixel-producing end of an op, the error entry and the start commands that leave it, the
host's reads and writes, hardware reset. -/

namespace Sys2Proof.Machine

/-- How a step or a move ends. -/
abbrev Result := Host.Outcome State Fault Refusal

/-! ## Address spaces (20_memory.md) -/

/-- What an unlisted index reads as: nothing. The spec gives no contents to what neither the host nor an engine has
written (70_reset_and_hazards.md rules R230, R235; log 4). -/
def Memory.unlisted {α : Type} : Option α := none

/-- The unit at an index. -/
def Memory.read {α : Type} : Memory α → Nat → Option α
  | [], _ => Memory.unlisted
  | (k, v) :: m, a => if k = a then some v else Memory.read m a

/-- Write one unit, in the canonical form. -/
def Memory.write {α : Type} : Memory α → Nat → α → Memory α
  | [], a, v => [(a, v)]
  | (k, w) :: m, a, v =>
    if a < k then (a, v) :: (k, w) :: m
    else if a = k then (a, v) :: m
    else (k, w) :: Memory.write m a v

/-- The canonical form: indices strictly rising. An unlisted index has no value, so no entry can equal it. -/
def Memory.wf {α : Type} : Memory α → Bool
  | [] => true
  | [_] => true
  | (a, _) :: (b, v) :: m => decide (a < b) && Memory.wf ((b, v) :: m)

/-! ## The pixel cache (41_cache.md) -/

/-- `lookup(k)` (R120). -/
def cacheLookup (c : Cache) (k : BitVec 6) : Pixel := c.get ⟨k.toNat, k.isLt⟩

/-- `store(k, p)` (R121): direct overwrite of one slot. -/
def cacheStore (c : Cache) (k : BitVec 6) (p : Pixel) : Cache := c.set k.toNat p (k.isLt)

/-- The cache with every slot ZERO (R122). -/
def cacheCleared : Cache := Vector.replicate 64 Pixel.zero

/-! ## Status (10_state.md rules R32, R34, R35; 60_exceptions.md rule R200) -/

/-- The 2-bit phase number (R32). -/
def Phase.toBits : Phase → BitVec 2
  | .idle => 0
  | .busy => 1
  | .done => 2
  | .error => 3

/-- The 3-bit status code (R200). -/
def Code.toBits : Code → BitVec 3
  | .ok => 0
  | .dimensionOverflow => 1
  | .truncatedHeader => 2
  | .truncatedOp => 3
  | .corruptStream => 4
  | .gridOverrun => 5
  | .truncatedStream => 6

/-- A status register: PHASE in bits 1:0, CODE in bits 4:2, bits 7:5 read as 0 (R35). -/
def statusWord (p : Phase) (c : Code) : BitVec 8 := 0#3 ++ c.toBits ++ p.toBits

/-- `ENC_STATUS` (R35). -/
def State.encStatus (s : State) : BitVec 8 := statusWord s.enc.phase s.enc.code

/-- `DEC_STATUS` (R35). -/
def State.decStatus (s : State) : BitVec 8 := statusWord s.dec.phase s.dec.code

/-! ## The error entry and the way out of it (60_exceptions.md) -/

/-- `raise E` (R203): the code and the phase, nothing else; the step ends with it. -/
def raiseError (e : Engine) (c : Code) (s : State) : State :=
  match e with
  | .enc => { s with enc := { s.enc with code := c, phase := .error } }
  | .dec => { s with dec := { s.dec with code := c, phase := .error } }

/-- The encoder's start step (42_encoder.md rule R130), the only way out of DONE or ERROR (R208). `enc.H`, `enc.W`,
`enc.N` keep what they held: the start step does not write them. -/
def startEncoder (hin win : BitVec 32) (s : State) : State :=
  { s with enc := { s.enc with hin := hin, win := win, prev := Pixel.zero, cache := cacheCleared, run := 0, i := 0,
                               outlen := 0, code := .ok, phase := .busy, stage := .hdr } }

/-- The decoder's start step (43_decoder.md rule R160), the only way out of DONE or ERROR (R208). -/
def startDecoder (l : Nat) (s : State) : State :=
  { s with dec := { s.dec with l := l, prev := Pixel.zero, cache := cacheCleared, rp := 0, cur := 0, h := 0, w := 0,
                               n := 0, code := .ok, phase := .busy, stage := .hdr } }

/-- Hardware reset (R230, R232): phases IDLE and codes OK; every other register takes the value log 1 names; the memories,
the build and the model's own fields stay (log 2). -/
def hardwareReset (s : State) : State := { s with enc := Enc.reset, dec := Dec.reset }

/-! ## The encoder's input and output -/

/-- `PixelAt(row, col)` (R51): a pure read of the host's grid. -/
def pixelAt (row col : Nat) (s : State) : Except Fault Pixel :=
  if row < s.enc.hin.toNat ∧ col < s.enc.win.toNat then
    match Memory.read s.gridIn (gridKey row col) with
    | some p => .ok p
    | none => .error .gridInAbsent
  else .error .gridInOutOfRange

/-- `Emit(v)` (00_scope.md rule R12). -/
def emit (v : Byte) (s : State) : State :=
  { s with bytesOut := Memory.write s.bytesOut s.enc.outlen v, enc := { s.enc with outlen := s.enc.outlen + 1 } }

/-- Several bytes emitted in order. -/
def emitBytes : List Byte → State → State
  | [], s => s
  | v :: vs, s => emitBytes vs (emit v s)

/-- The bytes of one instruction, emitted (30_encoding.md rules R70, R73 to R77). -/
def emitInstr (i : Instr) (s : State) : State := emitBytes (encode i) s

/-! ## The encoder's register writes (10_state.md rules R21, R23, R25, R28, R30, R32, R33) -/

/-- `enc.run <- n`. -/
def setRun (n : Nat) (s : State) : State := { s with enc := { s.enc with run := n } }

/-- `enc.prev <- p`. -/
def setPrev (p : Pixel) (s : State) : State := { s with enc := { s.enc with prev := p } }

/-- `enc.cache[hash(p)] <- p` (R139). -/
def storePixel (p : Pixel) (s : State) : State :=
  { s with enc := { s.enc with cache := cacheStore s.enc.cache (hashPixel p) p } }

/-- `enc.i <- enc.i + 1`. -/
def nextPixel (s : State) : State := { s with enc := { s.enc with i := s.enc.i + 1 } }

/-- `enc.H <- h; enc.W <- w; enc.N <- enc.H * enc.W` (R132). -/
def setDims (h w : BitVec 16) (s : State) : State := { s with enc := { s.enc with h := h, w := w, n := pixelCount h w } }

/-- `enc.stage <- PIX` (R132). -/
def enterPixels (s : State) : State := { s with enc := { s.enc with stage := .pix } }

/-- `enc.phase <- DONE` (R145). -/
def finishEncoder (s : State) : State := { s with enc := { s.enc with phase := .done } }

/-! ## The decoder's input and output -/

/-- `MemRead(BYTES_IN:a, 1)` (R53). -/
def byteIn (a : Nat) (s : State) : Except Fault Byte :=
  if a < s.dec.l then
    match Memory.read s.bytesIn a with
    | some b => .ok b
    | none => .error .bytesInAbsent
  else .error .bytesInOutOfRange

/-- `MemRead(BYTES_IN:a, n)`: n bytes in order of increasing offset (R53). -/
def bytesInAt (a : Nat) : Nat → State → Except Fault (List Byte)
  | 0, _ => .ok []
  | n + 1, s =>
    match byteIn a s with
    | .error f => .error f
    | .ok b =>
      match bytesInAt (a + 1) n s with
      | .error f => .error f
      | .ok bs => .ok (b :: bs)

/-- `PutPixel(i, p)` (R12, R54): one cell of the declared grid. -/
def putPixel (i : Nat) (p : Pixel) (s : State) : Except Fault State :=
  if i < s.dec.n then .ok { s with gridOut := Memory.write s.gridOut i p } else .error .gridOutOutOfRange

/-- `PutPixel` at `n` consecutive cells from `i` on (R166). -/
def putPixels (i : Nat) : Nat → Pixel → State → Except Fault State
  | 0, _, s => .ok s
  | n + 1, p, s =>
    match putPixel i p s with
    | .error f => .error f
    | .ok t => putPixels (i + 1) n p t

/-- The register writes of an op that produced one pixel (R165, R167, R168, R169): `dec.prev`, the cache slot where the op
stores (R124), the cursor, the read pointer. -/
def finishPixel (p : Pixel) (len : Nat) (stores : Bool) (s : State) : State :=
  { s with dec := { s.dec with cache := if stores then cacheStore s.dec.cache (hashPixel p) p else s.dec.cache, prev := p,
                               cur := s.dec.cur + 1, rp := s.dec.rp + len } }

/-- The register writes of a RUN of n pixels (R166). -/
def finishRun (n : Nat) (s : State) : State := { s with dec := { s.dec with cur := s.dec.cur + n, rp := s.dec.rp + 1 } }

/-- The register writes of the header (R161). -/
def finishHeader (h w : BitVec 16) (s : State) : State :=
  { s with dec := { s.dec with h := h, w := w, n := pixelCount h w, rp := 4, stage := .ops } }

/-- `dec.phase <- DONE` (R163). -/
def finishDecoder (s : State) : State := { s with dec := { s.dec with phase := .done } }

/-- The end shared by the ops that produce one pixel: the cell at the cursor, then the registers. -/
def producePixel (p : Pixel) (len : Nat) (stores : Bool) (s : State) : Result :=
  match putPixel s.dec.cur p s with
  | .error f => .fault f
  | .ok t => .next (finishPixel p len stores t)

/-- The end shared by the difference ops (R167, R168): reconstruct from `dec.prev`, CorruptStream when a channel leaves
[0, 255] (R170). -/
def produceFromDiff (d : Diff) (len : Nat) (s : State) : Result :=
  match recon s.dec.prev d with
  | none => .next (raiseError .dec .corruptStream s)
  | some p => producePixel p len true s

/-! ## The host (60_exceptions.md rule R213) -/

/-- Deliver a value to the host. -/
def deliver (v : HostData) (s : State) : State := { s with hostData := v }

/-- Deliver a free value to the host: the counter moves on, so that the next free value is another one. -/
def deliverFree (v : Nat → HostData) (s : State) : State := { s with hostData := v s.fresh, fresh := s.fresh + 1 }

/-- Whether a phase leaves an engine's outputs as the rules wrote them for the host to read: DONE, where they are a result
(R36, R54), and ERROR, where the model holds what the rules wrote and no claim reads them (R204). While BUSY (R63 (c)) and
after a reset (R232) a read delivers any value. -/
def Phase.settled : Phase → Bool
  | .idle => false
  | .busy => false
  | .done => true
  | .error => true

/-- A register read (R35, R36); no side effect on the engines. -/
def readReg (r : HostReg) (s : State) : State :=
  match r with
  | .encStatus => deliver (.status s.encStatus) s
  | .decStatus => deliver (.status s.decStatus) s
  | .encOutlen =>
    if s.enc.phase.settled then deliver (.length s.enc.outlen) s
    else deliverFree (fun k => .length (Config.anyLength k % 2 ^ s.cfg.addrWidth)) s
  | .decH => if s.dec.phase.settled then deliver (.dim s.dec.h) s else deliverFree (fun k => .dim (Config.anyDim k)) s
  | .decW => if s.dec.phase.settled then deliver (.dim s.dec.w) s else deliverFree (fun k => .dim (Config.anyDim k)) s

/-- A host read of one byte of `BYTES_OUT` (R63). -/
def readBytesOut (a : Nat) (s : State) : Result :=
  if s.enc.phase.settled then
    if a < s.enc.outlen then
      match Memory.read s.bytesOut a with
      | some b => .next (deliver (.byte b) s)
      | none => .next (deliverFree (fun k => .byte (Config.anyByte k)) s)
    else .fault .bytesOutReadOutOfRange
  else .next (deliverFree (fun k => .byte (Config.anyByte k)) s)

/-- A host read of one cell of `GRID_OUT` (R63). -/
def readGridOut (i : Nat) (s : State) : Result :=
  if s.dec.phase.settled then
    if i < s.dec.n then
      match Memory.read s.gridOut i with
      | some p => .next (deliver (.pixel p) s)
      | none => .next (deliverFree (fun k => .pixel (Config.anyPixel k)) s)
    else .fault .gridOutReadOutOfRange
  else .next (deliverFree (fun k => .pixel (Config.anyPixel k)) s)

end Sys2Proof.Machine
end

