-- ==== Sys2Proof/Machine/Flags.lean ====
section
/-! DEFINITION. The classifier's predicates. The block stores no flags; these are combinational values inside one encoder
step (10_state.md rule R38; 40_pixel_model.md rules R100, R103 to R105; 41_cache.md rule R123). -/

namespace Sys2Proof.Machine

/-- `eq(p, q)`: equality over all 24 bits (R100). -/
def pixelEq (p q : Pixel) : Bool := p.r == q.r && p.g == q.g && p.b == q.b

/-- `hit(p) = eq(lookup(hash(p)), p)` (R123): by value, not by hash alone. -/
def cacheHit (c : Cache) (p : Pixel) : Bool := pixelEq (cacheLookup c (hashPixel p)) p

/-- `fitsSmall(d)`: every lane in [-2, 1] (R103). -/
def fitsSmall (d : Diff) : Bool := inRange (-2) 1 d.r && inRange (-2) 1 d.g && inRange (-2) 1 d.b

/-- `fitsMed(d)`: red in [-32, 31], green and blue in [-8, 7] (R104). -/
def fitsMed (d : Diff) : Bool := inRange (-32) 31 d.r && inRange (-8) 7 d.g && inRange (-8) 7 d.b

/-- The op of a missed pixel p of difference d (R105): SMALL before MED, RAW when neither band holds (R140, R141, R142). -/
def missInstr (p : Pixel) (d : Diff) : Instr :=
  if fitsSmall d then .small d.r d.g d.b
  else if fitsMed d then .med d.r d.g d.b
  else .raw p.r p.g p.b

end Sys2Proof.Machine
end

