-- ==== Sys2Proof/Machine/Difference.lean ====
section
/-! DEFINITION. The meanings of the difference ops (formats F1D and F2): SMALL and MED. -/

namespace Sys2Proof.Machine

/-- SMALL (43_decoder.md rule R167). -/
def execSmall (dr dg db : Int) (s : State) : Result := produceFromDiff ⟨dr, dg, db⟩ 1 s

/-- MED (43_decoder.md rule R168): its second byte must be there. -/
def execMed (dr dg db : Int) (s : State) : Result :=
  if s.dec.rp + 2 > s.dec.l then .next (raiseError .dec .truncatedOp s) else produceFromDiff ⟨dr, dg, db⟩ 2 s

end Sys2Proof.Machine
end

