-- ==== Sys2Proof/Machine/Header.lean ====
section
/-! DEFINITION. The meaning of the stream's header (format HEADER of the opcode table). -/

namespace Sys2Proof.Machine

/-- HDR (43_decoder.md rule R161): the declared dimensions, the pixel count, and the read pointer at the first op. -/
def execHdr (h w : BitVec 16) (s : State) : Result :=
  if s.dec.l < 4 then .next (raiseError .dec .truncatedHeader s)
  else .next (finishHeader h w s)

end Sys2Proof.Machine
end

