-- ==== Sys2Proof/Machine/Indexed.lean ====
section
/-! DEFINITION. The meanings of the ops with one 6-bit field (format F1I): CACHE and RUN. -/

namespace Sys2Proof.Machine

/-- CACHE (43_decoder.md rule R169): the pixel of the named slot, with no hash check; the cache is not written. -/
def execCache (idx : BitVec 6) (s : State) : Result := producePixel (cacheLookup s.dec.cache idx) 1 false s

/-- RUN (43_decoder.md rule R166): n copies of `dec.prev`; GridOverrun, nothing written, when they would pass the grid's
end. The cache and `dec.prev` are unchanged. -/
def execRun (n : Nat) (s : State) : Result :=
  if s.dec.cur + n > s.dec.n then .next (raiseError .dec .gridOverrun s)
  else
    match putPixels s.dec.cur n s.dec.prev s with
    | .error f => .fault f
    | .ok t => .next (finishRun n t)

end Sys2Proof.Machine
end

