-- ==== Sys2Proof/Machine/Literal.lean ====
section
/-! DEFINITION. The meaning of the raw-pixel escape (format F4): RAW. -/

namespace Sys2Proof.Machine

/-- RAW (43_decoder.md rule R165): its three channel bytes must be there. -/
def execRaw (r g b : Byte) (s : State) : Result :=
  if s.dec.rp + 4 > s.dec.l then .next (raiseError .dec .truncatedOp s) else producePixel ⟨r, g, b⟩ 4 true s

end Sys2Proof.Machine
end

