-- ==== Sys2Proof/Machine/Dispatch.lean ====
section
/-! DEFINITION. One arm per constructor of Instr: the decoder's meaning of each row of the opcode table. -/

namespace Sys2Proof.Machine

def exec (i : Instr) (s : State) : Host.Outcome State Fault Refusal :=
  match i with
  | .hdr h w => Sys2Proof.Machine.execHdr h w s
  | .cache idx => Sys2Proof.Machine.execCache idx s
  | .small dr dg db => Sys2Proof.Machine.execSmall dr dg db s
  | .med dr dg db => Sys2Proof.Machine.execMed dr dg db s
  | .run n => Sys2Proof.Machine.execRun n s
  | .raw r g b => Sys2Proof.Machine.execRaw r g b s

end Sys2Proof.Machine
end

