-- ==== Sys2Proof/Machine/Encoder.lean ====
section
/-! DEFINITION. The encoder's steps after its start (42_encoder.md rules R131 to R146): header, one per pixel, flush. -/

namespace Sys2Proof.Machine

/-- The largest dimension the header holds (R131). -/
def maxDim : Nat := 65535

/-- The encoder's run cap (R136). -/
def maxRun : Nat := 62

/-- Header step, emission (R132). -/
def encEmitHeader (s : State) : State :=
  enterPixels (emitInstr (.hdr (dimLow s.enc.hin) (dimLow s.enc.win)) (setDims (dimLow s.enc.hin) (dimLow s.enc.win) s))

/-- Header step: the dimension check precedes all output (R131). -/
def encHeaderStep (s : State) : State :=
  if s.enc.hin.toNat > maxDim ∨ s.enc.win.toNat > maxDim then raiseError .enc .dimensionOverflow s else encEmitHeader s

/-- RUN, accumulation and cap (R135, R136). -/
def encRunPixel (s : State) : State :=
  if s.enc.run + 1 = maxRun then setRun 0 (emitInstr (.run maxRun) s) else setRun (s.enc.run + 1) s

/-- A pending run is emitted and cleared (R137, R145). -/
def encEndRun (s : State) : State := if s.enc.run > 0 then setRun 0 (emitInstr (.run s.enc.run) s) else s

/-- CACHE (R138): the cache is unchanged. -/
def encCachePixel (p : Pixel) (s : State) : State := emitInstr (.cache (hashPixel p)) s

/-- The miss path (R139 to R142): the store comes before the band test, the difference is against the `enc.prev` from
before the step. -/
def encMissPixel (p : Pixel) (s : State) : State := emitInstr (missInstr p (diff p s.enc.prev)) (storePixel p s)

/-- A pixel after the pending run: a hit (R138) or a miss (R139). -/
def encHitOrMiss (p : Pixel) (s : State) : State :=
  if cacheHit s.enc.cache p then encCachePixel p s else encMissPixel p s

/-- A pixel that differs from `enc.prev` (R137 to R142). -/
def encOtherPixel (p : Pixel) (s : State) : State := setPrev p (encHitOrMiss p (encEndRun s))

/-- Op selection for one pixel, and the advance to the next (R134). -/
def encTakePixel (p : Pixel) (s : State) : State :=
  nextPixel (if pixelEq p s.enc.prev then encRunPixel s else encOtherPixel p s)

/-- Pixel step: fetch (R133), then op selection (R134). -/
def encPixelStep (s : State) : Result :=
  match pixelAt (s.enc.i / s.enc.w.toNat) (s.enc.i % s.enc.w.toNat) s with
  | .error f => .fault f
  | .ok p => .next (encTakePixel p s)

/-- Flush step (R145). -/
def encFlushStep (s : State) : State := finishEncoder (encEndRun s)

/-- One step of a BUSY encoder (R133, R145): the header, the next pixel, or the flush. -/
def encStep (s : State) : Result :=
  match s.enc.stage with
  | .hdr => .next (encHeaderStep s)
  | .pix => if s.enc.i = s.enc.n then .next (encFlushStep s) else encPixelStep s

end Sys2Proof.Machine
end

