-- ==== Sys2Proof/Machine/Fetch.lean ====
section
/-! DEFINITION. How the decoder comes to its next instruction: the header at offsets 0 to 3 (43_decoder.md rule R161), then
an op at the read pointer, after the tests for a full grid and an exhausted buffer (R162, R163, R164). Only bytes below L
are read, and only those of the instruction (20_memory.md rule R53). -/

namespace Sys2Proof.Machine

/-- What the fetch finds. -/
inductive Fetched where
  /-- The instruction to execute. -/
  | instr (i : Instr)
  /-- Its bytes are not all there, or none is: an error of the stream (R161, R164, R165, R168). -/
  | error (c : Code)
  /-- The grid is full: the decode completes (R163). -/
  | complete
  /-- The buffer cannot be read as the host's duties say (log 4, log 15). -/
  | fault (f : Fault)
deriving DecidableEq, Repr

/-- The instruction in `n` bytes at offset `a`. A unit cut short is the error `c`. -/
def fetchAt (place : Place) (a n : Nat) (c : Code) (s : State) : Fetched :=
  if a + n > s.dec.l then .error c
  else
    match bytesInAt a n s with
    | .error f => .fault f
    | .ok bs =>
      match decode place bs with
      | .ok (i, _) => .instr i
      | .error _ => .error c

/-- The header (R161). -/
def fetchHeader (s : State) : Fetched := fetchAt .start 0 4 .truncatedHeader s

/-- The op at the read pointer: its first byte gives its length (30_encoding.md rule R81). -/
def fetchOp (s : State) : Fetched :=
  match byteIn s.dec.rp s with
  | .error f => .fault f
  | .ok b => fetchAt .opStream s.dec.rp (opLength b) .truncatedOp s

/-- The decoder's next instruction, in the order of R162. -/
def fetch (s : State) : Fetched :=
  match s.dec.stage with
  | .hdr => fetchHeader s
  | .ops =>
    if s.dec.cur = s.dec.n then .complete
    else if s.dec.rp = s.dec.l then .error .truncatedStream
    else fetchOp s

/-- Completion (R163): with STRICT_TRAILING, bytes left after the grid is full are GridOverrun. -/
def decComplete (s : State) : State :=
  if s.dec.rp < s.dec.l ∧ s.cfg.strictTrailing then raiseError .dec .gridOverrun s
  else finishDecoder s

end Sys2Proof.Machine
end

