-- ==== Sys2Proof/Machine/Engines.lean ====
section
/-! DEFINITION. The agents' moves: a step of a BUSY decoder, a turn of either engine, a host command, and what the machine
does when no move is scheduled (60_exceptions.md rules R203, R210, R213, R214). -/

namespace Sys2Proof.Machine

/-- One step of a BUSY decoder (43_decoder.md rules R161, R162). -/
def decStep (s : State) : Result :=
  match fetch s with
  | .instr i => exec i s
  | .error c => .next (raiseError .dec c s)
  | .complete => .next (decComplete s)
  | .fault f => .fault f

/-- A turn of the encoder: a step if it is BUSY; otherwise no step of it is taken (R203). -/
def encTurn (s : State) : Result := if s.enc.phase = .busy then encStep s else .next s

/-- A turn of the decoder: a step if it is BUSY; otherwise no step of it is taken (R203). -/
def decTurn (s : State) : Result := if s.dec.phase = .busy then decStep s else .next s

/-- A host command (10_state.md rule R37; R210; 70_reset_and_hazards.md rules R230, R235, R240). -/
def hostStep (c : HostCmd) (s : State) : Result :=
  match c with
  | .encStart hin win => if s.enc.phase = .busy then .refused .encStartWhileBusy else .next (startEncoder hin win s)
  | .decStart l =>
    if s.dec.phase = .busy then .refused .decStartWhileBusy
    else if l < 2 ^ s.cfg.addrWidth then .next (startDecoder l s)
    else .refused .lengthTooWide
  | .writeGridIn row col p =>
    if s.enc.phase = .busy then .refused .gridInWriteWhileBusy
    else .next { s with gridIn := Memory.write s.gridIn (gridKey row.toNat col.toNat) p }
  | .writeBytesIn a b =>
    if s.dec.phase = .busy then .refused .bytesInWriteWhileBusy
    else .next { s with bytesIn := Memory.write s.bytesIn a b }
  | .readReg r => .next (readReg r s)
  | .writeReg _ _ => .next s
  | .readBytesOut a => readBytesOut a s
  | .readGridOut i => readGridOut i s
  | .reset => .next (hardwareReset s)

/-- One move of one agent. -/
def moveStep (m : Move) (s : State) : Result :=
  match m with
  | .enc => encTurn s
  | .dec => decTurn s
  | .host c => hostStep c s

/-- With no move scheduled the BUSY engines go on by themselves (R214): the one that is BUSY, or, when both are, the one a
free choice names (R213, log 6). With neither BUSY nothing moves. -/
def autoStep (s : State) : Result :=
  if s.enc.phase = .busy then
    if s.dec.phase = .busy then
      if Config.encoderFirst s.fresh then encStep { s with fresh := s.fresh + 1 }
      else decStep { s with fresh := s.fresh + 1 }
    else encStep s
  else if s.dec.phase = .busy then decStep s
  else .next s

/-- The next move of the agenda is taken from it; an empty agenda leaves the engines to themselves. -/
def stepOf (s : State) : Result :=
  match s.agenda with
  | [] => autoStep s
  | m :: rest => moveStep m { s with agenda := rest }

/-! ## A table word where the decoder fetches next (log 10) -/

/-- Bytes laid down from an offset on. -/
def layBytes (a : Nat) : List Byte → Memory Byte → Memory Byte
  | [], m => m
  | b :: bs, m => layBytes (a + 1) bs (Memory.write m a b)

/-- The decoder about to read the header: BUSY at stage HDR, with a buffer of at least the header's 4 bytes. -/
def Dec.readyForHeader (d : Dec) : Dec := { d with phase := .busy, stage := .hdr, l := max d.l 4 }

/-- The decoder about to read an op at its read pointer: BUSY at stage OPS, the longest op within the buffer, and room in
the grid for the longest run (a grid of the largest dimensions where there is less). -/
def Dec.readyForOp (d : Dec) : Dec :=
  if d.cur + 63 ≤ d.n then { d with phase := .busy, stage := .ops, l := max d.l (d.rp + 4) }
  else { d with phase := .busy, stage := .ops, l := max d.l (d.rp + 4), h := 0xFFFF#16, w := 0xFFFF#16,
                n := pixelCount 0xFFFF#16 0xFFFF#16 }

/-- The state in which the next step is the decoder's and fetches the table word. -/
def placeTableWord (nbits w : Nat) (s : State) : State :=
  match tablePlace nbits w with
  | .start =>
    { s with dec := s.dec.readyForHeader, bytesIn := layBytes 0 (tableBytes nbits w) s.bytesIn, agenda := .dec :: s.agenda }
  | .opStream =>
    { s with dec := s.dec.readyForOp, bytesIn := layBytes s.dec.rp (tableBytes nbits w) s.bytesIn,
             agenda := .dec :: s.agenda }

end Sys2Proof.Machine
end

