-- ==== Sys2Proof/Machine/Step.lean ====
section
/-! DEFINITION. One step of the machine, and the state in which the next step runs a given table word. -/

namespace Sys2Proof.Machine

/-- One atomic transition of one agent (00_scope.md rule R14; 20_memory.md rule R59). -/
def step (s : State) : Host.Outcome State Fault Refusal := stepOf s

/-- `s` with the table word stored where the decoder fetches next, and that step scheduled next (log 10). -/
def State.withFetchWord (s : State) (nbits w : Nat) : State := placeTableWord nbits w s

end Sys2Proof.Machine
end

