-- ==== Sys2Proof/Safety.lean ====
section
/-! DEFINITION. The terms the statements use: what a state of a run looks like (the invariant), which moves keep the host's
duties, what an instruction leaves alone (frames), and runs of several steps. -/

namespace Sys2Proof.Machine

/-! ## Runs -/

/-- `k` steps of the machine. -/
def runSteps (k : Nat) (s : State) : Result := Host.Core.run Sys2Proof.core k s

/-- The ops of a list, executed one after another. -/
def execAll : List Instr → State → Result
  | [], s => .next s
  | i :: is, s =>
    match exec i s with
    | .next t => execAll is t
    | .fault f => .fault f
    | .refused r => .refused r

/-- The pseudo-op `RUNS n` (30_encoding.md rule R85): `n div 62` copies of `RUN 62`, then the rest if there is one. -/
def runsOps (n : Nat) : List Instr :=
  List.replicate (n / maxRun) (.run maxRun) ++ (if n % maxRun = 0 then [] else [.run (n % maxRun)])

/-- The bytes of a list of instructions. -/
def encodeAll (is : List Instr) : List Byte := is.flatMap encode

/-- From offset `a` on, a byte space holds exactly these bytes. -/
def HoldsBytes (m : Memory Byte) (a : Nat) (bs : List Byte) : Prop :=
  ∀ j, j < bs.length → Memory.read m (a + j) = bs[j]?

/-! ## What a step leaves alone -/

/-- Everything outside the decoder and its output grid. -/
def SameButDecoder (s t : State) : Prop :=
  t.cfg = s.cfg ∧ t.enc = s.enc ∧ t.gridIn = s.gridIn ∧ t.bytesIn = s.bytesIn ∧ t.bytesOut = s.bytesOut ∧
  t.agenda = s.agenda ∧ t.hostData = s.hostData ∧ t.fresh = s.fresh

/-- Everything outside the encoder and its output stream. -/
def SameButEncoder (s t : State) : Prop :=
  t.cfg = s.cfg ∧ t.dec = s.dec ∧ t.gridIn = s.gridIn ∧ t.bytesIn = s.bytesIn ∧ t.gridOut = s.gridOut ∧
  t.agenda = s.agenda ∧ t.hostData = s.hostData ∧ t.fresh = s.fresh

/-- The decoder's registers that no op writes when it succeeds. -/
def SameDecoderRun (s t : State) : Prop :=
  t.dec.phase = s.dec.phase ∧ t.dec.code = s.dec.code ∧ t.dec.stage = s.dec.stage ∧ t.dec.l = s.dec.l ∧
  t.dec.h = s.dec.h ∧ t.dec.w = s.dec.w ∧ t.dec.n = s.dec.n

/-- Every cell of `GRID_OUT` outside [lo, hi) reads as before. -/
def SameCellsOutside (lo hi : Nat) (s t : State) : Prop :=
  ∀ j, (j < lo ∨ hi ≤ j) → Memory.read t.gridOut j = Memory.read s.gridOut j

/-- Every byte of `BYTES_OUT` outside [lo, hi) reads as before. -/
def SameBytesOutside (lo hi : Nat) (s t : State) : Prop :=
  ∀ j, (j < lo ∨ hi ≤ j) → Memory.read t.bytesOut j = Memory.read s.bytesOut j

/-- One slot holds p and every other slot is as before. -/
def CacheStored (c d : Cache) (k : BitVec 6) (p : Pixel) : Prop :=
  cacheLookup d k = p ∧ ∀ j, j ≠ k → cacheLookup d j = cacheLookup c j

/-- `t` is `s` after an op of `len` bytes that wrote the one pixel p: cell, previous pixel, cursor and read pointer; every
other cell, register and space is as before. What happens to the cache is said beside it. -/
def PixelProduced (p : Pixel) (len : Nat) (s t : State) : Prop :=
  Memory.read t.gridOut s.dec.cur = some p ∧ SameCellsOutside s.dec.cur (s.dec.cur + 1) s t ∧
  t.dec.prev = p ∧ t.dec.cur = s.dec.cur + 1 ∧ t.dec.rp = s.dec.rp + len ∧
  SameDecoderRun s t ∧ SameButDecoder s t

/-- `t` is `s` with only the decoder's code and phase changed, to code c and ERROR (60_exceptions.md rules R203, R205). -/
def DecoderRaised (c : Code) (s t : State) : Prop :=
  t = { s with dec := { s.dec with code := c, phase := .error } }

/-- The encoder's registers that a pixel step, having run to its end, has not written. -/
def SameEncoderRun (s t : State) : Prop :=
  t.enc.phase = s.enc.phase ∧ t.enc.code = s.enc.code ∧ t.enc.stage = s.enc.stage ∧ t.enc.hin = s.enc.hin ∧
  t.enc.win = s.enc.win ∧ t.enc.h = s.enc.h ∧ t.enc.w = s.enc.w ∧ t.enc.n = s.enc.n

/-- The bytes a step appended to the encoder's stream: they stand from the old length on, the length grew by their number,
and every other byte is as before. -/
def Appended (bs : List Byte) (s t : State) : Prop :=
  t.enc.outlen = s.enc.outlen + bs.length ∧ HoldsBytes t.bytesOut s.enc.outlen bs ∧
  SameBytesOutside s.enc.outlen (s.enc.outlen + bs.length) s t

/-- The encoder's next step is the pixel step of p: BUSY, stage PIX, pixels left, and p at the position R133 reads
(42_encoder.md); the run counter holds 0 to 61, as it does between steps (10_state.md rule R28). -/
structure PixelNext (p : Pixel) (s : State) : Prop where
  busy : s.enc.phase = .busy
  stage : s.enc.stage = .pix
  more : s.enc.i ≠ s.enc.n
  row : s.enc.i / s.enc.w.toNat < s.enc.hin.toNat
  col : s.enc.i % s.enc.w.toNat < s.enc.win.toNat
  pixel : Memory.read s.gridIn (gridKey (s.enc.i / s.enc.w.toNat) (s.enc.i % s.enc.w.toNat)) = some p
  run : s.enc.run ≤ 61

/-- The byte that ends a pending run, `0xC0 | (enc.run - 1)`, if there is one (42_encoder.md rules R137, R145). -/
def endRunBytes (s : State) : List Byte :=
  if s.enc.run = 0 then [] else [0xC0#8 ||| BitVec.ofNat 8 (s.enc.run - 1)]

/-- `t` is `s` after the pixel step of a pixel p that differs from `enc.prev`: the pending run's byte comes first (R137),
then the bytes of p's own op; previous pixel, run counter and index; everything else but the cache is as before. -/
def PixelEncoded (p : Pixel) (op : List Byte) (s t : State) : Prop :=
  Appended (endRunBytes s ++ op) s t ∧ t.enc.prev = p ∧ t.enc.run = 0 ∧ t.enc.i = s.enc.i + 1 ∧
  SameEncoderRun s t ∧ SameButEncoder s t

/-- The decoder's next step is the op at the read pointer: BUSY, stage OPS, cells and bytes left (43_decoder.md rule R162). -/
structure OpNext (s : State) : Prop where
  busy : s.dec.phase = .busy
  stage : s.dec.stage = .ops
  more : s.dec.cur ≠ s.dec.n
  bytes : s.dec.rp ≠ s.dec.l

/-- The bytes at offset `a` of the buffer, all below L, are exactly the instruction i read at that place. -/
def InstrAt (place : Place) (a : Nat) (i : Instr) (s : State) : Prop :=
  ∃ bs, decode place bs = .ok (i, []) ∧ HoldsBytes s.bytesIn a bs ∧ a + bs.length ≤ s.dec.l

/-- Nothing but the encoder moves: no move is scheduled and the decoder is not BUSY. -/
def EncoderAlone (s : State) : Prop := s.agenda = [] ∧ s.dec.phase ≠ .busy

/-- Nothing but the decoder moves: no move is scheduled and the encoder is not BUSY. -/
def DecoderAlone (s : State) : Prop := s.agenda = [] ∧ s.enc.phase ≠ .busy

/-- The host's input grid of h rows and w columns is G. -/
def InputGrid (G : Nat → Nat → Pixel) (h w : Nat) (s : State) : Prop :=
  ∀ row col, row < h → col < w → Memory.read s.gridIn (gridKey row col) = some (G row col)

/-- The decoder's output grid of the declared dimensions is G. -/
def OutputGrid (G : Nat → Nat → Pixel) (s : State) : Prop :=
  ∀ row col, row < s.dec.h.toNat → col < s.dec.w.toNat →
    Memory.read s.gridOut (linearIndex s.dec.w.toNat row col) = some (G row col)

/-! ## What a run can depend on -/

/-- Two machines look alike to the decoder: its registers, the build, its input, and the cells its run has written. -/
structure DecoderSeesTheSame (s s' : State) : Prop where
  dec : s'.dec = s.dec
  cfg : s'.cfg = s.cfg
  bytesIn : s'.bytesIn = s.bytesIn
  cells : ∀ j, j < s.dec.cur → Memory.read s'.gridOut j = Memory.read s.gridOut j

/-- Two machines look alike to the encoder: its registers, its input, and the bytes its run has written. -/
structure EncoderSeesTheSame (s s' : State) : Prop where
  enc : s'.enc = s.enc
  gridIn : s'.gridIn = s.gridIn
  bytes : ∀ a, a < s.enc.outlen → Memory.read s'.bytesOut a = Memory.read s.bytesOut a

/-! ## The invariant -/

/-- 41_cache.md rule R126: every slot holds ZERO or a pixel that hashes to it. -/
def SlotsHashed (c : Cache) : Prop := ∀ k, cacheLookup c k = Pixel.zero ∨ hashPixel (cacheLookup c k) = k

/-- R126 as it stands, "at every step boundary after a start": an engine that has started since the last hardware reset is
not IDLE. In IDLE the slots are unspecified (10_state.md rule R24), and nothing is asked of them. -/
def SlotsAfterStart (phase : Phase) (c : Cache) : Prop := phase ≠ .idle → SlotsHashed c

/-- Every index below `n` has a value. -/
def Filled {α : Type} (m : Memory α) (n : Nat) : Prop := ∀ a, a < n → (Memory.read m a).isSome = true

/-- A BUSY encoder before its header step holds what the start step wrote (42_encoder.md rule R130). -/
structure EncFresh (s : State) : Prop where
  prev : s.enc.prev = Pixel.zero
  cache : s.enc.cache = cacheCleared
  run : s.enc.run = 0
  i : s.enc.i = 0
  outlen : s.enc.outlen = 0

/-- The encoder past its header step: dimensions that passed the check and agree with the latches (R131, R132), widths
(10_state.md rules R25, R28), and a stream that is written throughout (20_memory.md rule R52). -/
structure EncSized (s : State) : Prop where
  hin : s.enc.hin.toNat ≤ maxDim
  win : s.enc.win.toNat ≤ maxDim
  h : s.enc.h = dimLow s.enc.hin
  w : s.enc.w = dimLow s.enc.win
  n : s.enc.n = pixelCount s.enc.h s.enc.w
  filled : Filled s.bytesOut s.enc.outlen

/-- A BUSY encoder in its pixel stage: the index, the run counter, and the bounds on the stream's length that give
42_encoder.md rule R144. -/
structure EncPixels (s : State) : Prop where
  sized : EncSized s
  i : s.enc.i ≤ s.enc.n
  run : s.enc.run < maxRun
  atMost : s.enc.outlen + (if 0 < s.enc.run then 1 else 0) ≤ 4 + 4 * s.enc.i
  header : 4 ≤ s.enc.outlen
  atLeast : s.enc.i ≤ maxRun * (s.enc.outlen - 4) + s.enc.run

/-- A finished encoder (R144, R145). -/
structure EncFinished (s : State) : Prop where
  sized : EncSized s
  i : s.enc.i = s.enc.n
  run : s.enc.run = 0
  atMost : s.enc.outlen ≤ 4 + 4 * s.enc.n
  atLeast : 4 + (s.enc.n + 61) / 62 ≤ s.enc.outlen

/-- The encoder's part of the invariant. -/
structure EncInv (s : State) : Prop where
  slots : SlotsAfterStart s.enc.phase s.enc.cache
  code : s.enc.code = .ok ∨ s.enc.code = .dimensionOverflow
  error : s.enc.phase = .error ↔ s.enc.code ≠ .ok
  fresh : s.enc.phase = .busy → s.enc.stage = .hdr → EncFresh s
  pixels : s.enc.phase = .busy → s.enc.stage = .pix → EncPixels s
  finished : s.enc.phase = .done → EncFinished s

/-- A BUSY decoder before its header step holds what the start step wrote (43_decoder.md rule R160). -/
structure DecFresh (s : State) : Prop where
  prev : s.dec.prev = Pixel.zero
  cache : s.dec.cache = cacheCleared
  rp : s.dec.rp = 0
  cur : s.dec.cur = 0
  h : s.dec.h = 0
  w : s.dec.w = 0
  n : s.dec.n = 0

/-- The decoder past its header step: the pixel count of the declared dimensions, the read pointer within the buffer
(20_memory.md rule R53), the cursor within the grid, and every cell below the cursor written (R173). -/
structure DecOps (s : State) : Prop where
  n : s.dec.n = pixelCount s.dec.h s.dec.w
  header : 4 ≤ s.dec.rp
  rp : s.dec.rp ≤ s.dec.l
  cur : s.dec.cur ≤ s.dec.n
  filled : Filled s.gridOut s.dec.cur

/-- The decoder's part of the invariant. -/
structure DecInv (s : State) : Prop where
  slots : SlotsAfterStart s.dec.phase s.dec.cache
  code : s.dec.code ≠ .dimensionOverflow
  error : s.dec.phase = .error ↔ s.dec.code ≠ .ok
  length : s.dec.l < 2 ^ s.cfg.addrWidth
  fresh : s.dec.phase = .busy → s.dec.stage = .hdr → DecFresh s
  ops : s.dec.phase = .busy → s.dec.stage = .ops → DecOps s
  finished : s.dec.phase = .done → DecOps s ∧ s.dec.cur = s.dec.n ∧ (s.cfg.strictTrailing = true → s.dec.rp = s.dec.l)

/-- The invariant of the machine: every state that the moves reach from reset has it. -/
structure Invariant (s : State) : Prop where
  gridIn : Memory.wf s.gridIn = true
  bytesIn : Memory.wf s.bytesIn = true
  bytesOut : Memory.wf s.bytesOut = true
  gridOut : Memory.wf s.gridOut = true
  enc : EncInv s
  dec : DecInv s

/-! ## The host's duties -/

/-- What the host placed before a start (70_reset_and_hazards.md rule R235): every pixel of a BUSY encoder's grid, every
byte of a BUSY decoder's buffer. -/
structure InputsPlaced (s : State) : Prop where
  grid : s.enc.phase = .busy → ∀ row col, row < s.enc.hin.toNat → col < s.enc.win.toNat →
    (Memory.read s.gridIn (gridKey row col)).isSome = true
  bytes : s.dec.phase = .busy → Filled s.bytesIn s.dec.l

/-- The moves the host's duties allow in a state (R235, R240; 20_memory.md rule R50): no start and no input write while
that engine is BUSY, a length that ADDR_WIDTH bits hold, no read outside a finished output. Turns are always allowed. -/
def Allowed (s : State) : Move → Prop
  | .enc => True
  | .dec => True
  | .host (.encStart _ _) => s.enc.phase ≠ .busy
  | .host (.decStart l) => s.dec.phase ≠ .busy ∧ l < 2 ^ s.cfg.addrWidth
  | .host (.writeGridIn _ _ _) => s.enc.phase ≠ .busy
  | .host (.writeBytesIn _ _) => s.dec.phase ≠ .busy
  | .host (.readReg _) => True
  | .host (.writeReg _ _) => True
  | .host (.readBytesOut a) => s.enc.phase.settled = true → a < s.enc.outlen
  | .host (.readGridOut i) => s.dec.phase.settled = true → i < s.dec.n
  | .host .reset => True

/-- The next move, if one is scheduled, is allowed. -/
def NextAllowed (s : State) : Prop := ∀ m rest, s.agenda = m :: rest → Allowed s m

end Sys2Proof.Machine
end

