-- ==== Sys2Proof/Certificates/Slice0/Obligations.lean ====
section
/-! DEFINITION. The statements for the provers. Each says which rule of spec/ it formalises, or which section it rests on;
OBLIGATIONS.json lists them. -/

open Sys2Proof Sys2Proof.Machine

/-! ## Encoding (30_encoding.md) -/

/-- Decoding the bytes of a well-formed instruction gives the instruction back, and leaves what follows. Rests on R70,
R73 to R80. -/
def Obligations.DecodeOfEncodeGivesInstructionBack : Prop :=
  ∀ (i : Instr) (rest : List Byte), i.wf = true → decode i.place (encode i ++ rest) = .ok (i, rest)

/-- Whatever decodes is well-formed, belongs to its place, and its bytes are the encoding of what was decoded. Rests on R70,
R73 to R80, R83. -/
def Obligations.DecodedBytesAreTheEncoding : Prop :=
  ∀ (place : Place) (bs rest : List Byte) (i : Instr), decode place bs = .ok (i, rest) →
    i.wf = true ∧ i.place = place ∧ bs = encode i ++ rest

/-- The assembled examples of R86, both ways. -/
def Obligations.AssembledExamplesOfTheSpec : Prop :=
  ∀ e ∈ [ (Instr.hdr 1 3, [0x00#8, 0x01#8, 0x00#8, 0x03#8]), (.cache 22, [0x16#8]), (.small (-1) (-1) (-1), [0x55#8]),
          (.small (-2) (-2) (-2), [0x40#8]), (.small 1 1 1, [0x7F#8]), (.med 5 5 5, [0xA5#8, 0xDD#8]),
          (.med (-32) (-8) (-8), [0x80#8, 0x00#8]), (.med 31 7 7, [0xBF#8, 0xFF#8]), (.run 1, [0xC0#8]), (.run 3, [0xC2#8]),
          (.run 62, [0xFD#8]), (.run 63, [0xFE#8]), (.raw 10 10 10, [0xFF#8, 0x0A#8, 0x0A#8, 0x0A#8]),
          (.raw 255 255 255, [0xFF#8, 0xFF#8, 0xFF#8, 0xFF#8]) ],
    encode e.1 = e.2 ∧ decode e.1.place e.2 = .ok (e.1, [])

/-- The first-byte map of R81: every first byte, its op, its length, and what its fields and operand bytes give. -/
def Obligations.FirstByteMap : Prop :=
  ∀ (b : Byte) (rest : List Byte),
    (b.toNat ≤ 0x3F → opLength b = 1 ∧ decodeOp (b :: rest) = .ok (.cache (b.extractLsb' 0 6), rest)) ∧
    (0x40 ≤ b.toNat → b.toNat ≤ 0x7F → opLength b = 1 ∧
      decodeOp (b :: rest) = .ok (.small ((b.extractLsb' 4 2).toNat - 2) ((b.extractLsb' 2 2).toNat - 2)
        ((b.extractLsb' 0 2).toNat - 2), rest)) ∧
    (0x80 ≤ b.toNat → b.toNat ≤ 0xBF → opLength b = 2 ∧ decodeOp [b] = .error .truncatedOp ∧
      ∀ b1, decodeOp (b :: b1 :: rest) = .ok (.med ((b.extractLsb' 0 6).toNat - 32) ((b1.extractLsb' 4 4).toNat - 8)
        ((b1.extractLsb' 0 4).toNat - 8), rest)) ∧
    (0xC0 ≤ b.toNat → b.toNat ≤ 0xFE → opLength b = 1 ∧
      decodeOp (b :: rest) = .ok (.run ((b.extractLsb' 0 6).toNat + 1), rest)) ∧
    (b.toNat = 0xFF → opLength b = 4 ∧ decodeOp [b] = .error .truncatedOp ∧
      (∀ x, decodeOp [b, x] = .error .truncatedOp) ∧ (∀ x y, decodeOp [b, x, y] = .error .truncatedOp) ∧
      ∀ x y z, decodeOp (b :: x :: y :: z :: rest) = .ok (.raw x y z, rest))

/-! ## The pixel model (40_pixel_model.md) -/

/-- R101: the hash is the weighted sum modulo 64; the sum fits 12 bits. -/
def Obligations.HashIsWeightedSumModulo64 : Prop :=
  ∀ p : Pixel, (hashPixel p).toNat = (3 * p.r.toNat + 5 * p.g.toNat + 7 * p.b.toNat) % 64 ∧
    3 * p.r.toNat + 5 * p.g.toNat + 7 * p.b.toNat ≤ 3825

/-- R106: reconstruction is the exact lane sums when all lie in [0, 255], and fails otherwise; an encoder-made difference
never makes it fail. -/
def Obligations.ReconstructionIsExactOrFails : Prop :=
  ∀ (q : Pixel) (d : Diff),
    (∀ p, recon q d = some p →
      (p.r.toNat : Int) = q.r.toNat + d.r ∧ (p.g.toNat : Int) = q.g.toNat + d.g ∧ (p.b.toNat : Int) = q.b.toNat + d.b) ∧
    (recon q d = none ↔
      ¬ ((0 ≤ (q.r.toNat : Int) + d.r ∧ (q.r.toNat : Int) + d.r ≤ 255) ∧
         (0 ≤ (q.g.toNat : Int) + d.g ∧ (q.g.toNat : Int) + d.g ≤ 255) ∧
         (0 ≤ (q.b.toNat : Int) + d.b ∧ (q.b.toNat : Int) + d.b ≤ 255))) ∧
    (∀ p, recon q (diff p q) = some p)

/-- R102: the difference is the exact channel-wise subtraction of the reference from the target, each lane in [-255, 255];
adding it to the reference gives the target back. -/
def Obligations.DifferenceReconstructsPixel : Prop :=
  ∀ p q : Pixel,
    (diff p q).r = (p.r.toNat : Int) - q.r.toNat ∧ (diff p q).g = (p.g.toNat : Int) - q.g.toNat ∧
    (diff p q).b = (p.b.toNat : Int) - q.b.toNat ∧
    (-255 ≤ (diff p q).r ∧ (diff p q).r ≤ 255) ∧ (-255 ≤ (diff p q).g ∧ (diff p q).g ≤ 255) ∧
    (-255 ≤ (diff p q).b ∧ (diff p q).b ≤ 255) ∧
    recon q (diff p q) = some p

/-- R103, R104, R105: the two bands; a difference in the small band is in the medium band and always takes SMALL, MED is
taken in the medium band outside the small one, and RAW outside both. -/
def Obligations.SmallBandWinsInsideMediumBand : Prop :=
  ∀ (p : Pixel) (d : Diff),
    (fitsSmall d = true ↔ (-2 ≤ d.r ∧ d.r ≤ 1) ∧ (-2 ≤ d.g ∧ d.g ≤ 1) ∧ (-2 ≤ d.b ∧ d.b ≤ 1)) ∧
    (fitsMed d = true ↔ (-32 ≤ d.r ∧ d.r ≤ 31) ∧ (-8 ≤ d.g ∧ d.g ≤ 7) ∧ (-8 ≤ d.b ∧ d.b ≤ 7)) ∧
    (fitsSmall d = true → fitsMed d = true ∧ missInstr p d = .small d.r d.g d.b) ∧
    (fitsSmall d = false → fitsMed d = true → missInstr p d = .med d.r d.g d.b) ∧
    (fitsMed d = false → missInstr p d = .raw p.r p.g p.b)

/-! ## Reset, commands, host (10_state.md, 60_exceptions.md, 70_reset_and_hazards.md) -/

/-- R230: reset leaves both phases IDLE and both codes OK, and writes none of the four spaces; so does the reset input at
any moment, BUSY or not (R232). -/
def Obligations.ResetLeavesPhasesIdleCodesOk : Prop :=
  (State.reset.enc.phase = .idle ∧ State.reset.dec.phase = .idle ∧ State.reset.enc.code = .ok ∧ State.reset.dec.code = .ok) ∧
  ∀ s : State, ∃ t, hostStep .reset s = .next t ∧
    t.enc.phase = .idle ∧ t.dec.phase = .idle ∧ t.enc.code = .ok ∧ t.dec.code = .ok ∧
    t.gridIn = s.gridIn ∧ t.bytesIn = s.bytesIn ∧ t.bytesOut = s.bytesOut ∧ t.gridOut = s.gridOut

/-- R130: the encoder's start step, refused while it is BUSY. (That the old stream survives it is log 12's:
StartsKeepOutputsAndLengthsFit.) -/
def Obligations.EncoderStartStep : Prop :=
  ∀ (hin win : BitVec 32) (s : State),
    (s.enc.phase = .busy → hostStep (.encStart hin win) s = .refused .encStartWhileBusy) ∧
    (s.enc.phase ≠ .busy → ∃ t, hostStep (.encStart hin win) s = .next t ∧
      t.enc.hin = hin ∧ t.enc.win = win ∧ t.enc.prev = Pixel.zero ∧ (∀ k, cacheLookup t.enc.cache k = Pixel.zero) ∧
      t.enc.run = 0 ∧ t.enc.i = 0 ∧ t.enc.outlen = 0 ∧ t.enc.code = .ok ∧ t.enc.phase = .busy ∧ t.enc.stage = .hdr ∧
      SameButEncoder s t)

/-- R160: the decoder's start step, for an L that ADDR_WIDTH bits hold, refused while it is BUSY. (That the old grid survives
it is log 12's, and what a wider L does is log 13's: StartsKeepOutputsAndLengthsFit.) -/
def Obligations.DecoderStartStep : Prop :=
  ∀ (l : Nat) (s : State), l < 2 ^ s.cfg.addrWidth →
    (s.dec.phase = .busy → hostStep (.decStart l) s = .refused .decStartWhileBusy) ∧
    (s.dec.phase ≠ .busy → ∃ t, hostStep (.decStart l) s = .next t ∧
      t.dec.l = l ∧ t.dec.prev = Pixel.zero ∧ (∀ k, cacheLookup t.dec.cache k = Pixel.zero) ∧
      t.dec.rp = 0 ∧ t.dec.cur = 0 ∧ t.dec.h = 0 ∧ t.dec.w = 0 ∧ t.dec.n = 0 ∧
      t.dec.code = .ok ∧ t.dec.phase = .busy ∧ t.dec.stage = .hdr ∧ SameButDecoder s t)

/-- The MODEL's choices at a start, which no rule states: the old contents of the engine's output space survive it (log 12;
R130 and R160 name no write of those spaces), and a length that ADDR_WIDTH bits do not hold is refused (log 13; R8 and R160
say there is no such length). -/
def Obligations.StartsKeepOutputsAndLengthsFit : Prop :=
  ∀ s : State,
    (∀ hin win t, hostStep (.encStart hin win) s = .next t → t.bytesOut = s.bytesOut) ∧
    (∀ l t, hostStep (.decStart l) s = .next t → t.gridOut = s.gridOut) ∧
    (∀ l, s.dec.phase ≠ .busy → 2 ^ s.cfg.addrWidth ≤ l → hostStep (.decStart l) s = .refused .lengthTooWide) ∧
    (∀ l, s.dec.phase = .busy → 2 ^ s.cfg.addrWidth ≤ l → hostStep (.decStart l) s = .refused .decStartWhileBusy)

/-- R210: a start command is enabled exactly when the engine is not BUSY; for a BUSY engine there is no move. (That an L
wider than ADDR_WIDTH bits is refused too is log 13's.) -/
def Obligations.StartWhileBusyHasNoMove : Prop :=
  ∀ s : State,
    (∀ hin win, s.enc.phase = .busy → hostStep (.encStart hin win) s = .refused .encStartWhileBusy) ∧
    (∀ hin win, s.enc.phase ≠ .busy → ∃ t, hostStep (.encStart hin win) s = .next t) ∧
    (∀ l, s.dec.phase = .busy → hostStep (.decStart l) s = .refused .decStartWhileBusy) ∧
    (∀ l, s.dec.phase ≠ .busy → l < 2 ^ s.cfg.addrWidth → ∃ t, hostStep (.decStart l) s = .next t)

/-- The host's input writes: no move while that engine is BUSY (R240 (b)); otherwise the unit written reads back and every
other unit reads as before (R235, R236). -/
def Obligations.InputWritesOutsideRuns : Prop :=
  ∀ s : State,
    (∀ row col p, s.enc.phase = .busy → hostStep (.writeGridIn row col p) s = .refused .gridInWriteWhileBusy) ∧
    (∀ row col p, s.enc.phase ≠ .busy → ∃ t, hostStep (.writeGridIn row col p) s = .next t ∧
      Memory.read t.gridIn (gridKey row.toNat col.toNat) = some p ∧
      (∀ row' col' : BitVec 32, (row' ≠ row ∨ col' ≠ col) →
        Memory.read t.gridIn (gridKey row'.toNat col'.toNat) = Memory.read s.gridIn (gridKey row'.toNat col'.toNat)) ∧
      t = { s with gridIn := t.gridIn }) ∧
    (∀ a b, s.dec.phase = .busy → hostStep (.writeBytesIn a b) s = .refused .bytesInWriteWhileBusy) ∧
    (∀ a b, s.dec.phase ≠ .busy → ∃ t, hostStep (.writeBytesIn a b) s = .next t ∧
      Memory.read t.bytesIn a = some b ∧ (∀ a', a' ≠ a → Memory.read t.bytesIn a' = Memory.read s.bytesIn a') ∧
      t = { s with bytesIn := t.bytesIn })

/-- R35: the status registers' fields; a read delivers them with no side effect on anything else, a write is ignored. The
numbers of the phases and of the codes are those of R32 and R200. -/
def Obligations.StatusRegisters : Prop :=
  (Phase.idle.toBits = 0 ∧ Phase.busy.toBits = 1 ∧ Phase.done.toBits = 2 ∧ Phase.error.toBits = 3) ∧
  (Code.ok.toBits = 0 ∧ Code.dimensionOverflow.toBits = 1 ∧ Code.truncatedHeader.toBits = 2 ∧
    Code.truncatedOp.toBits = 3 ∧ Code.corruptStream.toBits = 4 ∧ Code.gridOverrun.toBits = 5 ∧
    Code.truncatedStream.toBits = 6) ∧
  (∀ s : State,
    s.encStatus.extractLsb' 0 2 = s.enc.phase.toBits ∧ s.encStatus.extractLsb' 2 3 = s.enc.code.toBits ∧
    s.encStatus.extractLsb' 5 3 = 0 ∧
    s.decStatus.extractLsb' 0 2 = s.dec.phase.toBits ∧ s.decStatus.extractLsb' 2 3 = s.dec.code.toBits ∧
    s.decStatus.extractLsb' 5 3 = 0 ∧
    hostStep (.readReg .encStatus) s = .next { s with hostData := .status s.encStatus } ∧
    hostStep (.readReg .decStatus) s = .next { s with hostData := .status s.decStatus } ∧
    ∀ v, hostStep (.writeReg .encStatus v) s = .next s ∧ hostStep (.writeReg .decStatus v) s = .next s) ∧
  State.reset.encStatus = 0 ∧ State.reset.decStatus = 0

/-- A finished engine's outputs are what the host reads (R36, R52, R54, R63 (b)): after a state of the invariant in DONE,
the length, the bytes below it, the dimensions, and every cell of the declared grid. -/
def Obligations.FinishedOutputsAreRead : Prop :=
  ∀ s : State, Invariant s →
    (s.enc.phase = .done →
      hostStep (.readReg .encOutlen) s = .next { s with hostData := .length s.enc.outlen } ∧
      ∀ a, a < s.enc.outlen → ∃ b, Memory.read s.bytesOut a = some b ∧
        hostStep (.readBytesOut a) s = .next { s with hostData := .byte b }) ∧
    (s.dec.phase = .done →
      hostStep (.readReg .decH) s = .next { s with hostData := .dim s.dec.h } ∧
      hostStep (.readReg .decW) s = .next { s with hostData := .dim s.dec.w } ∧
      ∀ i, i < pixelCount s.dec.h s.dec.w → ∃ p, Memory.read s.gridOut i = some p ∧
        hostStep (.readGridOut i) s = .next { s with hostData := .pixel p })

/-- A host read touches no engine and no space (R35, R59): it changes the delivered value and the count of free values
only. Outside a result the value is free (R63 (c)), so the read completes in every state of a BUSY engine; outside a
finished output it faults, which is the MODEL's choice (log 15). -/
def Obligations.HostReadsTouchNoEngine : Prop :=
  ∀ s : State,
    (∀ c t, ((∃ r, c = .readReg r) ∨ (∃ a, c = .readBytesOut a) ∨ (∃ i, c = .readGridOut i)) → hostStep c s = .next t →
      t = { s with hostData := t.hostData, fresh := t.fresh }) ∧
    (∀ r, ∃ t, hostStep (.readReg r) s = .next t) ∧
    (∀ a, s.enc.phase = .busy → ∃ b t, hostStep (.readBytesOut a) s = .next t ∧ t.hostData = .byte b) ∧
    (∀ i, s.dec.phase = .busy → ∃ p t, hostStep (.readGridOut i) s = .next t ∧ t.hostData = .pixel p) ∧
    (∀ a, s.enc.phase = .done → s.enc.outlen ≤ a → hostStep (.readBytesOut a) s = .fault .bytesOutReadOutOfRange) ∧
    (∀ i, s.dec.phase = .done → s.dec.n ≤ i → hostStep (.readGridOut i) s = .fault .gridOutReadOutOfRange)

/-- The agenda orders the moves: its first move is the next step's, taken from it; an empty agenda leaves the step to the
one BUSY engine, and with no engine BUSY nothing moves. The MODEL's choice (log 6), resting on R213, R214. -/
def Obligations.AgendaOrdersTheMoves : Prop :=
  ∀ s : State,
    (∀ m rest, s.agenda = m :: rest → step s = moveStep m { s with agenda := rest }) ∧
    (EncoderAlone s → s.enc.phase = .busy → step s = encStep s) ∧
    (DecoderAlone s → s.dec.phase = .busy → step s = decStep s) ∧
    (s.agenda = [] → s.enc.phase ≠ .busy → s.dec.phase ≠ .busy → step s = .next s)

/-! ## The decoder's instructions (43_decoder.md) -/

/-- R161: the header, and how its four bytes are read (R55, R70). -/
def Obligations.HeaderSetsDimensionsAndEntryPoint : Prop :=
  (∀ b0 b1 b2 b3 : Byte, decodeHeader [b0, b1, b2, b3] = .ok (.hdr (b0 ++ b1) (b2 ++ b3), [])) ∧
  ∀ (h w : BitVec 16) (s : State),
    (s.dec.l < 4 → ∃ t, exec (.hdr h w) s = .next t ∧ DecoderRaised .truncatedHeader s t) ∧
    (4 ≤ s.dec.l → exec (.hdr h w) s =
      .next { s with dec := { s.dec with h := h, w := w, n := h.toNat * w.toNat, rp := 4, stage := .ops } } ∧
      h.toNat * w.toNat < 2 ^ 32)

/-- R165: RAW, and how its four bytes are read (R77). -/
def Obligations.RawProducesLiteralPixel : Prop :=
  (∀ r g b : Byte, decodeOp [0xFF#8, r, g, b] = .ok (.raw r g b, [])) ∧
  ∀ (r g b : Byte) (s : State),
    (s.dec.l < s.dec.rp + 4 → ∃ t, exec (.raw r g b) s = .next t ∧ DecoderRaised .truncatedOp s t) ∧
    (s.dec.rp + 4 ≤ s.dec.l → s.dec.cur < s.dec.n → ∃ t, exec (.raw r g b) s = .next t ∧
      PixelProduced ⟨r, g, b⟩ 4 s t ∧ CacheStored s.dec.cache t.dec.cache (hashPixel ⟨r, g, b⟩) ⟨r, g, b⟩)

/-- R166: RUN, and how its byte is read (R76). -/
def Obligations.RunRepeatsPreviousPixel : Prop :=
  (∀ b : Byte, b ≠ 0xFF#8 → b.extractLsb' 6 2 = 0b11#2 → decodeOp [b] = .ok (.run ((b.extractLsb' 0 6).toNat + 1), [])) ∧
  ∀ (n : Nat) (s : State),
    (s.dec.n < s.dec.cur + n → ∃ t, exec (.run n) s = .next t ∧ DecoderRaised .gridOverrun s t) ∧
    (s.dec.cur + n ≤ s.dec.n → ∃ t, exec (.run n) s = .next t ∧
      (∀ j, s.dec.cur ≤ j → j < s.dec.cur + n → Memory.read t.gridOut j = some s.dec.prev) ∧
      SameCellsOutside s.dec.cur (s.dec.cur + n) s t ∧ t.dec.cur = s.dec.cur + n ∧ t.dec.rp = s.dec.rp + 1 ∧
      t.dec.prev = s.dec.prev ∧ t.dec.cache = s.dec.cache ∧ SameDecoderRun s t ∧ SameButDecoder s t)

/-- R167 with R170: SMALL, and how its byte is read (R74). -/
def Obligations.SmallAddsDifference : Prop :=
  (∀ b : Byte, b.extractLsb' 6 2 = 0b01#2 → decodeOp [b] = .ok (.small ((b.extractLsb' 4 2).toNat - 2)
    ((b.extractLsb' 2 2).toNat - 2) ((b.extractLsb' 0 2).toNat - 2), [])) ∧
  ∀ (dr dg db : Int) (s : State),
    (recon s.dec.prev ⟨dr, dg, db⟩ = none →
      ∃ t, exec (.small dr dg db) s = .next t ∧ DecoderRaised .corruptStream s t) ∧
    (∀ p, recon s.dec.prev ⟨dr, dg, db⟩ = some p → s.dec.cur < s.dec.n → ∃ t, exec (.small dr dg db) s = .next t ∧
      PixelProduced p 1 s t ∧ CacheStored s.dec.cache t.dec.cache (hashPixel p) p)

/-- R168 with R170: MED, and how its two bytes are read (R75). -/
def Obligations.MedAddsDifference : Prop :=
  (∀ b b1 : Byte, b.extractLsb' 6 2 = 0b10#2 → decodeOp [b, b1] = .ok (.med ((b.extractLsb' 0 6).toNat - 32)
    ((b1.extractLsb' 4 4).toNat - 8) ((b1.extractLsb' 0 4).toNat - 8), [])) ∧
  ∀ (dr dg db : Int) (s : State),
    (s.dec.l < s.dec.rp + 2 → ∃ t, exec (.med dr dg db) s = .next t ∧ DecoderRaised .truncatedOp s t) ∧
    (s.dec.rp + 2 ≤ s.dec.l → recon s.dec.prev ⟨dr, dg, db⟩ = none →
      ∃ t, exec (.med dr dg db) s = .next t ∧ DecoderRaised .corruptStream s t) ∧
    (∀ p, s.dec.rp + 2 ≤ s.dec.l → recon s.dec.prev ⟨dr, dg, db⟩ = some p → s.dec.cur < s.dec.n →
      ∃ t, exec (.med dr dg db) s = .next t ∧
        PixelProduced p 2 s t ∧ CacheStored s.dec.cache t.dec.cache (hashPixel p) p)

/-- R169: CACHE, and how its byte is read (R73). -/
def Obligations.CacheSelectsSlot : Prop :=
  (∀ b : Byte, b.extractLsb' 6 2 = 0b00#2 → decodeOp [b] = .ok (.cache (b.extractLsb' 0 6), [])) ∧
  ∀ (idx : BitVec 6) (s : State), s.dec.cur < s.dec.n → ∃ t, exec (.cache idx) s = .next t ∧
    PixelProduced (cacheLookup s.dec.cache idx) 1 s t ∧ t.dec.cache = s.dec.cache

/-- An op writes a cell only inside the declared grid (R54): whichever instruction completes, every cell at or beyond N reads
as before. The decoder never executes an op with a full grid (R162); executed all the same, one that has passed its own
tests stops with the fault of a cell outside the grid, which is the MODEL's choice (log 15). No instruction is ever
refused, and there is no other fault. -/
def Obligations.CellsOutsideTheGridFault : Prop :=
  ∀ s : State,
    (s.dec.n ≤ s.dec.cur →
      (∀ k, exec (.cache k) s = .fault .gridOutOutOfRange) ∧
      (∀ r g b, s.dec.rp + 4 ≤ s.dec.l → exec (.raw r g b) s = .fault .gridOutOutOfRange) ∧
      (∀ dr dg db p, recon s.dec.prev ⟨dr, dg, db⟩ = some p → exec (.small dr dg db) s = .fault .gridOutOutOfRange) ∧
      (∀ dr dg db p, s.dec.rp + 2 ≤ s.dec.l → recon s.dec.prev ⟨dr, dg, db⟩ = some p →
        exec (.med dr dg db) s = .fault .gridOutOutOfRange)) ∧
    (∀ i t j, exec i s = .next t → s.dec.n ≤ j → Memory.read t.gridOut j = Memory.read s.gridOut j) ∧
    (∀ i f, exec i s = .fault f → f = .gridOutOutOfRange ∧ i.place = .opStream ∧ s.dec.n ≤ s.dec.cur) ∧
    (∀ i r, exec i s ≠ .refused r)

/-! ## The decoder's steps (43_decoder.md, 60_exceptions.md) -/

/-- A step runs the decoded instruction: when the bytes at the decoder's place in its buffer are an instruction, its turn,
and the machine's step when the turn is its own, is exec of that instruction. Rests on R161, R162; how turns are
scheduled is log 6's. -/
def Obligations.StepRunsTheDecodedInstruction : Prop :=
  ∀ (i : Instr) (s : State),
    ((s.dec.phase = .busy ∧ s.dec.stage = .hdr ∧ InstrAt .start 0 i s) ∨
     (OpNext s ∧ InstrAt .opStream s.dec.rp i s)) →
    decTurn s = exec i s ∧
    (∀ rest, s.agenda = .dec :: rest → step s = exec i { s with agenda := rest }) ∧
    (DecoderAlone s → step s = exec i s)

/-- R163: completion. -/
def Obligations.CompletionOfAFullGrid : Prop :=
  ∀ s : State, s.dec.phase = .busy → s.dec.stage = .ops → s.dec.cur = s.dec.n →
    (s.cfg.strictTrailing = true → s.dec.rp < s.dec.l → ∃ t, decTurn s = .next t ∧ DecoderRaised .gridOverrun s t) ∧
    (s.cfg.strictTrailing = false ∨ s.dec.l ≤ s.dec.rp →
      decTurn s = .next { s with dec := { s.dec with phase := .done } })

/-- R164: the buffer ends on an op boundary before the grid is full. -/
def Obligations.BufferExhaustedBeforeGridFull : Prop :=
  ∀ s : State, s.dec.phase = .busy → s.dec.stage = .ops → s.dec.cur < s.dec.n → s.dec.rp = s.dec.l →
    ∃ t, decTurn s = .next t ∧ DecoderRaised .truncatedStream s t

/-- R206: the checks of a failing step, in their order; each case lists what the cases above it exclude. -/
def Obligations.ErrorChecksInOrder : Prop :=
  ∀ s : State, s.dec.phase = .busy →
    (s.dec.stage = .hdr → s.dec.l < 4 → ∃ t, decTurn s = .next t ∧ DecoderRaised .truncatedHeader s t) ∧
    (s.dec.stage = .ops → s.dec.cur = s.dec.n → s.cfg.strictTrailing = true → s.dec.rp < s.dec.l →
      ∃ t, decTurn s = .next t ∧ DecoderRaised .gridOverrun s t) ∧
    (s.dec.stage = .ops → s.dec.cur < s.dec.n → s.dec.rp = s.dec.l →
      ∃ t, decTurn s = .next t ∧ DecoderRaised .truncatedStream s t) ∧
    (∀ b, s.dec.stage = .ops → s.dec.cur < s.dec.n → s.dec.rp < s.dec.l → Memory.read s.bytesIn s.dec.rp = some b →
      s.dec.l < s.dec.rp + opLength b → ∃ t, decTurn s = .next t ∧ DecoderRaised .truncatedOp s t) ∧
    (∀ n, s.dec.stage = .ops → s.dec.cur < s.dec.n → InstrAt .opStream s.dec.rp (.run n) s → s.dec.n < s.dec.cur + n →
      ∃ t, decTurn s = .next t ∧ DecoderRaised .gridOverrun s t) ∧
    (∀ i dr dg db, s.dec.stage = .ops → s.dec.cur < s.dec.n → (i = .small dr dg db ∨ i = .med dr dg db) →
      InstrAt .opStream s.dec.rp i s → recon s.dec.prev ⟨dr, dg, db⟩ = none →
      ∃ t, decTurn s = .next t ∧ DecoderRaised .corruptStream s t)

/-- R172: a decoder step that fails leaves the state before it, but for the code and the phase. -/
def Obligations.FailingDecoderStepWritesNothing : Prop :=
  ∀ s t : State, s.dec.phase = .busy → decTurn s = .next t → t.dec.phase = .error →
    ∃ c, c ≠ .ok ∧ DecoderRaised c s t

/-- R202: the decoder raises only codes 2 to 6, each only from the cause the table of R200 names. -/
def Obligations.DecoderErrorsHaveTheirNamedCause : Prop :=
  ∀ s t : State, s.dec.phase = .busy → decTurn s = .next t → t.dec.phase = .error →
    (t.dec.code = .truncatedHeader ∧ s.dec.stage = .hdr ∧ s.dec.l < 4) ∨
    (s.dec.stage = .ops ∧
      ((t.dec.code = .truncatedOp ∧ ∃ b, Memory.read s.bytesIn s.dec.rp = some b ∧ (opKind b = .raw ∨ opKind b = .med) ∧
          s.dec.l < s.dec.rp + opLength b) ∨
       (t.dec.code = .corruptStream ∧ ∃ i dr dg db, (i = .small dr dg db ∨ i = .med dr dg db) ∧
          InstrAt .opStream s.dec.rp i s ∧ recon s.dec.prev ⟨dr, dg, db⟩ = none) ∨
       (t.dec.code = .gridOverrun ∧ s.dec.cur = s.dec.n ∧ s.cfg.strictTrailing = true ∧ s.dec.rp < s.dec.l) ∨
       (t.dec.code = .gridOverrun ∧ ∃ n, InstrAt .opStream s.dec.rp (.run n) s ∧ s.dec.n < s.dec.cur + n) ∨
       (t.dec.code = .truncatedStream ∧ s.dec.cur ≠ s.dec.n ∧ s.dec.rp = s.dec.l)))

/-- A decoder turn writes cells from the cursor up to the cursor it leaves, all of them, and no other (R54, R173): within a
run no cell is written twice and none below the cursor is left out. -/
def Obligations.CellsWrittenOnceInOrder : Prop :=
  ∀ s t : State, s.dec.phase = .busy → s.dec.stage = .ops → decTurn s = .next t →
    s.dec.cur ≤ t.dec.cur ∧ SameCellsOutside s.dec.cur t.dec.cur s t ∧
    ∀ j, s.dec.cur ≤ j → j < t.dec.cur → ∃ p, Memory.read t.gridOut j = some p

/-- R175, the decoder's half: with its buffer placed, a decode started with L bytes has ended after the header step and at
most L - 3 op steps. -/
def Obligations.DecoderEndsWithinItsBytes : Prop :=
  ∀ (l : Nat) (s : State), DecoderAlone s → l < 2 ^ s.cfg.addrWidth → Filled s.bytesIn l →
    ∃ k t, k ≤ 1 + (l - 3) ∧ runSteps k (startDecoder l s) = .next t ∧ (t.dec.phase = .done ∨ t.dec.phase = .error)

/-! ## The encoder's steps (42_encoder.md) -/

/-- R131: a dimension above 65535 is DimensionOverflow, before any byte is written; right after a start the length is then
still 0. -/
def Obligations.DimensionCheckPrecedesOutput : Prop :=
  (∀ s : State, s.enc.phase = .busy → s.enc.stage = .hdr → (s.enc.hin.toNat > 65535 ∨ s.enc.win.toNat > 65535) →
    encTurn s = .next { s with enc := { s.enc with code := .dimensionOverflow, phase := .error } }) ∧
  (∀ (hin win : BitVec 32) (s : State), (hin.toNat > 65535 ∨ win.toNat > 65535) →
    ∃ t, encTurn (startEncoder hin win s) = .next t ∧ t.enc.phase = .error ∧ t.enc.code = .dimensionOverflow ∧
      t.enc.outlen = 0 ∧ t.bytesOut = s.bytesOut)

/-- R132: the header's emission. -/
def Obligations.HeaderEmission : Prop :=
  ∀ s : State, s.enc.phase = .busy → s.enc.stage = .hdr → s.enc.hin.toNat ≤ 65535 → s.enc.win.toNat ≤ 65535 →
    ∃ t, encTurn s = .next t ∧
      t.enc.h = s.enc.hin.extractLsb' 0 16 ∧ t.enc.w = s.enc.win.extractLsb' 0 16 ∧
      t.enc.n = s.enc.hin.toNat * s.enc.win.toNat ∧ t.enc.n < 2 ^ 32 ∧
      Appended [t.enc.h.extractLsb' 8 8, t.enc.h.extractLsb' 0 8, t.enc.w.extractLsb' 8 8, t.enc.w.extractLsb' 0 8] s t ∧
      t.enc.stage = .pix ∧ t.enc.phase = .busy ∧ t.enc.code = s.enc.code ∧ t.enc.prev = s.enc.prev ∧
      t.enc.cache = s.enc.cache ∧ t.enc.run = s.enc.run ∧ t.enc.i = s.enc.i ∧ t.enc.hin = s.enc.hin ∧
      t.enc.win = s.enc.win ∧ SameButEncoder s t

/-- R135 and R136: a pixel equal to `enc.prev` counts; at 62 the byte 0xFD is emitted and the counter cleared. -/
def Obligations.EqualPixelExtendsRun : Prop :=
  ∀ (p : Pixel) (s : State), PixelNext p s → p = s.enc.prev →
    (s.enc.run + 1 < 62 → encTurn s = .next { s with enc := { s.enc with run := s.enc.run + 1, i := s.enc.i + 1 } }) ∧
    (s.enc.run + 1 = 62 → ∃ t, encTurn s = .next t ∧ Appended [0xFD#8] s t ∧ t.enc.run = 0 ∧ t.enc.i = s.enc.i + 1 ∧
      t.enc.prev = s.enc.prev ∧ t.enc.cache = s.enc.cache ∧ SameEncoderRun s t ∧ SameButEncoder s t)

/-- R138 with R137: a cache hit. -/
def Obligations.CacheHitEmitsIndex : Prop :=
  ∀ (p : Pixel) (s : State), PixelNext p s → p ≠ s.enc.prev → cacheLookup s.enc.cache (hashPixel p) = p →
    ∃ t, encTurn s = .next t ∧ PixelEncoded p [(hashPixel p).setWidth 8] s t ∧ t.enc.cache = s.enc.cache

/-- R139 and R140 with R137: a miss whose difference fits the small band. -/
def Obligations.SmallDifferenceEmitted : Prop :=
  ∀ (p : Pixel) (s : State), PixelNext p s → p ≠ s.enc.prev → cacheLookup s.enc.cache (hashPixel p) ≠ p →
    fitsSmall (diff p s.enc.prev) = true →
    ∃ t, encTurn s = .next t ∧
      PixelEncoded p [0x40#8 ||| (BitVec.ofInt 8 ((diff p s.enc.prev).r + 2) <<< 4) |||
        (BitVec.ofInt 8 ((diff p s.enc.prev).g + 2) <<< 2) ||| BitVec.ofInt 8 ((diff p s.enc.prev).b + 2)] s t ∧
      CacheStored s.enc.cache t.enc.cache (hashPixel p) p

/-- R139 and R141 with R137: a miss whose difference fits the medium band only. -/
def Obligations.MediumDifferenceEmitted : Prop :=
  ∀ (p : Pixel) (s : State), PixelNext p s → p ≠ s.enc.prev → cacheLookup s.enc.cache (hashPixel p) ≠ p →
    fitsSmall (diff p s.enc.prev) = false → fitsMed (diff p s.enc.prev) = true →
    ∃ t, encTurn s = .next t ∧
      PixelEncoded p [0x80#8 ||| BitVec.ofInt 8 ((diff p s.enc.prev).r + 32),
        (BitVec.ofInt 8 ((diff p s.enc.prev).g + 8) <<< 4) ||| BitVec.ofInt 8 ((diff p s.enc.prev).b + 8)] s t ∧
      CacheStored s.enc.cache t.enc.cache (hashPixel p) p

/-- R139 and R142 with R137: a miss whose difference fits neither band. -/
def Obligations.RawPixelEmitted : Prop :=
  ∀ (p : Pixel) (s : State), PixelNext p s → p ≠ s.enc.prev → cacheLookup s.enc.cache (hashPixel p) ≠ p →
    fitsSmall (diff p s.enc.prev) = false → fitsMed (diff p s.enc.prev) = false →
    ∃ t, encTurn s = .next t ∧ PixelEncoded p [0xFF#8, p.r, p.g, p.b] s t ∧
      CacheStored s.enc.cache t.enc.cache (hashPixel p) p

/-- R145: the flush. -/
def Obligations.FlushEndsTheRun : Prop :=
  ∀ s : State, s.enc.phase = .busy → s.enc.stage = .pix → s.enc.i = s.enc.n → s.enc.run ≤ 61 →
    ∃ t, encTurn s = .next t ∧ Appended (endRunBytes s) s t ∧ t.enc.run = 0 ∧ t.enc.phase = .done ∧
      t.enc.code = s.enc.code ∧ t.enc.prev = s.enc.prev ∧ t.enc.cache = s.enc.cache ∧ t.enc.i = s.enc.i ∧
      t.enc.stage = s.enc.stage ∧ t.enc.hin = s.enc.hin ∧ t.enc.win = s.enc.win ∧ t.enc.h = s.enc.h ∧
      t.enc.w = s.enc.w ∧ t.enc.n = s.enc.n ∧ SameButEncoder s t

/-- R146: an empty grid is the header alone, and no pixel is read: it needs none placed. -/
def Obligations.EmptyGridIsHeaderAlone : Prop :=
  ∀ (hin win : BitVec 32) (s : State), EncoderAlone s → hin.toNat ≤ 65535 → win.toNat ≤ 65535 →
    (hin = 0 ∨ win = 0) →
    ∃ t, runSteps 2 (startEncoder hin win s) = .next t ∧ t.enc.phase = .done ∧ t.enc.code = .ok ∧ t.enc.outlen = 4 ∧
      HoldsBytes t.bytesOut 0 (encode (.hdr (hin.extractLsb' 0 16) (win.extractLsb' 0 16)))

/-- An encoder turn writes bytes from the old length up to the new one, all of them, and no other (R52). -/
def Obligations.StreamIsAppendOnly : Prop :=
  ∀ s t : State, encTurn s = .next t →
    s.enc.outlen ≤ t.enc.outlen ∧ SameBytesOutside s.enc.outlen t.enc.outlen s t ∧
    ∀ a, s.enc.outlen ≤ a → a < t.enc.outlen → ∃ b, Memory.read t.bytesOut a = some b

/-- What a pixel step emits is a list of at most two well-formed ops in canonical form (R84 (a) to (c), R136): no run above
62, no zero difference, no MED in the small band, no RAW in either band, no index of a slot that holds another pixel, and no
SMALL, MED or RAW of a pixel that CACHE names. -/
def Obligations.PixelStepEmitsCanonicalOps : Prop :=
  ∀ (p : Pixel) (s : State), PixelNext p s →
    ∃ ops t, encTurn s = .next t ∧ Appended (encodeAll ops) s t ∧ ops.length ≤ 2 ∧
      ∀ op ∈ ops, op.wf = true ∧ op.place = .opStream ∧
        match op with
        | .hdr _ _ => False
        | .run n => n ≤ 62
        | .cache k => cacheLookup s.enc.cache k = p ∧ hashPixel p = k ∧ p ≠ s.enc.prev
        | .small dr dg db => (⟨dr, dg, db⟩ : Diff) = diff p s.enc.prev ∧ ¬ (dr = 0 ∧ dg = 0 ∧ db = 0) ∧
            cacheLookup s.enc.cache (hashPixel p) ≠ p
        | .med dr dg db => (⟨dr, dg, db⟩ : Diff) = diff p s.enc.prev ∧ fitsSmall ⟨dr, dg, db⟩ = false ∧
            cacheLookup s.enc.cache (hashPixel p) ≠ p
        | .raw r g b => (⟨r, g, b⟩ : Pixel) = p ∧ fitsSmall (diff p s.enc.prev) = false ∧ fitsMed (diff p s.enc.prev) = false ∧
            cacheLookup s.enc.cache (hashPixel p) ≠ p

/-- R143: n pixels equal to `enc.prev`, taken from an empty run counter, emit exactly the bytes of RUNS n: by the flush when
the grid ends after them, and, when a different pixel follows, by its step, before that pixel's own op. -/
def Obligations.EqualPixelsEmitRuns : Prop :=
  ∀ (n : Nat) (s : State), Invariant s → EncoderAlone s → s.enc.phase = .busy → s.enc.stage = .pix →
    s.enc.run = 0 → s.enc.i + n ≤ s.enc.n →
    (∀ j, j < n → Memory.read s.gridIn
      (gridKey ((s.enc.i + j) / s.enc.w.toNat) ((s.enc.i + j) % s.enc.w.toNat)) = some s.enc.prev) →
    (s.enc.i + n = s.enc.n →
      ∃ t, runSteps (n + 1) s = .next t ∧ t.enc.phase = .done ∧ Appended (encodeAll (runsOps n)) s t) ∧
    (∀ p, p ≠ s.enc.prev → s.enc.i + n < s.enc.n →
      Memory.read s.gridIn (gridKey ((s.enc.i + n) / s.enc.w.toNat) ((s.enc.i + n) % s.enc.w.toNat)) = some p →
      ∃ op t, runSteps (n + 1) s = .next t ∧ op.wf = true ∧ op.place = .opStream ∧ (∀ m, op ≠ .run m) ∧
        Appended (encodeAll (runsOps n) ++ encode op) s t)

/-- R144: the encoder never fails on a grid whose dimensions pass the check, and its stream has between 4 + ceil(N / 62) and
4 + 4 N bytes, 4 when N = 0; it is done after the header step, N pixel steps and the flush (R175, the encoder's half). -/
def Obligations.EncoderNeverFailsAndBoundsItsStream : Prop :=
  ∀ (G : Nat → Nat → Pixel) (hin win : BitVec 32) (s : State), EncoderAlone s → hin.toNat ≤ 65535 → win.toNat ≤ 65535 →
    InputGrid G hin.toNat win.toNat s →
    ∃ t, runSteps (hin.toNat * win.toNat + 2) (startEncoder hin win s) = .next t ∧
      t.enc.phase = .done ∧ t.enc.code = .ok ∧
      (hin.toNat * win.toNat = 0 → t.enc.outlen = 4) ∧
      (0 < hin.toNat * win.toNat →
        4 + (hin.toNat * win.toNat + 61) / 62 ≤ t.enc.outlen ∧ t.enc.outlen ≤ 4 + 4 * (hin.toNat * win.toNat)) ∧
      ∀ k, k < hin.toNat * win.toNat + 2 → ∃ u, runSteps k (startEncoder hin win s) = .next u ∧ u.enc.phase = .busy

/-- R201: the encoder raises only DimensionOverflow, and only in its header step. -/
def Obligations.EncoderRaisesOnlyDimensionOverflow : Prop :=
  ∀ s t : State, s.enc.phase = .busy → encTurn s = .next t → t.enc.phase = .error →
    t.enc.code = .dimensionOverflow ∧ s.enc.stage = .hdr ∧ (s.enc.hin.toNat > 65535 ∨ s.enc.win.toNat > 65535)

/-! ## The two engines together (41_cache.md, 43_decoder.md, 60_exceptions.md) -/

/-- R207: a turn of one engine, an error in it included, leaves the other engine and its spaces alone; nor does it write an
input space. -/
def Obligations.EnginesAreIndependent : Prop :=
  ∀ s t : State, (encTurn s = .next t → SameButEncoder s t) ∧ (decTurn s = .next t → SameButDecoder s t)

/-- The engines' turns may come in any order (R20, R213): the two orders end in the same state. -/
def Obligations.EngineTurnsCommute : Prop :=
  ∀ s a b : State, encTurn s = .next a → decTurn s = .next b →
    ∃ t, decTurn a = .next t ∧ encTurn b = .next t

/-- R127, one pixel at a time: from any decoder whose cache and previous pixel are the encoder's, decoding exactly the ops
a pixel step emits leaves them equal again, the cursor behind by the pixels of the pending run. -/
def Obligations.PixelStepKeepsLockStep : Prop :=
  ∀ (p : Pixel) (s : State), PixelNext p s →
    ∃ ops t, encTurn s = .next t ∧ Appended (encodeAll ops) s t ∧ (∀ op ∈ ops, op.wf = true ∧ op.place = .opStream) ∧
      ∀ d : State, d.dec.prev = s.enc.prev → d.dec.cache = s.enc.cache →
        d.dec.cur + s.enc.run + 1 ≤ d.dec.n → d.dec.rp + (encodeAll ops).length ≤ d.dec.l →
        ∃ d', execAll ops d = .next d' ∧ d'.dec.prev = t.enc.prev ∧ d'.dec.cache = t.enc.cache ∧
          d'.dec.cur + t.enc.run = d.dec.cur + s.enc.run + 1 ∧ d'.dec.rp = d.dec.rp + (encodeAll ops).length ∧
          d'.dec.phase = d.dec.phase ∧ SameButDecoder d d'

/-- R174: for every grid whose dimensions pass the check, the encoder ends DONE, and decoding what it wrote, on a machine of
any build and any earlier contents, ends DONE with the declared dimensions, every cell of the grid, and every byte read. -/
def Obligations.RoundTrip : Prop :=
  ∀ (G : Nat → Nat → Pixel) (hin win : BitVec 32) (s : State), EncoderAlone s → hin.toNat ≤ 65535 → win.toNat ≤ 65535 →
    InputGrid G hin.toNat win.toNat s →
    ∃ k t, runSteps k (startEncoder hin win s) = .next t ∧ t.enc.phase = .done ∧
      ∀ u : State, DecoderAlone u →
        (∀ a, a < t.enc.outlen → Memory.read u.bytesIn a = Memory.read t.bytesOut a) →
        ∃ k' v, runSteps k' (startDecoder t.enc.outlen u) = .next v ∧ v.dec.phase = .done ∧ v.dec.code = .ok ∧
          v.dec.h.toNat = hin.toNat ∧ v.dec.w.toNat = win.toNat ∧ OutputGrid G v ∧ v.dec.rp = t.enc.outlen

/-! ## Rules of the whole machine -/

/-- The invariant holds right after reset. The decoder's length register is 0 there by log 1, the MODEL's choice; of the other
registers that R230 leaves unspecified the invariant asks nothing in IDLE. -/
def Obligations.InvariantHoldsAtReset : Prop := Invariant State.reset

/-- Every step keeps the invariant: the memories' canonical form, the widths and ranges of the registers, the slot
invariant of an engine that has started, the agreement of phase and code, the bounds of the stream, the written cells (R25
to R34, R52 to R54, R126, R144, R173). Of the slots after the reset input, which R24 leaves unspecified and logs 1 and 2
fill, it says nothing; of what those logs fill, only the decoder's length, 0, enters. -/
def Obligations.EveryStepKeepsTheInvariant : Prop :=
  ∀ s t : State, Invariant s → step s = .next t → Invariant t

/-- R126: after a start every slot of that engine's cache holds ZERO or a pixel that hashes to it, and every step keeps it
so while the engine is not IDLE. Right after a reset the slots are unspecified (R24), and nothing is said of them: the
values of logs 1 and 2 do not enter. -/
def Obligations.SlotsHoldPixelsThatHashToThem : Prop :=
  (∀ (hin win : BitVec 32) (s t : State), hostStep (.encStart hin win) s = .next t → SlotsHashed t.enc.cache) ∧
  (∀ (l : Nat) (s t : State), hostStep (.decStart l) s = .next t → SlotsHashed t.dec.cache) ∧
  (∀ s t : State, SlotsAfterStart s.enc.phase s.enc.cache → step s = .next t → SlotsAfterStart t.enc.phase t.enc.cache) ∧
  (∀ s t : State, SlotsAfterStart s.dec.phase s.dec.cache → step s = .next t → SlotsAfterStart t.dec.phase t.dec.cache)

/-- With the host's duties kept the machine never stops: no step reads at or beyond L (R53), outside the grid (R51), or
writes outside the declared grid (R54), and the next state is again one of the invariant. The reset input is among the
moves; the invariant asks nothing of the slots it leaves (R24), so logs 1 and 2 enter only with the decoder's length, 0. -/
def Obligations.DutifulHostNeverStopsTheMachine : Prop :=
  ∀ s : State, Invariant s → InputsPlaced s → NextAllowed s → ∃ t, step s = .next t ∧ Invariant t

/-- R39: no step writes the build's parameters, and no engine writes its inputs: grid, buffer, dimensions, length. -/
def Obligations.ParametersAndInputsAreNotWritten : Prop :=
  (∀ s t : State, step s = .next t → t.cfg = s.cfg) ∧
  (∀ s t : State, encTurn s = .next t → t.gridIn = s.gridIn ∧ t.bytesIn = s.bytesIn ∧
    t.enc.hin = s.enc.hin ∧ t.enc.win = s.enc.win ∧ t.dec.l = s.dec.l) ∧
  (∀ s t : State, decTurn s = .next t → t.gridIn = s.gridIn ∧ t.bytesIn = s.bytesIn ∧
    t.enc.hin = s.enc.hin ∧ t.enc.win = s.enc.win ∧ t.dec.l = s.dec.l)

/-- DONE and ERROR persist until the next start command of that engine, or reset: no other step changes the phase or the
code of an engine in them (R32, R203, R208). -/
def Obligations.FinishedPhasesPersist : Prop :=
  ∀ s t : State, step s = .next t →
    ((s.enc.phase = .done ∨ s.enc.phase = .error) →
      (∀ hin win rest, s.agenda ≠ .host (.encStart hin win) :: rest) → (∀ rest, s.agenda ≠ .host .reset :: rest) →
      t.enc = s.enc) ∧
    ((s.dec.phase = .done ∨ s.dec.phase = .error) →
      (∀ l rest, s.agenda ≠ .host (.decStart l) :: rest) → (∀ rest, s.agenda ≠ .host .reset :: rest) →
      t.dec = s.dec)

/-- One turn of an engine depends on that engine's registers, its input and what its own run has written, and on nothing
else: machines that look alike to it take the same turn and look alike after it. A start of the decoder makes them look
alike whatever they held, and so does a start of the encoder with its header step, which writes the dimension copies that
10_state.md rule R40 leaves unspecified until then. Rests on R208 and R231. -/
def Obligations.EngineTurnsForgetThePast : Prop :=
  (∀ s s' t : State, DecoderSeesTheSame s s' → decTurn s = .next t →
    ∃ t', decTurn s' = .next t' ∧ DecoderSeesTheSame t t') ∧
  (∀ s s' t : State, EncoderSeesTheSame s s' → encTurn s = .next t →
    ∃ t', encTurn s' = .next t' ∧ EncoderSeesTheSame t t') ∧
  (∀ (l : Nat) (s s' : State), s'.cfg = s.cfg → s'.bytesIn = s.bytesIn →
    DecoderSeesTheSame (startDecoder l s) (startDecoder l s')) ∧
  (∀ (hin win : BitVec 32) (s s' t : State), s'.gridIn = s.gridIn → hin.toNat ≤ 65535 → win.toNat ≤ 65535 →
    encTurn (startEncoder hin win s) = .next t →
    ∃ t', encTurn (startEncoder hin win s') = .next t' ∧ EncoderSeesTheSame t t')

/-- Nothing of an earlier run, and nothing unspecified after reset, survives a start of the decoder (R208, R231): two
machines of one build with the same input buffer go through the same decoder states after the same start, whatever their
engines and outputs held before, and write the same cells. -/
def Obligations.DecoderRunForgetsThePast : Prop :=
  ∀ (k l : Nat) (s s' t : State), DecoderAlone s → DecoderAlone s' → s.cfg = s'.cfg → s.bytesIn = s'.bytesIn →
    runSteps k (startDecoder l s) = .next t →
    ∃ t', runSteps k (startDecoder l s') = .next t' ∧ t'.dec = t.dec ∧
      ∀ j, j < t.dec.cur → Memory.read t'.gridOut j = Memory.read t.gridOut j

/-- The same for the encoder, whose dimension copies are unspecified until its header step (10_state.md rule R40): from
that step on, unless the dimension check failed in it, the encoder states are the same, and so are the bytes written. -/
def Obligations.EncoderRunForgetsThePast : Prop :=
  ∀ (k : Nat) (hin win : BitVec 32) (s s' t : State), EncoderAlone s → EncoderAlone s' → s.gridIn = s'.gridIn →
    hin.toNat ≤ 65535 → win.toNat ≤ 65535 → runSteps (k + 1) (startEncoder hin win s) = .next t →
    ∃ t', runSteps (k + 1) (startEncoder hin win s') = .next t' ∧ t'.enc = t.enc ∧
      ∀ a, a < t.enc.outlen → Memory.read t'.bytesOut a = Memory.read t.bytesOut a
end

