-- ==== Sys2Proof/Laws/Codec.lean ====
section
/-! SUPPORT. The fields of the encodings: what each field function gives in its range, which op a tagged byte is, and what
the decoder's field extraction reads from an assembled byte. -/

namespace Sys2Proof

theorem inRange_iff {lo hi d : Int} : inRange lo hi d = true ↔ lo ≤ d ∧ d ≤ hi := by simp [inRange]

/-! ## Fields in their range (30_encoding.md rules R78, R79) -/

theorem fSmall_toNat {d : Int} (h : -2 ≤ d ∧ d ≤ 1) : ((fSmall d).toNat : Int) = d + 2 := by
  simp only [fSmall, BitVec.toNat_ofInt]
  omega

theorem fMedR_toNat {d : Int} (h : -32 ≤ d ∧ d ≤ 31) : ((fMedR d).toNat : Int) = d + 32 := by
  simp only [fMedR, BitVec.toNat_ofInt]
  omega

theorem fMedGB_toNat {d : Int} (h : -8 ≤ d ∧ d ≤ 7) : ((fMedGB d).toNat : Int) = d + 8 := by
  simp only [fMedGB, BitVec.toNat_ofInt]
  omega

theorem fRun_toNat {n : Nat} (h : 1 ≤ n ∧ n ≤ 64) : (fRun n).toNat = n - 1 := by
  simp only [fRun, BitVec.toNat_ofNat]
  omega

theorem fRun_ne_escape {n : Nat} (h : 1 ≤ n ∧ n ≤ 63) : fRun n ≠ 63#6 := by
  intro e
  have h1 := congrArg BitVec.toNat e
  rw [fRun_toNat (by omega)] at h1
  simp at h1
  omega

/-! ## Tagged bytes (R73 to R76, R80) -/

theorem opKind_cache : ∀ x : BitVec 6, opKind (0b00#2 ++ x) = .cache := by decide
theorem opKind_small : ∀ x y z : BitVec 2, opKind (0b01#2 ++ x ++ y ++ z) = .small := by decide
theorem opKind_med : ∀ x : BitVec 6, opKind (0b10#2 ++ x) = .med := by decide
theorem opKind_run : ∀ x : BitVec 6, x ≠ 63#6 → opKind (0b11#2 ++ x) = .run := by decide

theorem low6_append : ∀ (t : BitVec 2) (x : BitVec 6), (t ++ x).extractLsb' 0 6 = x := by decide
theorem small_fields : ∀ x y z : BitVec 2, (0b01#2 ++ x ++ y ++ z).extractLsb' 4 2 = x ∧
    (0b01#2 ++ x ++ y ++ z).extractLsb' 2 2 = y ∧ (0b01#2 ++ x ++ y ++ z).extractLsb' 0 2 = z := by decide
theorem nibble_fields : ∀ x y : BitVec 4, (x ++ y).extractLsb' 4 4 = x ∧ (x ++ y).extractLsb' 0 4 = y := by decide

/-- The formula of 42_encoder.md rule R140 is the assembled SMALL byte. -/
theorem small_byte_formula : ∀ x y z : BitVec 2,
    (0b01#2 ++ x ++ y ++ z : Byte) =
      0x40#8 ||| (x.setWidth 8 <<< 4) ||| (y.setWidth 8 <<< 2) ||| z.setWidth 8 := by decide

/-- The formula of R141 is MED's first byte. -/
theorem med_first_formula : ∀ x : BitVec 6, (0b10#2 ++ x : Byte) = 0x80#8 ||| x.setWidth 8 := by decide

/-- The formula of R141 is MED's second byte. -/
theorem med_second_formula : ∀ x y : BitVec 4, (x ++ y : Byte) = (x.setWidth 8 <<< 4) ||| y.setWidth 8 := by decide

/-- The formula of R136 and R137 is the RUN byte. -/
theorem run_byte_formula : ∀ x : BitVec 6, (0b11#2 ++ x : Byte) = 0xC0#8 ||| x.setWidth 8 := by decide

/-! ## The header (R70) -/

theorem bigEndian_split (v : BitVec 16) : bigEndian (v.extractLsb' 8 8) (v.extractLsb' 0 8) = v := by
  apply BitVec.eq_of_toNat_eq
  have h := v.isLt
  simp only [bigEndian, BitVec.toNat_append, BitVec.extractLsb'_toNat, Nat.shiftRight_zero]
  rw [← Nat.shiftLeft_add_eq_or_of_lt (by omega)]
  simp only [Nat.shiftLeft_eq, Nat.shiftRight_eq_div_pow]
  omega

end Sys2Proof
end

