-- ==== Sys2Proof/Laws/Memory.lean ====
section
/-! SUPPORT. The laws of the address spaces and of the pixel cache: a read after a write, the canonical form kept by every
write, equal memories as equal data, slots that are stored and slots that are not. -/

namespace Sys2Proof.Machine

variable {α : Type}

@[simp] theorem read_nil (a : Nat) : Memory.read ([] : Memory α) a = none := rfl

theorem read_write (m : Memory α) (a b : Nat) (v : α) :
    Memory.read (Memory.write m a v) b = if a = b then some v else Memory.read m b := by
  induction m with
  | nil => simp [Memory.write, Memory.read, Memory.unlisted]
  | cons e m ih =>
    obtain ⟨k, w⟩ := e
    simp only [Memory.write]
    split_ifs with h1 h2 h3 h3 <;> simp_all [Memory.read]
    intro h4
    exact absurd h4.symm h3

@[simp] theorem read_write_same (m : Memory α) (a : Nat) (v : α) : Memory.read (Memory.write m a v) a = some v := by
  simp [read_write]

theorem read_write_other (m : Memory α) {a b : Nat} (v : α) (h : a ≠ b) :
    Memory.read (Memory.write m a v) b = Memory.read m b := by
  simp [read_write, h]

/-- The first index of a canonical memory is below every other. -/
def AllAbove (a : Nat) (m : Memory α) : Prop := ∀ e ∈ m, a < e.1

theorem allAbove_cons {a : Nat} {e : Nat × α} {m : Memory α} : AllAbove a (e :: m) ↔ a < e.1 ∧ AllAbove a m := by
  simp only [AllAbove, List.mem_cons, forall_eq_or_imp]

theorem wf_cons {a : Nat} {v : α} {m : Memory α} :
    Memory.wf ((a, v) :: m) = true ↔ AllAbove a m ∧ Memory.wf m = true := by
  induction m generalizing a v with
  | nil => simp [Memory.wf, AllAbove]
  | cons e m ih =>
    obtain ⟨b, w⟩ := e
    simp only [Memory.wf, Bool.and_eq_true, decide_eq_true_eq]
    rw [ih, allAbove_cons]
    constructor
    · rintro ⟨h1, h2, h3⟩
      exact ⟨⟨h1, fun e he => lt_trans h1 (h2 e he)⟩, h2, h3⟩
    · rintro ⟨⟨h1, _⟩, h2, h3⟩
      exact ⟨h1, h2, h3⟩

theorem allAbove_write {a b : Nat} {v : α} {m : Memory α} (h : AllAbove a m) (hb : a < b) :
    AllAbove a (Memory.write m b v) := by
  induction m with
  | nil => exact allAbove_cons.2 ⟨hb, h⟩
  | cons e m ih =>
    obtain ⟨k, w⟩ := e
    have hm := allAbove_cons.1 h
    simp only [Memory.write]
    split_ifs
    · exact allAbove_cons.2 ⟨hb, h⟩
    · exact allAbove_cons.2 ⟨hb, hm.2⟩
    · exact allAbove_cons.2 ⟨hm.1, ih hm.2⟩

/-- Every write keeps the canonical form. -/
theorem wf_write {m : Memory α} (a : Nat) (v : α) (h : Memory.wf m = true) : Memory.wf (Memory.write m a v) = true := by
  induction m with
  | nil => rfl
  | cons e m ih =>
    obtain ⟨k, w⟩ := e
    obtain ⟨h1, h2⟩ := wf_cons.1 h
    simp only [Memory.write]
    split_ifs with hlt heq
    · exact wf_cons.2 ⟨allAbove_cons.2 ⟨hlt, fun e he => lt_trans hlt (h1 e he)⟩, h⟩
    · subst heq
      exact wf_cons.2 ⟨h1, h2⟩
    · exact wf_cons.2 ⟨allAbove_write h1 (by omega), ih h2⟩

theorem read_of_allAbove {a : Nat} {m : Memory α} (h : AllAbove a m) : Memory.read m a = none := by
  induction m with
  | nil => rfl
  | cons e m ih =>
    obtain ⟨k, w⟩ := e
    obtain ⟨h1, h2⟩ := allAbove_cons.1 h
    have : k ≠ a := (ne_of_lt h1).symm
    simp [Memory.read, this, ih h2]

theorem read_head (k : Nat) (v : α) (m : Memory α) : Memory.read ((k, v) :: m) k = some v := by simp [Memory.read]

/-- Canonical memories that read alike are the same list. -/
theorem wf_ext {m n : Memory α} (hm : Memory.wf m = true) (hn : Memory.wf n = true)
    (h : ∀ a, Memory.read m a = Memory.read n a) : m = n := by
  induction m generalizing n with
  | nil =>
    cases n with
    | nil => rfl
    | cons e n =>
      have := h e.1
      simp [Memory.read, Memory.unlisted] at this
  | cons e m ih =>
    obtain ⟨k, v⟩ := e
    obtain ⟨hk, hm'⟩ := wf_cons.1 hm
    cases n with
    | nil =>
      have := h k
      simp [Memory.read, Memory.unlisted] at this
    | cons e' n =>
      obtain ⟨k', v'⟩ := e'
      obtain ⟨hk', hn'⟩ := wf_cons.1 hn
      have hkk : k = k' := by
        rcases Nat.lt_trichotomy k k' with hlt | heq | hlt
        · have : AllAbove k ((k', v') :: n) := allAbove_cons.2 ⟨hlt, fun e he => lt_trans hlt (hk' e he)⟩
          have h1 := h k
          rw [read_of_allAbove this, read_head] at h1
          cases h1
        · exact heq
        · have : AllAbove k' ((k, v) :: m) := allAbove_cons.2 ⟨hlt, fun e he => lt_trans hlt (hk e he)⟩
          have h1 := h k'
          rw [read_of_allAbove this, read_head] at h1
          cases h1
      subst hkk
      have hv : v = v' := by simpa [Memory.read] using h k
      subst hv
      refine congrArg _ (ih hm' hn' fun a => ?_)
      by_cases ha : k = a
      · subst ha
        rw [read_of_allAbove hk, read_of_allAbove hk']
      · simpa [Memory.read, ha] using h a

/-! ## The cache (41_cache.md) -/

@[simp] theorem cacheLookup_store_same (c : Cache) (k : BitVec 6) (p : Pixel) : cacheLookup (cacheStore c k p) k = p := by
  simp [cacheLookup, cacheStore, Vector.get_eq_getElem]

theorem cacheLookup_store_other (c : Cache) {k j : BitVec 6} (p : Pixel) (h : j ≠ k) :
    cacheLookup (cacheStore c k p) j = cacheLookup c j := by
  have : k.toNat ≠ j.toNat := fun e => h (BitVec.eq_of_toNat_eq e.symm)
  simp [cacheLookup, cacheStore, Vector.get_eq_getElem, Vector.getElem_set_ne, this]

@[simp] theorem cacheLookup_cleared (k : BitVec 6) : cacheLookup cacheCleared k = Pixel.zero := by
  simp [cacheLookup, cacheCleared, Vector.get_eq_getElem]

/-- Caches that look up alike are the same. -/
theorem cache_ext {c d : Cache} (h : ∀ k, cacheLookup c k = cacheLookup d k) : c = d := by
  apply Vector.ext
  intro i hi
  have := h (BitVec.ofNat 6 i)
  have e : (BitVec.ofNat 6 i).toNat = i := by simp [Nat.mod_eq_of_lt hi]
  simpa [cacheLookup, Vector.get_eq_getElem, e] using this

end Sys2Proof.Machine
end

