-- ==== Sys2Proof/Laws/State.lean ====
section
/-! SUPPORT. What each named update of State does to each field. -/

namespace Sys2Proof.Machine

@[simp] theorem emit_cfg (v : Byte) (s : State) : (emit v s).cfg = s.cfg := rfl
@[simp] theorem emit_enc (v : Byte) (s : State) : (emit v s).enc = { s.enc with outlen := s.enc.outlen + 1 } := rfl
@[simp] theorem emit_dec (v : Byte) (s : State) : (emit v s).dec = s.dec := rfl
@[simp] theorem emit_gridIn (v : Byte) (s : State) : (emit v s).gridIn = s.gridIn := rfl
@[simp] theorem emit_bytesIn (v : Byte) (s : State) : (emit v s).bytesIn = s.bytesIn := rfl
@[simp] theorem emit_bytesOut (v : Byte) (s : State) : (emit v s).bytesOut = Memory.write s.bytesOut s.enc.outlen v := rfl
@[simp] theorem emit_gridOut (v : Byte) (s : State) : (emit v s).gridOut = s.gridOut := rfl
@[simp] theorem emit_agenda (v : Byte) (s : State) : (emit v s).agenda = s.agenda := rfl
@[simp] theorem emit_hostData (v : Byte) (s : State) : (emit v s).hostData = s.hostData := rfl
@[simp] theorem emit_fresh (v : Byte) (s : State) : (emit v s).fresh = s.fresh := rfl

@[simp] theorem raiseEnc_cfg (c : Code) (s : State) : (raiseError .enc c s).cfg = s.cfg := rfl
@[simp] theorem raiseEnc_enc (c : Code) (s : State) : (raiseError .enc c s).enc = { s.enc with code := c, phase := .error } := rfl
@[simp] theorem raiseEnc_dec (c : Code) (s : State) : (raiseError .enc c s).dec = s.dec := rfl
@[simp] theorem raiseEnc_gridIn (c : Code) (s : State) : (raiseError .enc c s).gridIn = s.gridIn := rfl
@[simp] theorem raiseEnc_bytesIn (c : Code) (s : State) : (raiseError .enc c s).bytesIn = s.bytesIn := rfl
@[simp] theorem raiseEnc_bytesOut (c : Code) (s : State) : (raiseError .enc c s).bytesOut = s.bytesOut := rfl
@[simp] theorem raiseEnc_gridOut (c : Code) (s : State) : (raiseError .enc c s).gridOut = s.gridOut := rfl
@[simp] theorem raiseEnc_agenda (c : Code) (s : State) : (raiseError .enc c s).agenda = s.agenda := rfl
@[simp] theorem raiseEnc_hostData (c : Code) (s : State) : (raiseError .enc c s).hostData = s.hostData := rfl
@[simp] theorem raiseEnc_fresh (c : Code) (s : State) : (raiseError .enc c s).fresh = s.fresh := rfl

@[simp] theorem raiseDec_cfg (c : Code) (s : State) : (raiseError .dec c s).cfg = s.cfg := rfl
@[simp] theorem raiseDec_enc (c : Code) (s : State) : (raiseError .dec c s).enc = s.enc := rfl
@[simp] theorem raiseDec_dec (c : Code) (s : State) : (raiseError .dec c s).dec = { s.dec with code := c, phase := .error } := rfl
@[simp] theorem raiseDec_gridIn (c : Code) (s : State) : (raiseError .dec c s).gridIn = s.gridIn := rfl
@[simp] theorem raiseDec_bytesIn (c : Code) (s : State) : (raiseError .dec c s).bytesIn = s.bytesIn := rfl
@[simp] theorem raiseDec_bytesOut (c : Code) (s : State) : (raiseError .dec c s).bytesOut = s.bytesOut := rfl
@[simp] theorem raiseDec_gridOut (c : Code) (s : State) : (raiseError .dec c s).gridOut = s.gridOut := rfl
@[simp] theorem raiseDec_agenda (c : Code) (s : State) : (raiseError .dec c s).agenda = s.agenda := rfl
@[simp] theorem raiseDec_hostData (c : Code) (s : State) : (raiseError .dec c s).hostData = s.hostData := rfl
@[simp] theorem raiseDec_fresh (c : Code) (s : State) : (raiseError .dec c s).fresh = s.fresh := rfl

@[simp] theorem startEncoder_cfg (hin win : BitVec 32) (s : State) : (startEncoder hin win s).cfg = s.cfg := rfl
@[simp] theorem startEncoder_enc (hin win : BitVec 32) (s : State) : (startEncoder hin win s).enc = { s.enc with hin := hin, win := win, prev := Pixel.zero, cache := cacheCleared, run := 0, i := 0, outlen := 0, code := .ok, phase := .busy, stage := .hdr } := rfl
@[simp] theorem startEncoder_dec (hin win : BitVec 32) (s : State) : (startEncoder hin win s).dec = s.dec := rfl
@[simp] theorem startEncoder_gridIn (hin win : BitVec 32) (s : State) : (startEncoder hin win s).gridIn = s.gridIn := rfl
@[simp] theorem startEncoder_bytesIn (hin win : BitVec 32) (s : State) : (startEncoder hin win s).bytesIn = s.bytesIn := rfl
@[simp] theorem startEncoder_bytesOut (hin win : BitVec 32) (s : State) : (startEncoder hin win s).bytesOut = s.bytesOut := rfl
@[simp] theorem startEncoder_gridOut (hin win : BitVec 32) (s : State) : (startEncoder hin win s).gridOut = s.gridOut := rfl
@[simp] theorem startEncoder_agenda (hin win : BitVec 32) (s : State) : (startEncoder hin win s).agenda = s.agenda := rfl
@[simp] theorem startEncoder_hostData (hin win : BitVec 32) (s : State) : (startEncoder hin win s).hostData = s.hostData := rfl
@[simp] theorem startEncoder_fresh (hin win : BitVec 32) (s : State) : (startEncoder hin win s).fresh = s.fresh := rfl

@[simp] theorem startDecoder_cfg (l : Nat) (s : State) : (startDecoder l s).cfg = s.cfg := rfl
@[simp] theorem startDecoder_enc (l : Nat) (s : State) : (startDecoder l s).enc = s.enc := rfl
@[simp] theorem startDecoder_dec (l : Nat) (s : State) : (startDecoder l s).dec = { s.dec with l := l, prev := Pixel.zero, cache := cacheCleared, rp := 0, cur := 0, h := 0, w := 0, n := 0, code := .ok, phase := .busy, stage := .hdr } := rfl
@[simp] theorem startDecoder_gridIn (l : Nat) (s : State) : (startDecoder l s).gridIn = s.gridIn := rfl
@[simp] theorem startDecoder_bytesIn (l : Nat) (s : State) : (startDecoder l s).bytesIn = s.bytesIn := rfl
@[simp] theorem startDecoder_bytesOut (l : Nat) (s : State) : (startDecoder l s).bytesOut = s.bytesOut := rfl
@[simp] theorem startDecoder_gridOut (l : Nat) (s : State) : (startDecoder l s).gridOut = s.gridOut := rfl
@[simp] theorem startDecoder_agenda (l : Nat) (s : State) : (startDecoder l s).agenda = s.agenda := rfl
@[simp] theorem startDecoder_hostData (l : Nat) (s : State) : (startDecoder l s).hostData = s.hostData := rfl
@[simp] theorem startDecoder_fresh (l : Nat) (s : State) : (startDecoder l s).fresh = s.fresh := rfl

@[simp] theorem hardwareReset_cfg (s : State) : (hardwareReset s).cfg = s.cfg := rfl
@[simp] theorem hardwareReset_enc (s : State) : (hardwareReset s).enc = Enc.reset := rfl
@[simp] theorem hardwareReset_dec (s : State) : (hardwareReset s).dec = Dec.reset := rfl
@[simp] theorem hardwareReset_gridIn (s : State) : (hardwareReset s).gridIn = s.gridIn := rfl
@[simp] theorem hardwareReset_bytesIn (s : State) : (hardwareReset s).bytesIn = s.bytesIn := rfl
@[simp] theorem hardwareReset_bytesOut (s : State) : (hardwareReset s).bytesOut = s.bytesOut := rfl
@[simp] theorem hardwareReset_gridOut (s : State) : (hardwareReset s).gridOut = s.gridOut := rfl
@[simp] theorem hardwareReset_agenda (s : State) : (hardwareReset s).agenda = s.agenda := rfl
@[simp] theorem hardwareReset_hostData (s : State) : (hardwareReset s).hostData = s.hostData := rfl
@[simp] theorem hardwareReset_fresh (s : State) : (hardwareReset s).fresh = s.fresh := rfl

@[simp] theorem deliver_cfg (v : HostData) (s : State) : (deliver v s).cfg = s.cfg := rfl
@[simp] theorem deliver_enc (v : HostData) (s : State) : (deliver v s).enc = s.enc := rfl
@[simp] theorem deliver_dec (v : HostData) (s : State) : (deliver v s).dec = s.dec := rfl
@[simp] theorem deliver_gridIn (v : HostData) (s : State) : (deliver v s).gridIn = s.gridIn := rfl
@[simp] theorem deliver_bytesIn (v : HostData) (s : State) : (deliver v s).bytesIn = s.bytesIn := rfl
@[simp] theorem deliver_bytesOut (v : HostData) (s : State) : (deliver v s).bytesOut = s.bytesOut := rfl
@[simp] theorem deliver_gridOut (v : HostData) (s : State) : (deliver v s).gridOut = s.gridOut := rfl
@[simp] theorem deliver_agenda (v : HostData) (s : State) : (deliver v s).agenda = s.agenda := rfl
@[simp] theorem deliver_hostData (v : HostData) (s : State) : (deliver v s).hostData = v := rfl
@[simp] theorem deliver_fresh (v : HostData) (s : State) : (deliver v s).fresh = s.fresh := rfl

@[simp] theorem deliverFree_cfg (v : Nat → HostData) (s : State) : (deliverFree v s).cfg = s.cfg := rfl
@[simp] theorem deliverFree_enc (v : Nat → HostData) (s : State) : (deliverFree v s).enc = s.enc := rfl
@[simp] theorem deliverFree_dec (v : Nat → HostData) (s : State) : (deliverFree v s).dec = s.dec := rfl
@[simp] theorem deliverFree_gridIn (v : Nat → HostData) (s : State) : (deliverFree v s).gridIn = s.gridIn := rfl
@[simp] theorem deliverFree_bytesIn (v : Nat → HostData) (s : State) : (deliverFree v s).bytesIn = s.bytesIn := rfl
@[simp] theorem deliverFree_bytesOut (v : Nat → HostData) (s : State) : (deliverFree v s).bytesOut = s.bytesOut := rfl
@[simp] theorem deliverFree_gridOut (v : Nat → HostData) (s : State) : (deliverFree v s).gridOut = s.gridOut := rfl
@[simp] theorem deliverFree_agenda (v : Nat → HostData) (s : State) : (deliverFree v s).agenda = s.agenda := rfl
@[simp] theorem deliverFree_hostData (v : Nat → HostData) (s : State) : (deliverFree v s).hostData = v s.fresh := rfl
@[simp] theorem deliverFree_fresh (v : Nat → HostData) (s : State) : (deliverFree v s).fresh = s.fresh + 1 := rfl

@[simp] theorem setRun_cfg (n : Nat) (s : State) : (setRun n s).cfg = s.cfg := rfl
@[simp] theorem setRun_enc (n : Nat) (s : State) : (setRun n s).enc = { s.enc with run := n } := rfl
@[simp] theorem setRun_dec (n : Nat) (s : State) : (setRun n s).dec = s.dec := rfl
@[simp] theorem setRun_gridIn (n : Nat) (s : State) : (setRun n s).gridIn = s.gridIn := rfl
@[simp] theorem setRun_bytesIn (n : Nat) (s : State) : (setRun n s).bytesIn = s.bytesIn := rfl
@[simp] theorem setRun_bytesOut (n : Nat) (s : State) : (setRun n s).bytesOut = s.bytesOut := rfl
@[simp] theorem setRun_gridOut (n : Nat) (s : State) : (setRun n s).gridOut = s.gridOut := rfl
@[simp] theorem setRun_agenda (n : Nat) (s : State) : (setRun n s).agenda = s.agenda := rfl
@[simp] theorem setRun_hostData (n : Nat) (s : State) : (setRun n s).hostData = s.hostData := rfl
@[simp] theorem setRun_fresh (n : Nat) (s : State) : (setRun n s).fresh = s.fresh := rfl

@[simp] theorem setPrev_cfg (p : Pixel) (s : State) : (setPrev p s).cfg = s.cfg := rfl
@[simp] theorem setPrev_enc (p : Pixel) (s : State) : (setPrev p s).enc = { s.enc with prev := p } := rfl
@[simp] theorem setPrev_dec (p : Pixel) (s : State) : (setPrev p s).dec = s.dec := rfl
@[simp] theorem setPrev_gridIn (p : Pixel) (s : State) : (setPrev p s).gridIn = s.gridIn := rfl
@[simp] theorem setPrev_bytesIn (p : Pixel) (s : State) : (setPrev p s).bytesIn = s.bytesIn := rfl
@[simp] theorem setPrev_bytesOut (p : Pixel) (s : State) : (setPrev p s).bytesOut = s.bytesOut := rfl
@[simp] theorem setPrev_gridOut (p : Pixel) (s : State) : (setPrev p s).gridOut = s.gridOut := rfl
@[simp] theorem setPrev_agenda (p : Pixel) (s : State) : (setPrev p s).agenda = s.agenda := rfl
@[simp] theorem setPrev_hostData (p : Pixel) (s : State) : (setPrev p s).hostData = s.hostData := rfl
@[simp] theorem setPrev_fresh (p : Pixel) (s : State) : (setPrev p s).fresh = s.fresh := rfl

@[simp] theorem storePixel_cfg (p : Pixel) (s : State) : (storePixel p s).cfg = s.cfg := rfl
@[simp] theorem storePixel_enc (p : Pixel) (s : State) : (storePixel p s).enc = { s.enc with cache := cacheStore s.enc.cache (hashPixel p) p } := rfl
@[simp] theorem storePixel_dec (p : Pixel) (s : State) : (storePixel p s).dec = s.dec := rfl
@[simp] theorem storePixel_gridIn (p : Pixel) (s : State) : (storePixel p s).gridIn = s.gridIn := rfl
@[simp] theorem storePixel_bytesIn (p : Pixel) (s : State) : (storePixel p s).bytesIn = s.bytesIn := rfl
@[simp] theorem storePixel_bytesOut (p : Pixel) (s : State) : (storePixel p s).bytesOut = s.bytesOut := rfl
@[simp] theorem storePixel_gridOut (p : Pixel) (s : State) : (storePixel p s).gridOut = s.gridOut := rfl
@[simp] theorem storePixel_agenda (p : Pixel) (s : State) : (storePixel p s).agenda = s.agenda := rfl
@[simp] theorem storePixel_hostData (p : Pixel) (s : State) : (storePixel p s).hostData = s.hostData := rfl
@[simp] theorem storePixel_fresh (p : Pixel) (s : State) : (storePixel p s).fresh = s.fresh := rfl

@[simp] theorem nextPixel_cfg (s : State) : (nextPixel s).cfg = s.cfg := rfl
@[simp] theorem nextPixel_enc (s : State) : (nextPixel s).enc = { s.enc with i := s.enc.i + 1 } := rfl
@[simp] theorem nextPixel_dec (s : State) : (nextPixel s).dec = s.dec := rfl
@[simp] theorem nextPixel_gridIn (s : State) : (nextPixel s).gridIn = s.gridIn := rfl
@[simp] theorem nextPixel_bytesIn (s : State) : (nextPixel s).bytesIn = s.bytesIn := rfl
@[simp] theorem nextPixel_bytesOut (s : State) : (nextPixel s).bytesOut = s.bytesOut := rfl
@[simp] theorem nextPixel_gridOut (s : State) : (nextPixel s).gridOut = s.gridOut := rfl
@[simp] theorem nextPixel_agenda (s : State) : (nextPixel s).agenda = s.agenda := rfl
@[simp] theorem nextPixel_hostData (s : State) : (nextPixel s).hostData = s.hostData := rfl
@[simp] theorem nextPixel_fresh (s : State) : (nextPixel s).fresh = s.fresh := rfl

@[simp] theorem setDims_cfg (h w : BitVec 16) (s : State) : (setDims h w s).cfg = s.cfg := rfl
@[simp] theorem setDims_enc (h w : BitVec 16) (s : State) : (setDims h w s).enc = { s.enc with h := h, w := w, n := pixelCount h w } := rfl
@[simp] theorem setDims_dec (h w : BitVec 16) (s : State) : (setDims h w s).dec = s.dec := rfl
@[simp] theorem setDims_gridIn (h w : BitVec 16) (s : State) : (setDims h w s).gridIn = s.gridIn := rfl
@[simp] theorem setDims_bytesIn (h w : BitVec 16) (s : State) : (setDims h w s).bytesIn = s.bytesIn := rfl
@[simp] theorem setDims_bytesOut (h w : BitVec 16) (s : State) : (setDims h w s).bytesOut = s.bytesOut := rfl
@[simp] theorem setDims_gridOut (h w : BitVec 16) (s : State) : (setDims h w s).gridOut = s.gridOut := rfl
@[simp] theorem setDims_agenda (h w : BitVec 16) (s : State) : (setDims h w s).agenda = s.agenda := rfl
@[simp] theorem setDims_hostData (h w : BitVec 16) (s : State) : (setDims h w s).hostData = s.hostData := rfl
@[simp] theorem setDims_fresh (h w : BitVec 16) (s : State) : (setDims h w s).fresh = s.fresh := rfl

@[simp] theorem enterPixels_cfg (s : State) : (enterPixels s).cfg = s.cfg := rfl
@[simp] theorem enterPixels_enc (s : State) : (enterPixels s).enc = { s.enc with stage := .pix } := rfl
@[simp] theorem enterPixels_dec (s : State) : (enterPixels s).dec = s.dec := rfl
@[simp] theorem enterPixels_gridIn (s : State) : (enterPixels s).gridIn = s.gridIn := rfl
@[simp] theorem enterPixels_bytesIn (s : State) : (enterPixels s).bytesIn = s.bytesIn := rfl
@[simp] theorem enterPixels_bytesOut (s : State) : (enterPixels s).bytesOut = s.bytesOut := rfl
@[simp] theorem enterPixels_gridOut (s : State) : (enterPixels s).gridOut = s.gridOut := rfl
@[simp] theorem enterPixels_agenda (s : State) : (enterPixels s).agenda = s.agenda := rfl
@[simp] theorem enterPixels_hostData (s : State) : (enterPixels s).hostData = s.hostData := rfl
@[simp] theorem enterPixels_fresh (s : State) : (enterPixels s).fresh = s.fresh := rfl

@[simp] theorem finishEncoder_cfg (s : State) : (finishEncoder s).cfg = s.cfg := rfl
@[simp] theorem finishEncoder_enc (s : State) : (finishEncoder s).enc = { s.enc with phase := .done } := rfl
@[simp] theorem finishEncoder_dec (s : State) : (finishEncoder s).dec = s.dec := rfl
@[simp] theorem finishEncoder_gridIn (s : State) : (finishEncoder s).gridIn = s.gridIn := rfl
@[simp] theorem finishEncoder_bytesIn (s : State) : (finishEncoder s).bytesIn = s.bytesIn := rfl
@[simp] theorem finishEncoder_bytesOut (s : State) : (finishEncoder s).bytesOut = s.bytesOut := rfl
@[simp] theorem finishEncoder_gridOut (s : State) : (finishEncoder s).gridOut = s.gridOut := rfl
@[simp] theorem finishEncoder_agenda (s : State) : (finishEncoder s).agenda = s.agenda := rfl
@[simp] theorem finishEncoder_hostData (s : State) : (finishEncoder s).hostData = s.hostData := rfl
@[simp] theorem finishEncoder_fresh (s : State) : (finishEncoder s).fresh = s.fresh := rfl

@[simp] theorem finishPixel_cfg (p : Pixel) (len : Nat) (b : Bool) (s : State) : (finishPixel p len b s).cfg = s.cfg := rfl
@[simp] theorem finishPixel_enc (p : Pixel) (len : Nat) (b : Bool) (s : State) : (finishPixel p len b s).enc = s.enc := rfl
@[simp] theorem finishPixel_dec (p : Pixel) (len : Nat) (b : Bool) (s : State) : (finishPixel p len b s).dec = { s.dec with cache := if b then cacheStore s.dec.cache (hashPixel p) p else s.dec.cache, prev := p, cur := s.dec.cur + 1, rp := s.dec.rp + len } := rfl
@[simp] theorem finishPixel_gridIn (p : Pixel) (len : Nat) (b : Bool) (s : State) : (finishPixel p len b s).gridIn = s.gridIn := rfl
@[simp] theorem finishPixel_bytesIn (p : Pixel) (len : Nat) (b : Bool) (s : State) : (finishPixel p len b s).bytesIn = s.bytesIn := rfl
@[simp] theorem finishPixel_bytesOut (p : Pixel) (len : Nat) (b : Bool) (s : State) : (finishPixel p len b s).bytesOut = s.bytesOut := rfl
@[simp] theorem finishPixel_gridOut (p : Pixel) (len : Nat) (b : Bool) (s : State) : (finishPixel p len b s).gridOut = s.gridOut := rfl
@[simp] theorem finishPixel_agenda (p : Pixel) (len : Nat) (b : Bool) (s : State) : (finishPixel p len b s).agenda = s.agenda := rfl
@[simp] theorem finishPixel_hostData (p : Pixel) (len : Nat) (b : Bool) (s : State) : (finishPixel p len b s).hostData = s.hostData := rfl
@[simp] theorem finishPixel_fresh (p : Pixel) (len : Nat) (b : Bool) (s : State) : (finishPixel p len b s).fresh = s.fresh := rfl

@[simp] theorem finishRun_cfg (n : Nat) (s : State) : (finishRun n s).cfg = s.cfg := rfl
@[simp] theorem finishRun_enc (n : Nat) (s : State) : (finishRun n s).enc = s.enc := rfl
@[simp] theorem finishRun_dec (n : Nat) (s : State) : (finishRun n s).dec = { s.dec with cur := s.dec.cur + n, rp := s.dec.rp + 1 } := rfl
@[simp] theorem finishRun_gridIn (n : Nat) (s : State) : (finishRun n s).gridIn = s.gridIn := rfl
@[simp] theorem finishRun_bytesIn (n : Nat) (s : State) : (finishRun n s).bytesIn = s.bytesIn := rfl
@[simp] theorem finishRun_bytesOut (n : Nat) (s : State) : (finishRun n s).bytesOut = s.bytesOut := rfl
@[simp] theorem finishRun_gridOut (n : Nat) (s : State) : (finishRun n s).gridOut = s.gridOut := rfl
@[simp] theorem finishRun_agenda (n : Nat) (s : State) : (finishRun n s).agenda = s.agenda := rfl
@[simp] theorem finishRun_hostData (n : Nat) (s : State) : (finishRun n s).hostData = s.hostData := rfl
@[simp] theorem finishRun_fresh (n : Nat) (s : State) : (finishRun n s).fresh = s.fresh := rfl

@[simp] theorem finishHeader_cfg (h w : BitVec 16) (s : State) : (finishHeader h w s).cfg = s.cfg := rfl
@[simp] theorem finishHeader_enc (h w : BitVec 16) (s : State) : (finishHeader h w s).enc = s.enc := rfl
@[simp] theorem finishHeader_dec (h w : BitVec 16) (s : State) : (finishHeader h w s).dec = { s.dec with h := h, w := w, n := pixelCount h w, rp := 4, stage := .ops } := rfl
@[simp] theorem finishHeader_gridIn (h w : BitVec 16) (s : State) : (finishHeader h w s).gridIn = s.gridIn := rfl
@[simp] theorem finishHeader_bytesIn (h w : BitVec 16) (s : State) : (finishHeader h w s).bytesIn = s.bytesIn := rfl
@[simp] theorem finishHeader_bytesOut (h w : BitVec 16) (s : State) : (finishHeader h w s).bytesOut = s.bytesOut := rfl
@[simp] theorem finishHeader_gridOut (h w : BitVec 16) (s : State) : (finishHeader h w s).gridOut = s.gridOut := rfl
@[simp] theorem finishHeader_agenda (h w : BitVec 16) (s : State) : (finishHeader h w s).agenda = s.agenda := rfl
@[simp] theorem finishHeader_hostData (h w : BitVec 16) (s : State) : (finishHeader h w s).hostData = s.hostData := rfl
@[simp] theorem finishHeader_fresh (h w : BitVec 16) (s : State) : (finishHeader h w s).fresh = s.fresh := rfl

@[simp] theorem finishDecoder_cfg (s : State) : (finishDecoder s).cfg = s.cfg := rfl
@[simp] theorem finishDecoder_enc (s : State) : (finishDecoder s).enc = s.enc := rfl
@[simp] theorem finishDecoder_dec (s : State) : (finishDecoder s).dec = { s.dec with phase := .done } := rfl
@[simp] theorem finishDecoder_gridIn (s : State) : (finishDecoder s).gridIn = s.gridIn := rfl
@[simp] theorem finishDecoder_bytesIn (s : State) : (finishDecoder s).bytesIn = s.bytesIn := rfl
@[simp] theorem finishDecoder_bytesOut (s : State) : (finishDecoder s).bytesOut = s.bytesOut := rfl
@[simp] theorem finishDecoder_gridOut (s : State) : (finishDecoder s).gridOut = s.gridOut := rfl
@[simp] theorem finishDecoder_agenda (s : State) : (finishDecoder s).agenda = s.agenda := rfl
@[simp] theorem finishDecoder_hostData (s : State) : (finishDecoder s).hostData = s.hostData := rfl
@[simp] theorem finishDecoder_fresh (s : State) : (finishDecoder s).fresh = s.fresh := rfl

/-! Reset (70_reset_and_hazards.md rule R230). -/

@[simp] theorem reset_enc : State.reset.enc = Enc.reset := rfl
@[simp] theorem reset_dec : State.reset.dec = Dec.reset := rfl
@[simp] theorem encReset_phase : Enc.reset.phase = .idle := rfl
@[simp] theorem encReset_code : Enc.reset.code = .ok := rfl
@[simp] theorem decReset_phase : Dec.reset.phase = .idle := rfl
@[simp] theorem decReset_code : Dec.reset.code = .ok := rfl

end Sys2Proof.Machine
end

