-- ==== Sys2Proof/Laws/Ops.lean ====
section
/-! SUPPORT. What each shared operation can do, said once: the output stream, the input bytes, the pixel writes, the end of
a pixel-producing op. -/

namespace Sys2Proof.Machine

/-! ## The output stream -/

/-- Everything an emission does to the state. -/
theorem emitBytes_eq (bs : List Byte) (s : State) :
    ∃ m, emitBytes bs s = { s with bytesOut := m, enc := { s.enc with outlen := s.enc.outlen + bs.length } } ∧
      (∀ a, Memory.read m a =
        if s.enc.outlen ≤ a ∧ a < s.enc.outlen + bs.length then bs[a - s.enc.outlen]? else Memory.read s.bytesOut a) ∧
      (Memory.wf s.bytesOut = true → Memory.wf m = true) := by
  induction bs generalizing s with
  | nil =>
    refine ⟨s.bytesOut, rfl, fun a => ?_, id⟩
    simp
  | cons b bs ih =>
    obtain ⟨m, h1, h2, h3⟩ := ih (emit b s)
    refine ⟨m, ?_, fun a => ?_, fun h => h3 (wf_write _ _ h)⟩
    · rw [emitBytes, h1]
      simp [emit, Nat.add_assoc, Nat.add_comm]
    · rw [h2 a]
      simp only [emit_enc, emit_bytesOut, read_write, List.length_cons]
      by_cases ha : s.enc.outlen = a
      · subst ha
        have h5 : ¬(s.enc.outlen + 1 ≤ s.enc.outlen ∧ s.enc.outlen < s.enc.outlen + 1 + bs.length) := by omega
        have h6 : s.enc.outlen ≤ s.enc.outlen ∧ s.enc.outlen < s.enc.outlen + (bs.length + 1) := by omega
        rw [if_neg h5, if_pos h6]
        simp
      · by_cases hr : s.enc.outlen ≤ a ∧ a < s.enc.outlen + (bs.length + 1)
        · have h5 : s.enc.outlen + 1 ≤ a ∧ a < s.enc.outlen + 1 + bs.length := by omega
          rw [if_pos hr, if_pos h5]
          obtain ⟨k, hk⟩ : ∃ k, a - s.enc.outlen = k + 1 := ⟨a - s.enc.outlen - 1, by omega⟩
          have : a - (s.enc.outlen + 1) = k := by omega
          simp [hk, this]
        · have h5 : ¬(s.enc.outlen + 1 ≤ a ∧ a < s.enc.outlen + 1 + bs.length) := by omega
          rw [if_neg hr, if_neg h5, if_neg ha]

/-- What an emission of one instruction does to the state. -/
theorem emitInstr_eq (i : Instr) (s : State) :
    ∃ m, emitInstr i s = { s with bytesOut := m, enc := { s.enc with outlen := s.enc.outlen + (encode i).length } } ∧
      (∀ a, Memory.read m a =
        if s.enc.outlen ≤ a ∧ a < s.enc.outlen + (encode i).length then (encode i)[a - s.enc.outlen]?
        else Memory.read s.bytesOut a) ∧
      (Memory.wf s.bytesOut = true → Memory.wf m = true) := emitBytes_eq (encode i) s

theorem emitBytes_append (as bs : List Byte) (s : State) : emitBytes (as ++ bs) s = emitBytes bs (emitBytes as s) := by
  induction as generalizing s with
  | nil => rfl
  | cons a as ih => exact ih (emit a s)

/-! ## The input bytes -/

theorem byteIn_ok {a : Nat} {s : State} {b : Byte} :
    byteIn a s = .ok b ↔ a < s.dec.l ∧ Memory.read s.bytesIn a = some b := by
  unfold byteIn
  split_ifs with h
  · cases hr : Memory.read s.bytesIn a <;> simp [h]
  · simp [h]

theorem bytesInAt_ok {a n : Nat} {s : State} {bs : List Byte} (h : bytesInAt a n s = .ok bs) :
    bs.length = n ∧ (0 < n → a + n ≤ s.dec.l) ∧ HoldsBytes s.bytesIn a bs := by
  induction n generalizing a bs with
  | zero =>
    cases h
    exact ⟨rfl, by omega, fun j hj => absurd hj (by simp)⟩
  | succ n ih =>
    simp only [bytesInAt] at h
    cases hb : byteIn a s with
    | error f => simp [hb] at h
    | ok b =>
      cases hr : bytesInAt (a + 1) n s with
      | error f => simp [hb, hr] at h
      | ok cs =>
        simp only [hb, hr, Except.ok.injEq] at h
        subst h
        obtain ⟨h1, h2, h3⟩ := ih hr
        obtain ⟨h4, h5⟩ := byteIn_ok.1 hb
        refine ⟨by simp [h1], fun _ => ?_, fun j hj => ?_⟩
        · rcases Nat.eq_zero_or_pos n with h0 | h0
          · omega
          · have := h2 h0
            omega
        · cases j with
          | zero => simpa using h5
          | succ j =>
            have := h3 j (by simpa using hj)
            rw [Nat.add_right_comm] at this
            simpa [Nat.add_assoc] using this

/-- Bytes that stand in the buffer are what the fetch reads. -/
theorem bytesInAt_of_holds {a : Nat} {s : State} {bs : List Byte} (h : HoldsBytes s.bytesIn a bs)
    (hl : a + bs.length ≤ s.dec.l) : bytesInAt a bs.length s = .ok bs := by
  induction bs generalizing a with
  | nil => rfl
  | cons b bs ih =>
    have h0 : byteIn a s = .ok b := by
      refine byteIn_ok.2 ⟨by simp at hl; omega, ?_⟩
      simpa using h 0 (by simp)
    have h1 : HoldsBytes s.bytesIn (a + 1) bs := by
      intro j hj
      have := h (j + 1) (by simpa using hj)
      rw [Nat.add_right_comm, Nat.add_assoc]
      simpa using this
    simp only [List.length_cons, bytesInAt, h0]
    rw [ih h1 (by simp at hl; omega)]

/-! ## The pixel writes -/

theorem putPixel_ok {i : Nat} {p : Pixel} {s : State} (h : i < s.dec.n) :
    putPixel i p s = .ok { s with gridOut := Memory.write s.gridOut i p } := by simp [putPixel, h]

/-- A row of cells that lie in the grid is written, and nothing else changes. -/
theorem putPixels_ok {i n : Nat} {p : Pixel} {s : State} (h : i + n ≤ s.dec.n) :
    ∃ m, putPixels i n p s = .ok { s with gridOut := m } ∧
      (∀ j, Memory.read m j = if i ≤ j ∧ j < i + n then some p else Memory.read s.gridOut j) ∧
      (Memory.wf s.gridOut = true → Memory.wf m = true) := by
  induction n generalizing i s with
  | zero =>
    refine ⟨s.gridOut, rfl, fun j => ?_, id⟩
    have : ¬(i ≤ j ∧ j < i + 0) := by omega
    rw [if_neg this]
  | succ n ih =>
    obtain ⟨m, h1, h2, h3⟩ := ih (i := i + 1) (s := { s with gridOut := Memory.write s.gridOut i p }) (by simpa using by omega)
    refine ⟨m, ?_, fun j => ?_, fun hw => h3 (wf_write _ _ hw)⟩
    · rw [putPixels, putPixel_ok (by omega)]
      exact h1
    · rw [h2 j]
      simp only [read_write]
      by_cases h4 : i = j
      · subst h4
        simp
      · by_cases h5 : i ≤ j ∧ j < i + (n + 1)
        · have : i + 1 ≤ j ∧ j < i + 1 + n := by omega
          rw [if_pos this, if_pos h5]
        · have : ¬(i + 1 ≤ j ∧ j < i + 1 + n) := by omega
          rw [if_neg this, if_neg h5, if_neg h4]

/-- The state after a pixel went to the cell at the cursor. -/
def afterPixel (p : Pixel) (len : Nat) (stores : Bool) (s : State) : State :=
  finishPixel p len stores { s with gridOut := Memory.write s.gridOut s.dec.cur p }

/-- The end of a pixel-producing op, exactly. -/
theorem producePixel_eq (p : Pixel) (len : Nat) (stores : Bool) (s : State) :
    producePixel p len stores s =
      if s.dec.cur < s.dec.n then .next (afterPixel p len stores s) else .fault .gridOutOutOfRange := by
  unfold producePixel putPixel
  split_ifs with h1 <;> rfl

theorem producePixel_next {p : Pixel} {len : Nat} {stores : Bool} {s t : State} :
    producePixel p len stores s = .next t ↔ s.dec.cur < s.dec.n ∧ t = afterPixel p len stores s := by
  rw [producePixel_eq]
  split_ifs with h <;> simp [h, eq_comm]

theorem afterPixel_produced (p : Pixel) (len : Nat) (stores : Bool) (s : State) :
    PixelProduced p len s (afterPixel p len stores s) := by
  refine ⟨?_, ?_, rfl, rfl, rfl, ?_, ?_⟩
  · simp [afterPixel, finishPixel]
  · intro j hj
    exact read_write_other _ _ (by omega)
  · exact ⟨rfl, rfl, rfl, rfl, rfl, rfl, rfl⟩
  · exact ⟨rfl, rfl, rfl, rfl, rfl, rfl, rfl, rfl⟩

theorem cacheStored_store (c : Cache) (k : BitVec 6) (p : Pixel) : CacheStored c (cacheStore c k p) k p :=
  ⟨cacheLookup_store_same c k p, fun _ hj => cacheLookup_store_other c p hj⟩

/-! ## Runs -/

@[simp] theorem runSteps_zero (s : State) : runSteps 0 s = .next s := rfl

theorem runSteps_succ (k : Nat) (s : State) :
    runSteps (k + 1) s = match step s with
      | .next t => runSteps k t
      | .fault f => .fault f
      | .refused r => .refused r := by
  simp only [runSteps, Host.Core.run]
  have h : Sys2Proof.core.step s = step s := rfl
  rw [h]
  cases step s <;> rfl

theorem runSteps_add {j k : Nat} {s t : State} (h : runSteps j s = .next t) : runSteps (j + k) s = runSteps k t := by
  induction j generalizing s with
  | zero =>
    cases h
    simp
  | succ j ih =>
    rw [Nat.add_right_comm, runSteps_succ]
    rw [runSteps_succ] at h
    cases hs : step s with
    | next u => rw [hs] at h; exact ih h
    | fault f => rw [hs] at h; cases h
    | refused r => rw [hs] at h; cases h

end Sys2Proof.Machine
end

