-- ==== Sys2Proof/Laws/Decoder.lean ====
section
/-! SUPPORT. What the decoder's functions can do, said once: reconstruction, the fetch, each instruction's meaning, a turn. -/

namespace Sys2Proof.Machine

/-! ## Reconstruction (40_pixel_model.md rule R106) -/

theorem reconLane_some {q : Byte} {d : Int} {x : Byte} :
    reconLane q d = some x ↔ (0 ≤ (q.toNat : Int) + d ∧ (q.toNat : Int) + d ≤ 255) ∧ (x.toNat : Int) = q.toNat + d := by
  unfold reconLane
  split_ifs with h
  · simp only [Option.some.injEq, h, true_and]
    constructor
    · rintro rfl
      simp only [BitVec.toNat_ofInt]
      omega
    · intro hx
      apply BitVec.eq_of_toNat_eq
      simp only [BitVec.toNat_ofInt]
      omega
  · simp [h]

theorem reconLane_none {q : Byte} {d : Int} :
    reconLane q d = none ↔ ¬(0 ≤ (q.toNat : Int) + d ∧ (q.toNat : Int) + d ≤ 255) := by
  unfold reconLane
  split_ifs with h <;> simp [h]

theorem recon_some {q : Pixel} {d : Diff} {p : Pixel} :
    recon q d = some p ↔
      reconLane q.r d.r = some p.r ∧ reconLane q.g d.g = some p.g ∧ reconLane q.b d.b = some p.b := by
  unfold recon
  cases reconLane q.r d.r <;> cases reconLane q.g d.g <;> cases reconLane q.b d.b <;> simp [Pixel.ext_iff]

theorem recon_none {q : Pixel} {d : Diff} :
    recon q d = none ↔ reconLane q.r d.r = none ∨ reconLane q.g d.g = none ∨ reconLane q.b d.b = none := by
  unfold recon
  cases reconLane q.r d.r <;> cases reconLane q.g d.g <;> cases reconLane q.b d.b <;> simp

/-! ## The meanings -/

/-- Everything the end of a difference op can do. -/
theorem produceFromDiff_next {d : Diff} {len : Nat} {s t : State} :
    produceFromDiff d len s = .next t ↔
      (recon s.dec.prev d = none ∧ t = raiseError .dec .corruptStream s) ∨
      ∃ p, recon s.dec.prev d = some p ∧ s.dec.cur < s.dec.n ∧ t = afterPixel p len true s := by
  unfold produceFromDiff
  cases recon s.dec.prev d with
  | none => simp [eq_comm]
  | some p => simp [producePixel_next]

/-- The state after a RUN of n pixels that ends within the grid: n cells, the cursor and the read pointer. -/
def RunWritten (n : Nat) (s t : State) : Prop :=
  ∃ m, t = finishRun n { s with gridOut := m } ∧
    (∀ j, Memory.read m j = if s.dec.cur ≤ j ∧ j < s.dec.cur + n then some s.dec.prev else Memory.read s.gridOut j) ∧
    (Memory.wf s.gridOut = true → Memory.wf m = true)

/-- A RUN that ends within the grid writes it. -/
theorem execRun_fits {n : Nat} {s : State} (h : s.dec.cur + n ≤ s.dec.n) : ∃ t, execRun n s = .next t ∧ RunWritten n s t := by
  obtain ⟨m, h1, h2, h3⟩ := putPixels_ok (p := s.dec.prev) h
  refine ⟨_, ?_, m, rfl, h2, h3⟩
  unfold execRun
  rw [if_neg (by omega), h1]

/-- Everything RUN can do. -/
theorem execRun_next {n : Nat} {s t : State} (h : execRun n s = .next t) :
    (s.dec.n < s.dec.cur + n ∧ t = raiseError .dec .gridOverrun s) ∨ (s.dec.cur + n ≤ s.dec.n ∧ RunWritten n s t) := by
  by_cases hn : s.dec.cur + n ≤ s.dec.n
  · obtain ⟨u, h1, h2⟩ := execRun_fits hn
    rw [h1, Host.Outcome.next.injEq] at h
    exact .inr ⟨hn, h ▸ h2⟩
  · unfold execRun at h
    rw [if_pos (by omega), Host.Outcome.next.injEq] at h
    exact .inl ⟨by omega, h.symm⟩

/-- Everything the execution of an instruction can do. -/
theorem exec_next {i : Instr} {s t : State} (h : exec i s = .next t) :
    (∃ c, c ≠ .ok ∧ c ≠ .dimensionOverflow ∧ t = raiseError .dec c s) ∨
    (∃ v w, i = .hdr v w ∧ 4 ≤ s.dec.l ∧ t = finishHeader v w s) ∨
    (∃ p b, (∀ n, i ≠ .run n) ∧ i.place = .opStream ∧ s.dec.cur < s.dec.n ∧ t = afterPixel p i.length b s) ∨
    (∃ n, i = .run n ∧ s.dec.cur + n ≤ s.dec.n ∧ RunWritten n s t) := by
  cases i with
  | hdr v w =>
    simp only [exec, execHdr] at h
    split_ifs at h with h1
    · exact .inl ⟨_, by decide, by decide, (Host.Outcome.next.inj h).symm⟩
    · exact .inr (.inl ⟨v, w, rfl, by omega, (Host.Outcome.next.inj h).symm⟩)
  | cache k =>
    obtain ⟨h1, h2⟩ := producePixel_next.1 h
    exact .inr (.inr (.inl ⟨_, _, fun _ => nofun, rfl, h1, h2⟩))
  | small dr dg db =>
    rcases produceFromDiff_next.1 h with ⟨_, h2⟩ | ⟨p, _, h2, h3⟩
    · exact .inl ⟨_, by decide, by decide, h2⟩
    · exact .inr (.inr (.inl ⟨p, true, fun _ => nofun, rfl, h2, h3⟩))
  | med dr dg db =>
    simp only [exec, execMed] at h
    split_ifs at h with h1
    · exact .inl ⟨_, by decide, by decide, (Host.Outcome.next.inj h).symm⟩
    · rcases produceFromDiff_next.1 h with ⟨_, h2⟩ | ⟨p, _, h2, h3⟩
      · exact .inl ⟨_, by decide, by decide, h2⟩
      · exact .inr (.inr (.inl ⟨p, true, fun _ => nofun, rfl, h2, h3⟩))
  | run n =>
    rcases execRun_next h with ⟨_, h2⟩ | ⟨h1, h2⟩
    · exact .inl ⟨_, by decide, by decide, h2⟩
    · exact .inr (.inr (.inr ⟨n, rfl, h1, h2⟩))
  | raw r g b =>
    simp only [exec, execRaw] at h
    split_ifs at h with h1
    · exact .inl ⟨_, by decide, by decide, (Host.Outcome.next.inj h).symm⟩
    · obtain ⟨h2, h3⟩ := producePixel_next.1 h
      exact .inr (.inr (.inl ⟨_, _, fun _ => nofun, rfl, h2, h3⟩))

/-- The execution of an instruction stops only with the fault of a cell outside the grid, and is never refused. -/
theorem exec_stops {i : Instr} {s : State} (h : s.dec.cur < s.dec.n ∨ i.place = .start) : ∃ t, exec i s = .next t := by
  cases i with
  | hdr v w =>
    simp only [exec, execHdr]
    split_ifs <;> exact ⟨_, rfl⟩
  | cache k => exact ⟨_, producePixel_next.2 ⟨h.resolve_right nofun, rfl⟩⟩
  | small dr dg db =>
    cases hr : recon s.dec.prev ⟨dr, dg, db⟩ with
    | none => exact ⟨_, produceFromDiff_next.2 (.inl ⟨hr, rfl⟩)⟩
    | some p => exact ⟨_, produceFromDiff_next.2 (.inr ⟨p, hr, h.resolve_right nofun, rfl⟩)⟩
  | med dr dg db =>
    simp only [exec, execMed]
    split_ifs
    · exact ⟨_, rfl⟩
    · cases hr : recon s.dec.prev ⟨dr, dg, db⟩ with
      | none => exact ⟨_, produceFromDiff_next.2 (.inl ⟨hr, rfl⟩)⟩
      | some p => exact ⟨_, produceFromDiff_next.2 (.inr ⟨p, hr, h.resolve_right nofun, rfl⟩)⟩
  | run n =>
    by_cases hn : s.dec.cur + n ≤ s.dec.n
    · obtain ⟨t, h1, _⟩ := execRun_fits hn
      exact ⟨t, h1⟩
    · refine ⟨raiseError .dec .gridOverrun s, ?_⟩
      simp only [exec, execRun]
      rw [if_pos (by omega)]
  | raw r g b =>
    simp only [exec, execRaw]
    split_ifs
    · exact ⟨_, rfl⟩
    · exact ⟨_, producePixel_next.2 ⟨h.resolve_right nofun, rfl⟩⟩

/-! ## The fetch -/

/-- Everything a fetched instruction says: it decodes, whole, from bytes below L. -/
theorem fetchAt_instr {place : Place} {a n : Nat} {c : Code} {s : State} {i : Instr} (h : fetchAt place a n c s = .instr i) :
    ∃ bs rest, bs.length = n ∧ a + n ≤ s.dec.l ∧ HoldsBytes s.bytesIn a bs ∧ decode place bs = .ok (i, rest) := by
  unfold fetchAt at h
  split_ifs at h with hl
  cases hb : bytesInAt a n s with
  | error f => simp [hb] at h
  | ok bs =>
    simp only [hb] at h
    cases hd : decode place bs with
    | error e => simp [hd] at h
    | ok ir =>
      obtain ⟨j, rest⟩ := ir
      simp only [hd, Fetched.instr.injEq] at h
      obtain ⟨h1, _, h3⟩ := bytesInAt_ok hb
      exact ⟨bs, rest, h1, by omega, h3, h ▸ hd⟩

/-- Bytes that stand below L and decode are fetched. -/
theorem fetchAt_of_holds {place : Place} {a : Nat} {c : Code} {s : State} {i : Instr} {bs rest : List Byte}
    (hl : a + bs.length ≤ s.dec.l) (hb : HoldsBytes s.bytesIn a bs) (hd : decode place bs = .ok (i, rest)) :
    fetchAt place a bs.length c s = .instr i := by
  unfold fetchAt
  rw [if_neg (by omega), bytesInAt_of_holds hb hl]
  simp [hd]

/-- Everything a turn of the decoder can do. -/
theorem decTurn_cases {s t : State} (h : decTurn s = .next t) :
    (s.dec.phase ≠ .busy ∧ t = s) ∨
    (s.dec.phase = .busy ∧ ∃ i, fetch s = .instr i ∧ exec i s = .next t) ∨
    (s.dec.phase = .busy ∧ ∃ c, fetch s = .error c ∧ t = raiseError .dec c s) ∨
    (s.dec.phase = .busy ∧ fetch s = .complete ∧ t = decComplete s) := by
  unfold decTurn at h
  by_cases hb : s.dec.phase = .busy
  · rw [if_pos hb] at h
    unfold decStep at h
    cases hf : fetch s with
    | instr i => simp only [hf] at h; exact .inr (.inl ⟨hb, i, rfl, h⟩)
    | error c => simp only [hf, Host.Outcome.next.injEq] at h; exact .inr (.inr (.inl ⟨hb, c, rfl, h.symm⟩))
    | complete => simp only [hf, Host.Outcome.next.injEq] at h; exact .inr (.inr (.inr ⟨hb, rfl, h.symm⟩))
    | fault f => simp [hf] at h
  · rw [if_neg hb, Host.Outcome.next.injEq] at h
    exact .inl ⟨hb, h.symm⟩

/-- When the fetch completes. -/
theorem fetch_complete {s : State} (h : fetch s = .complete) : s.dec.stage = .ops ∧ s.dec.cur = s.dec.n := by
  unfold fetch at h
  cases hs : s.dec.stage with
  | hdr =>
    simp only [hs, fetchHeader, fetchAt] at h
    split_ifs at h
    split at h
    · cases h
    · split at h <;> cases h
  | ops =>
    simp only [hs] at h
    split_ifs at h with h1 h2
    · exact ⟨rfl, h1⟩
    · unfold fetchOp fetchAt at h
      split at h
      · cases h
      · split_ifs at h
        split at h
        · cases h
        · split at h <;> cases h

/-- Everything a fetched instruction says of the state: the header at offset 0, or an op at the read pointer whose first
byte gave its length. -/
theorem fetch_instr {s : State} {i : Instr} (h : fetch s = .instr i) :
    (s.dec.stage = .hdr ∧ ∃ bs rest, bs.length = 4 ∧ 4 ≤ s.dec.l ∧ HoldsBytes s.bytesIn 0 bs ∧
      decode .start bs = .ok (i, rest)) ∨
    (s.dec.stage = .ops ∧ s.dec.cur ≠ s.dec.n ∧ s.dec.rp ≠ s.dec.l ∧
      ∃ b bs rest, Memory.read s.bytesIn s.dec.rp = some b ∧ bs.length = opLength b ∧ s.dec.rp + opLength b ≤ s.dec.l ∧
        HoldsBytes s.bytesIn s.dec.rp bs ∧ decode .opStream bs = .ok (i, rest)) := by
  unfold fetch at h
  cases hs : s.dec.stage with
  | hdr =>
    simp only [hs, fetchHeader] at h
    obtain ⟨bs, rest, h1, h2, h3, h4⟩ := fetchAt_instr h
    exact .inl ⟨rfl, bs, rest, h1, by omega, h3, h4⟩
  | ops =>
    simp only [hs] at h
    split_ifs at h with h1 h2
    unfold fetchOp at h
    cases hb : byteIn s.dec.rp s with
    | error f => simp [hb] at h
    | ok b =>
      simp only [hb] at h
      obtain ⟨bs, rest, h3, h4, h5, h6⟩ := fetchAt_instr h
      exact .inr ⟨rfl, h1, h2, b, bs, rest, (byteIn_ok.1 hb).2, h3, h4, h5, h6⟩

end Sys2Proof.Machine
end

