-- ==== Sys2Proof/Laws/Encoder.lean ====
section
/-! SUPPORT. What an emission leaves alone and appends, and what each encoder step does: the ops it emits, and every
register. -/

namespace Sys2Proof.Machine

/-! ## Emissions: the fields they leave alone -/

section Fields
variable (bs : List Byte) (s : State)

/-- An emission changes the stream and its length only. -/
theorem emitBytes_frame : ∃ m, emitBytes bs s =
    { s with bytesOut := m, enc := { s.enc with outlen := s.enc.outlen + bs.length } } :=
  let ⟨m, h, _⟩ := emitBytes_eq bs s
  ⟨m, h⟩

@[simp] theorem emitBytes_cfg : (emitBytes bs s).cfg = s.cfg := by obtain ⟨m, h⟩ := emitBytes_frame bs s; rw [h]
@[simp] theorem emitBytes_dec : (emitBytes bs s).dec = s.dec := by obtain ⟨m, h⟩ := emitBytes_frame bs s; rw [h]
@[simp] theorem emitBytes_gridIn : (emitBytes bs s).gridIn = s.gridIn := by obtain ⟨m, h⟩ := emitBytes_frame bs s; rw [h]
@[simp] theorem emitBytes_bytesIn : (emitBytes bs s).bytesIn = s.bytesIn := by obtain ⟨m, h⟩ := emitBytes_frame bs s; rw [h]
@[simp] theorem emitBytes_gridOut : (emitBytes bs s).gridOut = s.gridOut := by obtain ⟨m, h⟩ := emitBytes_frame bs s; rw [h]
@[simp] theorem emitBytes_agenda : (emitBytes bs s).agenda = s.agenda := by obtain ⟨m, h⟩ := emitBytes_frame bs s; rw [h]
@[simp] theorem emitBytes_hostData : (emitBytes bs s).hostData = s.hostData := by
  obtain ⟨m, h⟩ := emitBytes_frame bs s; rw [h]
@[simp] theorem emitBytes_fresh : (emitBytes bs s).fresh = s.fresh := by obtain ⟨m, h⟩ := emitBytes_frame bs s; rw [h]
@[simp] theorem emitBytes_enc : (emitBytes bs s).enc = { s.enc with outlen := s.enc.outlen + bs.length } := by
  obtain ⟨m, h⟩ := emitBytes_frame bs s; rw [h]

end Fields

theorem wf_emitBytes (bs : List Byte) {s : State} (h : Memory.wf s.bytesOut = true) :
    Memory.wf (emitBytes bs s).bytesOut = true := by
  obtain ⟨m, h1, _, h3⟩ := emitBytes_eq bs s
  rw [h1]
  exact h3 h

/-! ## Appending -/

theorem appended_nil {s t : State} (h1 : t.enc.outlen = s.enc.outlen) (h2 : t.bytesOut = s.bytesOut) : Appended [] s t := by
  refine ⟨h1, fun j hj => absurd hj (by simp), fun j _ => ?_⟩
  rw [h2]

theorem appended_emitBytes (bs : List Byte) (s : State) : Appended bs s (emitBytes bs s) := by
  obtain ⟨m, h1, h2, _⟩ := emitBytes_eq bs s
  rw [h1]
  refine ⟨rfl, fun j hj => ?_, fun j hj => ?_⟩
  · rw [h2, if_pos (by omega)]
    congr 1
    omega
  · rw [h2, if_neg (by omega)]

/-- Two appends in a row are one. -/
theorem Appended.trans {as bs : List Byte} {s t u : State} (h1 : Appended as s t) (h2 : Appended bs t u) :
    Appended (as ++ bs) s u := by
  obtain ⟨a1, a2, a3⟩ := h1
  obtain ⟨b1, b2, b3⟩ := h2
  refine ⟨by simp [b1, a1, Nat.add_assoc], fun j hj => ?_, fun j hj => ?_⟩
  · by_cases hl : j < as.length
    · rw [b3 _ (by left; omega), a2 j hl, List.getElem?_append_left hl]
    · have : s.enc.outlen + j = t.enc.outlen + (j - as.length) := by omega
      rw [this, b2 _ (by simp at hj; omega), List.getElem?_append_right (by omega)]
  · simp only [List.length_append] at hj
    rw [b3 j (by omega), a3 j (by omega)]

/-- What stood below the old length still stands, and what was appended follows it. -/
theorem Appended.holds {as bs : List Byte} {s t : State} {a : Nat} (h : Appended bs s t) (ha : a + as.length = s.enc.outlen)
    (hs : HoldsBytes s.bytesOut a as) : HoldsBytes t.bytesOut a (as ++ bs) := by
  obtain ⟨_, h2, h3⟩ := h
  intro j hj
  by_cases hl : j < as.length
  · rw [h3 _ (by left; omega), hs j hl, List.getElem?_append_left hl]
  · have : a + j = s.enc.outlen + (j - as.length) := by omega
    rw [this, h2 _ (by simp at hj; omega), List.getElem?_append_right (by omega)]

/-! ## The steps -/

/-- The op that ends a pending run, if there is one (42_encoder.md rule R137). -/
def endRunOps (s : State) : List Instr := if s.enc.run = 0 then [] else [.run s.enc.run]

/-- The op of a pixel that differs from `enc.prev` (R138 to R142). -/
def pixelOp (p : Pixel) (s : State) : Instr :=
  if cacheHit s.enc.cache p then .cache (hashPixel p) else missInstr p (diff p s.enc.prev)

/-- The cache after such a pixel. -/
def pixelCache (p : Pixel) (s : State) : Cache :=
  if cacheHit s.enc.cache p then s.enc.cache else cacheStore s.enc.cache (hashPixel p) p

theorem pixelEq_iff {p q : Pixel} : pixelEq p q = true ↔ p = q := by
  simp [pixelEq, Pixel.ext_iff, and_assoc]

theorem cacheHit_iff {c : Cache} {p : Pixel} : cacheHit c p = true ↔ cacheLookup c (hashPixel p) = p := pixelEq_iff

/-- Everything an encoder step can do to what is not the encoder: nothing. What it appends, and that the stream keeps its
canonical form. -/
structure Emits (bs : List Byte) (s t : State) : Prop where
  appended : Appended bs s t
  frame : SameButEncoder s t
  wf : Memory.wf s.bytesOut = true → Memory.wf t.bytesOut = true

theorem emits_nil (s : State) : Emits [] s s :=
  ⟨appended_nil rfl rfl, ⟨rfl, rfl, rfl, rfl, rfl, rfl, rfl, rfl⟩, id⟩

theorem emits_emitBytes (bs : List Byte) (s : State) : Emits bs s (emitBytes bs s) :=
  ⟨appended_emitBytes bs s, by simp [SameButEncoder], wf_emitBytes bs⟩

theorem emits_emitInstr (i : Instr) (s : State) : Emits (encode i) s (emitInstr i s) := emits_emitBytes (encode i) s

theorem Emits.trans {as bs : List Byte} {s t u : State} (h1 : Emits as s t) (h2 : Emits bs t u) : Emits (as ++ bs) s u := by
  refine ⟨h1.appended.trans h2.appended, ?_, fun h => h2.wf (h1.wf h)⟩
  obtain ⟨a1, a2, a3, a4, a5, a6, a7, a8⟩ := h1.frame
  obtain ⟨b1, b2, b3, b4, b5, b6, b7, b8⟩ := h2.frame
  exact ⟨b1.trans a1, b2.trans a2, b3.trans a3, b4.trans a4, b5.trans a5, b6.trans a6, b7.trans a7, b8.trans a8⟩

/-- A write of an encoder register other than the stream's length emits nothing. -/
theorem Emits.setRun {bs : List Byte} {s t : State} (n : Nat) (h : Emits bs s t) : Emits bs s (setRun n t) :=
  ⟨h.appended, h.frame, h.wf⟩

theorem Emits.setPrev {bs : List Byte} {s t : State} (p : Pixel) (h : Emits bs s t) : Emits bs s (setPrev p t) :=
  ⟨h.appended, h.frame, h.wf⟩

theorem Emits.nextPixel {bs : List Byte} {s t : State} (h : Emits bs s t) : Emits bs s (nextPixel t) :=
  ⟨h.appended, h.frame, h.wf⟩

theorem Emits.enterPixels {bs : List Byte} {s t : State} (h : Emits bs s t) : Emits bs s (enterPixels t) :=
  ⟨h.appended, h.frame, h.wf⟩

theorem Emits.finishEncoder {bs : List Byte} {s t : State} (h : Emits bs s t) : Emits bs s (finishEncoder t) :=
  ⟨h.appended, h.frame, h.wf⟩

theorem Emits.of_storePixel {bs : List Byte} {s t : State} {p : Pixel} (h : Emits bs (storePixel p s) t) : Emits bs s t :=
  ⟨h.appended, h.frame, h.wf⟩

theorem Emits.of_setDims {bs : List Byte} {s t : State} {h w : BitVec 16} (e : Emits bs (setDims h w s) t) : Emits bs s t :=
  ⟨e.appended, e.frame, e.wf⟩

@[simp] theorem emitInstr_enc (i : Instr) (s : State) :
    (emitInstr i s).enc = { s.enc with outlen := s.enc.outlen + (encode i).length } := emitBytes_enc (encode i) s

theorem encEndRun_emits (s : State) : Emits (encodeAll (endRunOps s)) s (encEndRun s) := by
  unfold encEndRun endRunOps
  by_cases h : s.enc.run = 0
  · have h0 : ¬s.enc.run > 0 := by omega
    rw [if_neg h0, if_pos h]
    exact emits_nil s
  · have h0 : s.enc.run > 0 := by omega
    rw [if_pos h0, if_neg h]
    simpa [encodeAll] using (emits_emitInstr (.run s.enc.run) s).setRun 0

theorem encEndRun_enc (s : State) : (encEndRun s).enc =
    { s.enc with run := 0, outlen := s.enc.outlen + (encodeAll (endRunOps s)).length } := by
  unfold encEndRun endRunOps
  by_cases h : s.enc.run = 0
  · have h0 : ¬s.enc.run > 0 := by omega
    have h1 : ({ s.enc with run := 0 } : Enc) = s.enc := by rw [← h]
    rw [if_neg h0, if_pos h]
    exact h1.symm
  · have h0 : s.enc.run > 0 := by omega
    rw [if_pos h0, if_neg h]
    simp [encodeAll]

theorem encHitOrMiss_emits (p : Pixel) (s : State) : Emits (encode (pixelOp p s)) s (encHitOrMiss p s) := by
  unfold encHitOrMiss pixelOp
  by_cases h : cacheHit s.enc.cache p = true
  · simp only [h, if_true]
    exact emits_emitInstr _ s
  · simp only [h, Bool.false_eq_true, if_false]
    exact (emits_emitInstr _ (storePixel p s)).of_storePixel

theorem encHitOrMiss_enc (p : Pixel) (s : State) : (encHitOrMiss p s).enc =
    { s.enc with cache := pixelCache p s, outlen := s.enc.outlen + (encode (pixelOp p s)).length } := by
  unfold encHitOrMiss pixelOp pixelCache
  by_cases h : cacheHit s.enc.cache p = true
  · simp [h, encCachePixel]
  · simp [h, encMissPixel]

/-- Everything the pixel step of a differing pixel does. -/
theorem encTakePixel_other {p : Pixel} {s : State} (h : p ≠ s.enc.prev) :
    Emits (encodeAll (endRunOps s ++ [pixelOp p s])) s (encTakePixel p s) ∧
    (encTakePixel p s).enc = { s.enc with
      prev := p, cache := pixelCache p s, run := 0, i := s.enc.i + 1,
      outlen := s.enc.outlen + (encodeAll (endRunOps s ++ [pixelOp p s])).length } := by
  have hne : pixelEq p s.enc.prev = false := by
    rw [← Bool.not_eq_true, pixelEq_iff]
    exact h
  have happ : encodeAll (endRunOps s ++ [pixelOp p s]) = encodeAll (endRunOps s) ++ encode (pixelOp p s) := by
    simp [encodeAll]
  have hop : pixelOp p (encEndRun s) = pixelOp p s := by simp [pixelOp, encEndRun_enc]
  have hca : pixelCache p (encEndRun s) = pixelCache p s := by simp [pixelCache, encEndRun_enc]
  have hm := encHitOrMiss_emits p (encEndRun s)
  have he := encHitOrMiss_enc p (encEndRun s)
  rw [hop] at hm he
  rw [hca, encEndRun_enc] at he
  simp only [encTakePixel, encOtherPixel, hne, Bool.false_eq_true, if_false]
  rw [happ]
  refine ⟨(((encEndRun_emits s).trans hm).setPrev p).nextPixel, ?_⟩
  simp [he, Nat.add_assoc]

/-- Everything the pixel step of an equal pixel does below the cap. -/
theorem encTakePixel_equal {s : State} (h : s.enc.run + 1 ≠ 62) :
    encTakePixel s.enc.prev s = { s with enc := { s.enc with run := s.enc.run + 1, i := s.enc.i + 1 } } := by
  have he : pixelEq s.enc.prev s.enc.prev = true := pixelEq_iff.2 rfl
  simp [encTakePixel, he, encRunPixel, maxRun, h, setRun, nextPixel]

/-- Everything the pixel step of an equal pixel does at the cap. -/
theorem encTakePixel_cap {s : State} (h : s.enc.run + 1 = 62) :
    Emits (encode (.run 62)) s (encTakePixel s.enc.prev s) ∧
    (encTakePixel s.enc.prev s).enc = { s.enc with run := 0, i := s.enc.i + 1, outlen := s.enc.outlen + 1 } := by
  have he : pixelEq s.enc.prev s.enc.prev = true := pixelEq_iff.2 rfl
  simp only [encTakePixel, he, if_true, encRunPixel, maxRun, h]
  exact ⟨((emits_emitInstr (.run 62) s).setRun 0).nextPixel, by simp [encode]⟩

/-- Everything the header step does when the dimensions pass the check. -/
theorem encHeaderStep_passes {s : State} (h : s.enc.hin.toNat ≤ maxDim ∧ s.enc.win.toNat ≤ maxDim) :
    Emits (encode (.hdr (dimLow s.enc.hin) (dimLow s.enc.win))) s (encHeaderStep s) ∧
    (encHeaderStep s).enc = { s.enc with
      h := dimLow s.enc.hin, w := dimLow s.enc.win, n := pixelCount (dimLow s.enc.hin) (dimLow s.enc.win),
      outlen := s.enc.outlen + 4, stage := .pix } := by
  have hn : ¬(s.enc.hin.toNat > maxDim ∨ s.enc.win.toNat > maxDim) := by omega
  simp only [encHeaderStep, if_neg hn, encEmitHeader]
  exact ⟨((emits_emitInstr _ (setDims _ _ s)).of_setDims).enterPixels, by simp [encode]⟩

theorem encHeaderStep_raises {s : State} (h : s.enc.hin.toNat > maxDim ∨ s.enc.win.toNat > maxDim) :
    encHeaderStep s = raiseError .enc .dimensionOverflow s := by simp [encHeaderStep, h]

/-- Everything the flush does. -/
theorem encFlushStep_emits (s : State) :
    Emits (encodeAll (endRunOps s)) s (encFlushStep s) ∧
    (encFlushStep s).enc = { s.enc with
      run := 0, phase := .done, outlen := s.enc.outlen + (encodeAll (endRunOps s)).length } :=
  ⟨(encEndRun_emits s).finishEncoder, by simp [encFlushStep, encEndRun_enc]⟩

/-- The pixel fetch answers a pixel exactly when the position is in the grid and the host placed it there. -/
theorem pixelAt_ok {row col : Nat} {s : State} {p : Pixel} :
    pixelAt row col s = .ok p ↔
      (row < s.enc.hin.toNat ∧ col < s.enc.win.toNat) ∧ Memory.read s.gridIn (gridKey row col) = some p := by
  unfold pixelAt
  split_ifs with h
  · cases hr : Memory.read s.gridIn (gridKey row col) <;> simp [h]
  · simp [h]

/-- The turn of an encoder whose next pixel is p is the pixel step of p. -/
theorem encTurn_pixel {p : Pixel} {s : State} (h : PixelNext p s) : encTurn s = .next (encTakePixel p s) := by
  have hp : pixelAt (s.enc.i / s.enc.w.toNat) (s.enc.i % s.enc.w.toNat) s = .ok p := pixelAt_ok.2 ⟨⟨h.row, h.col⟩, h.pixel⟩
  simp [encTurn, h.busy, encStep, h.stage, h.more, encPixelStep, hp]

/-- Everything a turn of the encoder can do. -/
theorem encTurn_cases {s t : State} (h : encTurn s = .next t) :
    (s.enc.phase ≠ .busy ∧ t = s) ∨
    (s.enc.phase = .busy ∧ s.enc.stage = .hdr ∧ t = encHeaderStep s) ∨
    (s.enc.phase = .busy ∧ s.enc.stage = .pix ∧ s.enc.i = s.enc.n ∧ t = encFlushStep s) ∨
    (s.enc.phase = .busy ∧ s.enc.stage = .pix ∧ s.enc.i ≠ s.enc.n ∧
      ∃ p, pixelAt (s.enc.i / s.enc.w.toNat) (s.enc.i % s.enc.w.toNat) s = .ok p ∧ t = encTakePixel p s) := by
  unfold encTurn at h
  by_cases hb : s.enc.phase = .busy
  · rw [if_pos hb] at h
    unfold encStep at h
    cases hs : s.enc.stage with
    | hdr =>
      simp only [hs, Host.Outcome.next.injEq] at h
      exact .inr (.inl ⟨hb, rfl, h.symm⟩)
    | pix =>
      simp only [hs] at h
      by_cases hi : s.enc.i = s.enc.n
      · simp only [hi, if_true, Host.Outcome.next.injEq] at h
        exact .inr (.inr (.inl ⟨hb, rfl, hi, h.symm⟩))
      · simp only [hi, if_false, encPixelStep] at h
        cases hp : pixelAt (s.enc.i / s.enc.w.toNat) (s.enc.i % s.enc.w.toNat) s with
        | error f => simp [hp] at h
        | ok p =>
          simp only [hp, Host.Outcome.next.injEq] at h
          exact .inr (.inr (.inr ⟨hb, rfl, hi, p, rfl, h.symm⟩))
  · rw [if_neg hb, Host.Outcome.next.injEq] at h
    exact .inl ⟨hb, h.symm⟩

end Sys2Proof.Machine
end

