-- ==== Sys2Proof/Laws/PerInstr.lean ====
section
/-! SUPPORT. Facts about every instruction as syntax, one lemma per constructor (LAWS.json names the families). -/

namespace Sys2Proof.Laws.Lengths

/-- An instruction's bytes are as many as its length says, and for a well-formed op the first of them announces that
length (30_encoding.md rules R70, R81). -/
def Statement (i : Instr) : Prop :=
  (encode i).length = i.length ∧
  (i.wf = true → i.place = .opStream → ∃ b, (encode i).head? = some b ∧ opLength b = i.length)

theorem hdr (h w : BitVec 16) : Statement (.hdr h w) := ⟨rfl, fun _ hp => by cases hp⟩

theorem cache (idx : BitVec 6) : Statement (.cache idx) :=
  ⟨rfl, fun _ _ => ⟨_, rfl, by simp [opLength, opKind_cache, Instr.length]⟩⟩

theorem small (dr dg db : Int) : Statement (.small dr dg db) :=
  ⟨rfl, fun _ _ => ⟨_, rfl, by simp [opLength, opKind_small, Instr.length]⟩⟩

theorem med (dr dg db : Int) : Statement (.med dr dg db) :=
  ⟨rfl, fun _ _ => ⟨_, rfl, by simp [opLength, opKind_med, Instr.length]⟩⟩

theorem run (n : Nat) : Statement (.run n) := by
  refine ⟨rfl, fun hw _ => ⟨_, rfl, ?_⟩⟩
  simp only [Instr.wf, Bool.and_eq_true, decide_eq_true_eq] at hw
  simp [opLength, opKind_run _ (fRun_ne_escape hw), Instr.length]

theorem raw (r g b : Byte) : Statement (.raw r g b) :=
  ⟨rfl, fun _ _ => ⟨_, rfl, by simp [opLength, opKind, Instr.length]⟩⟩

end Sys2Proof.Laws.Lengths
end

