-- ==== Sys2Proof/Laws/Step.lean ====
section
/-! SUPPORT. What a step of the machine and a host command can do, said once, and what the parts of the invariant depend
on. -/

namespace Sys2Proof.Machine

/-! ## Steps -/

/-- A step is the agenda's next move, or a turn of a BUSY engine by itself, or nothing. -/
theorem step_cases (s : State) :
    (∃ m rest, s.agenda = m :: rest ∧ step s = moveStep m { s with agenda := rest }) ∨
    (∃ k, s.agenda = [] ∧ s.enc.phase = .busy ∧ step s = encTurn { s with fresh := k }) ∨
    (∃ k, s.agenda = [] ∧ s.dec.phase = .busy ∧ step s = decTurn { s with fresh := k }) ∨
    step s = .next s := by
  by_cases ha : s.agenda = []
  · right
    have e0 : step s = autoStep s := by simp [step, stepOf, ha]
    have e1 : ∀ k, s.enc.phase = .busy → encTurn { s with fresh := k } = encStep { s with fresh := k } := fun k h => by
      unfold encTurn
      rw [if_pos h]
    have e2 : ∀ k, s.dec.phase = .busy → decTurn { s with fresh := k } = decStep { s with fresh := k } := fun k h => by
      unfold decTurn
      rw [if_pos h]
    rw [e0]
    unfold autoStep
    by_cases he : s.enc.phase = .busy
    · by_cases hd : s.dec.phase = .busy
      · rw [if_pos he, if_pos hd]
        split_ifs
        · exact .inl ⟨_, ha, he, (e1 _ he).symm⟩
        · exact .inr (.inl ⟨_, ha, hd, (e2 _ hd).symm⟩)
      · rw [if_pos he, if_neg hd]
        exact .inl ⟨s.fresh, ha, he, (e1 s.fresh he).symm⟩
    · by_cases hd : s.dec.phase = .busy
      · rw [if_neg he, if_pos hd]
        exact .inr (.inl ⟨s.fresh, ha, hd, (e2 s.fresh hd).symm⟩)
      · rw [if_neg he, if_neg hd]
        exact .inr (.inr rfl)
  · obtain ⟨m, rest, ha⟩ := List.exists_cons_of_ne_nil ha
    exact .inl ⟨m, rest, ha, by simp [step, stepOf, ha]⟩

/-- With nothing scheduled and the other engine not BUSY, a step is the encoder's turn. -/
theorem step_encoderAlone {s : State} (h : EncoderAlone s) : step s = encTurn s := by
  obtain ⟨h1, h2⟩ := h
  by_cases hb : s.enc.phase = .busy <;> simp [step, stepOf, h1, autoStep, encTurn, hb, h2]

/-- With nothing scheduled and the other engine not BUSY, a step is the decoder's turn. -/
theorem step_decoderAlone {s : State} (h : DecoderAlone s) : step s = decTurn s := by
  obtain ⟨h1, h2⟩ := h
  by_cases hb : s.dec.phase = .busy <;> simp [step, stepOf, h1, autoStep, decTurn, hb, h2]

/-- Every turn of the encoder emits some bytes and leaves the rest of the machine alone. -/
theorem encTurn_emits {s t : State} (h : encTurn s = .next t) : ∃ bs, Emits bs s t := by
  have nothing : ∀ e : Enc, e.outlen = s.enc.outlen → Emits [] s { s with enc := e } := fun e he =>
    ⟨appended_nil he rfl, ⟨rfl, rfl, rfl, rfl, rfl, rfl, rfl, rfl⟩, id⟩
  rcases encTurn_cases h with ⟨_, rfl⟩ | ⟨_, _, rfl⟩ | ⟨_, _, _, rfl⟩ | ⟨_, _, _, p, _, rfl⟩
  · exact ⟨[], emits_nil _⟩
  · by_cases hd : s.enc.hin.toNat > maxDim ∨ s.enc.win.toNat > maxDim
    · rw [encHeaderStep_raises hd]
      exact ⟨[], nothing _ rfl⟩
    · exact ⟨_, (encHeaderStep_passes (s := s) (by omega)).1⟩
  · exact ⟨_, (encFlushStep_emits s).1⟩
  · by_cases hp : p = s.enc.prev
    · subst hp
      by_cases hr : s.enc.run + 1 = 62
      · exact ⟨_, (encTakePixel_cap hr).1⟩
      · rw [encTakePixel_equal hr]
        exact ⟨[], nothing _ rfl⟩
    · exact ⟨_, (encTakePixel_other hp).1⟩

/-- A host command leaves each engine and its output space as they were, or starts that engine, or is the reset input. -/
theorem hostStep_engines {c : HostCmd} {s t : State} (h : hostStep c s = .next t) :
    t.cfg = s.cfg ∧ t.agenda = s.agenda ∧
    ((t.enc = s.enc ∧ t.bytesOut = s.bytesOut) ∨ (∃ hin win, c = .encStart hin win ∧ t = startEncoder hin win s) ∨
      (c = .reset ∧ t = hardwareReset s)) ∧
    ((t.dec = s.dec ∧ t.gridOut = s.gridOut) ∨ (∃ l, c = .decStart l ∧ t = startDecoder l s) ∨
      (c = .reset ∧ t = hardwareReset s)) := by
  cases c with
  | encStart hin win =>
    simp only [hostStep] at h
    split_ifs at h
    cases h
    exact ⟨rfl, rfl, .inr (.inl ⟨_, _, rfl, rfl⟩), .inl ⟨rfl, rfl⟩⟩
  | decStart l =>
    simp only [hostStep] at h
    split_ifs at h
    cases h
    exact ⟨rfl, rfl, .inl ⟨rfl, rfl⟩, .inr (.inl ⟨_, rfl, rfl⟩)⟩
  | writeGridIn r c p =>
    simp only [hostStep] at h
    split_ifs at h
    cases h
    exact ⟨rfl, rfl, .inl ⟨rfl, rfl⟩, .inl ⟨rfl, rfl⟩⟩
  | writeBytesIn a b =>
    simp only [hostStep] at h
    split_ifs at h
    cases h
    exact ⟨rfl, rfl, .inl ⟨rfl, rfl⟩, .inl ⟨rfl, rfl⟩⟩
  | readReg r =>
    cases h
    cases r <;> simp only [readReg] <;> (try split_ifs) <;> exact ⟨rfl, rfl, .inl ⟨rfl, rfl⟩, .inl ⟨rfl, rfl⟩⟩
  | writeReg r v =>
    cases h
    exact ⟨rfl, rfl, .inl ⟨rfl, rfl⟩, .inl ⟨rfl, rfl⟩⟩
  | readBytesOut a =>
    simp only [hostStep, readBytesOut] at h
    split_ifs at h
    · split at h <;> cases h <;> exact ⟨rfl, rfl, .inl ⟨rfl, rfl⟩, .inl ⟨rfl, rfl⟩⟩
    · cases h
      exact ⟨rfl, rfl, .inl ⟨rfl, rfl⟩, .inl ⟨rfl, rfl⟩⟩
  | readGridOut i =>
    simp only [hostStep, readGridOut] at h
    split_ifs at h
    · split at h <;> cases h <;> exact ⟨rfl, rfl, .inl ⟨rfl, rfl⟩, .inl ⟨rfl, rfl⟩⟩
    · cases h
      exact ⟨rfl, rfl, .inl ⟨rfl, rfl⟩, .inl ⟨rfl, rfl⟩⟩
  | reset =>
    cases h
    exact ⟨rfl, rfl, .inr (.inr ⟨rfl, rfl⟩), .inr (.inr ⟨rfl, rfl⟩)⟩

/-! ## What the invariant's parts depend on -/

/-- The encoder's part depends on the encoder and its stream only. -/
theorem EncInv.congr {s t : State} (h1 : t.enc = s.enc) (h2 : t.bytesOut = s.bytesOut) (h : EncInv s) : EncInv t := by
  have sized : EncSized s → EncSized t := fun q =>
    ⟨h1 ▸ q.hin, h1 ▸ q.win, h1 ▸ q.h, h1 ▸ q.w, h1 ▸ q.n, h1 ▸ h2 ▸ q.filled⟩
  refine ⟨h1 ▸ h.slots, h1 ▸ h.code, h1 ▸ h.error, fun a b => ?_, fun a b => ?_, fun a => ?_⟩
  · rw [h1] at a b
    obtain ⟨x1, x2, x3, x4, x5⟩ := h.fresh a b
    exact ⟨h1 ▸ x1, h1 ▸ x2, h1 ▸ x3, h1 ▸ x4, h1 ▸ x5⟩
  · rw [h1] at a b
    obtain ⟨x0, x1, x2, x3, x4, x5⟩ := h.pixels a b
    exact ⟨sized x0, h1 ▸ x1, h1 ▸ x2, h1 ▸ x3, h1 ▸ x4, h1 ▸ x5⟩
  · rw [h1] at a
    obtain ⟨x0, x1, x2, x3, x4⟩ := h.finished a
    exact ⟨sized x0, h1 ▸ x1, h1 ▸ x2, h1 ▸ x3, h1 ▸ x4⟩

/-- The decoder's part depends on the decoder, its grid and the build only. -/
theorem DecInv.congr {s t : State} (h1 : t.dec = s.dec) (h2 : t.gridOut = s.gridOut) (h3 : t.cfg = s.cfg) (h : DecInv s) :
    DecInv t := by
  have ops : DecOps s → DecOps t := fun q => ⟨h1 ▸ q.n, h1 ▸ q.header, h1 ▸ q.rp, h1 ▸ q.cur, h1 ▸ h2 ▸ q.filled⟩
  refine ⟨h1 ▸ h.slots, h1 ▸ h.code, h1 ▸ h.error, h1 ▸ h3 ▸ h.length, fun a b => ?_, fun a b => ?_, fun a => ?_⟩
  · rw [h1] at a b
    obtain ⟨x1, x2, x3, x4, x5, x6, x7⟩ := h.fresh a b
    exact ⟨h1 ▸ x1, h1 ▸ x2, h1 ▸ x3, h1 ▸ x4, h1 ▸ x5, h1 ▸ x6, h1 ▸ x7⟩
  · rw [h1] at a b
    exact ops (h.ops a b)
  · rw [h1] at a
    obtain ⟨x0, x1, x2⟩ := h.finished a
    exact ⟨ops x0, h1 ▸ x1, by rw [h1, h3]; exact x2⟩

/-- The slot invariant survives a store at the pixel's own hash (41_cache.md rules R121, R126). -/
theorem slotsHashed_store {c : Cache} (h : SlotsHashed c) (p : Pixel) : SlotsHashed (cacheStore c (hashPixel p) p) := by
  intro k
  by_cases hk : k = hashPixel p
  · subst hk
    right
    simp
  · rw [cacheLookup_store_other _ _ hk]
    exact h k

/-- A cleared cache has it. -/
theorem slotsHashed_cleared : SlotsHashed cacheCleared := fun k => .inl (by simp)

end Sys2Proof.Machine
end

