-- ==== Sys2Proof/Tests/Slice0.lean ====
section
/-! SUPPORT. Small tests on fixed values, and for every statement with hypotheses a witness that meets them. Expected values
come from spec/30_encoding.md rules R73 to R86 and spec/95_test_vectors.md, never from the model. -/

namespace Sys2Proof.Tests

open Sys2Proof.Machine

/-! ## Well-formedness refuses (R85) -/

theorem test_wf_small_dr_below : (Instr.small (-3) 0 0).wf = false := by decide
theorem test_wf_small_dr_above : (Instr.small 2 0 0).wf = false := by decide
theorem test_wf_small_dg_above : (Instr.small 0 2 0).wf = false := by decide
theorem test_wf_small_db_below : (Instr.small 0 0 (-3)).wf = false := by decide
theorem test_wf_med_dr_below : (Instr.med (-33) 0 0).wf = false := by decide
theorem test_wf_med_dr_above : (Instr.med 32 0 0).wf = false := by decide
theorem test_wf_med_dg_above : (Instr.med 0 8 0).wf = false := by decide
theorem test_wf_med_db_below : (Instr.med 0 0 (-9)).wf = false := by decide
theorem test_wf_run_zero : (Instr.run 0).wf = false := by decide
theorem test_wf_run_64 : (Instr.run 64).wf = false := by decide

/-! ## Decoding: words written out from the tables of R70 and R73 to R77 -/

/-- `00 010110`: CACHE, idx 22. -/
theorem test_decode_cache : decode .opStream [0b00010110#8] = .ok (.cache 22, []) := by decide
/-- `01 01 10 11`: SMALL, fields 1, 2, 3, bias 2. -/
theorem test_decode_small : decode .opStream [0b01011011#8] = .ok (.small (-1) 0 1, []) := by decide
/-- `10 100101 1101 0001`: MED, fields 37, 13, 1, biases 32 and 8. -/
theorem test_decode_med : decode .opStream [0b10100101#8, 0b11010001#8] = .ok (.med 5 5 (-7), []) := by decide
/-- `11 000010`: RUN of 3. -/
theorem test_decode_run : decode .opStream [0b11000010#8] = .ok (.run 3, []) := by decide
/-- `11 111110`: RUN of 63, the last byte that is a RUN (R84 (a)). -/
theorem test_decode_run_63 : decode .opStream [0b11111110#8] = .ok (.run 63, []) := by decide
/-- `11111111` and three channel bytes: RAW. -/
theorem test_decode_raw : decode .opStream [0b11111111#8, 0x01#8, 0xFF#8, 0x03#8] = .ok (.raw 1 255 3, []) := by decide
/-- Big-endian height 0x0102 and width 0xFF00: HDR, though a byte of it is 0xFF. -/
theorem test_decode_hdr : decode .start [0x01#8, 0x02#8, 0xFF#8, 0x00#8] = .ok (.hdr 0x0102 0xFF00, []) := by decide
theorem test_decode_what_follows_is_left : decode .opStream [0x16#8, 0xFF#8] = .ok (.cache 22, [0xFF#8]) := by decide
theorem test_decode_med_truncated : decode .opStream [0x80#8] = .error .truncatedOp := by decide
theorem test_decode_raw_truncated : decode .opStream [0xFF#8, 1#8, 2#8] = .error .truncatedOp := by decide
theorem test_decode_hdr_truncated : decode .start [0#8, 1#8, 0#8] = .error .truncatedHeader := by decide
theorem test_decode_nothing : decode .opStream [] = .error .empty := by decide

/-! ## The table's numbering -/

theorem test_table_hdr : decodeTableWord 32 0x03000100 = some (.hdr 1 3) := by decide
theorem test_table_cache : decodeTableWord 8 0x16 = some (.cache 22) := by decide
theorem test_table_small : decodeTableWord 8 0x55 = some (.small (-1) (-1) (-1)) := by decide
theorem test_table_med : decodeTableWord 16 0xDDA5 = some (.med 5 5 5) := by decide
theorem test_table_run : decodeTableWord 8 0xC2 = some (.run 3) := by decide
theorem test_table_raw : decodeTableWord 32 0x0C0B0AFF = some (.raw 10 11 12) := by decide

/-! ## Small states -/

/-- The state a step ends in. -/
def nextOf : Result → Option State
  | .next t => some t
  | .fault _ => none
  | .refused _ => none

/-- A decoder of a grid of one row of n pixels, between ops: cursor, read pointer and previous pixel as given, the buffer
exactly these bytes. -/
def decOps (n cur rp : Nat) (prev : Pixel) (bs : List Byte) : State :=
  { State.reset with
    dec := { Dec.reset with phase := .busy, stage := .ops, prev := prev, l := bs.length, rp := rp, cur := cur, h := 1,
                            w := BitVec.ofNat 16 n, n := n }
    bytesIn := layBytes 0 bs [] }

/-- A decoder before its header. -/
def decHdr (bs : List Byte) : State :=
  { State.reset with dec := { Dec.reset with phase := .busy, l := bs.length }, bytesIn := layBytes 0 bs [] }

/-- An encoder of a grid of one row of n pixels, about to take pixel i, which is p. -/
def encPix (n i run : Nat) (prev : Pixel) (c : Cache) (p : Pixel) : State :=
  { State.reset with
    enc := { Enc.reset with phase := .busy, stage := .pix, prev := prev, cache := c, run := run, i := i, outlen := 4,
                            hin := 1, win := BitVec.ofNat 32 n, h := 1, w := BitVec.ofNat 16 n, n := n }
    gridIn := [(i, p)]
    bytesOut := [(0, 0x00), (1, 0x01), (2, 0x00), (3, BitVec.ofNat 8 n)] }

/-- An encoder before its header step. -/
def encHdr (hin win : BitVec 32) : State := startEncoder hin win State.reset

/-- `RAW 10, 10, 10` stored at slot 22. -/
def cache22 : Cache := cacheStore cacheCleared 22 ⟨10, 10, 10⟩

/-! ## The decoder's instructions -/

/-- `00 02 00 02` gives H = 2, W = 2, N = 4 (R161). -/
theorem test_hdr_2_2 : (nextOf (exec (.hdr 2 2) (decHdr [0, 2, 0, 2]))).map (fun t => (t.dec.h, t.dec.w, t.dec.n, t.dec.rp)) =
    some (2, 2, 4, 4) := by decide
/-- `FF 0A 0A 0A` at cursor 0 (R165): cell 0 and slot 22. -/
theorem test_raw_cell : (nextOf (exec (.raw 10 10 10) (decOps 4 0 4 Pixel.zero [0, 1, 0, 4, 0xFF, 10, 10, 10]))).map
    (fun t => (Memory.read t.gridOut 0, cacheLookup t.dec.cache 22, t.dec.rp, t.dec.cur)) =
    some (some ⟨10, 10, 10⟩, ⟨10, 10, 10⟩, 8, 1) := by decide
/-- `C2` at cursor 1 of a 4-pixel grid with prev (10,10,10) writes cells 1, 2, 3 (R166). -/
theorem test_run_cells : (nextOf (exec (.run 3) (decOps 4 1 8 ⟨10, 10, 10⟩ [0, 1, 0, 4, 0xFF, 10, 10, 10, 0xC2]))).map
    (fun t => (t.gridOut, t.dec.cur, t.dec.rp)) =
    some ([(1, ⟨10, 10, 10⟩), (2, ⟨10, 10, 10⟩), (3, ⟨10, 10, 10⟩)], 4, 9) := by decide
/-- A run of 2 into a 1-cell grid: GridOverrun, nothing written (spec/95_test_vectors.md section 2.6). -/
theorem test_run_overrun : (nextOf (exec (.run 2) (decOps 1 0 4 Pixel.zero [0, 1, 0, 1, 0xC1]))).map
    (fun t => (t.decStatus, t.dec.cur, t.gridOut)) = some (0x17, 0, []) := by decide
/-- `55` with prev (100,100,100) writes (99,99,99) (R167). -/
theorem test_small_cell : (nextOf (exec (.small (-1) (-1) (-1)) (decOps 3 1 8 ⟨100, 100, 100⟩ []))).map
    (fun t => (Memory.read t.gridOut 1, t.dec.prev, cacheLookup t.dec.cache 13, t.dec.rp)) =
    some (some ⟨99, 99, 99⟩, ⟨99, 99, 99⟩, ⟨99, 99, 99⟩, 9) := by decide
/-- SMALL (1,1,1) on (255,255,255): CorruptStream, status 0x13 (spec/95_test_vectors.md program P4). -/
theorem test_small_corrupt : (nextOf (exec (.small 1 1 1) (decOps 3 1 8 ⟨255, 255, 255⟩ []))).map
    (fun t => (t.decStatus, t.dec.rp, t.dec.cur)) = some (0x13, 8, 1) := by decide
/-- `BF FF` on ZERO writes (31,7,7) (R168). -/
theorem test_med_cell : (nextOf (exec (.med 31 7 7) (decOps 1 0 4 Pixel.zero [0, 1, 0, 1, 0xBF, 0xFF]))).map
    (fun t => (Memory.read t.gridOut 0, cacheLookup t.dec.cache 49, t.dec.rp)) =
    some (some ⟨31, 7, 7⟩, ⟨31, 7, 7⟩, 6) := by decide
/-- `16` after slot 22 received (10,10,10) (R169). -/
theorem test_cache_cell : (nextOf (exec (.cache 22)
    { decOps 3 2 12 ⟨20, 20, 20⟩ [] with dec := { (decOps 3 2 12 ⟨20, 20, 20⟩ []).dec with cache := cache22 } })).map
    (fun t => (Memory.read t.gridOut 2, t.dec.prev, t.dec.cur, t.dec.rp)) =
    some (some ⟨10, 10, 10⟩, ⟨10, 10, 10⟩, 3, 13) := by decide
/-- An unwritten slot yields ZERO (R169). -/
theorem test_cache_unwritten : (nextOf (exec (.cache 63) (decOps 3 0 4 ⟨9, 9, 9⟩ []))).map
    (fun t => (Memory.read t.gridOut 0, t.dec.prev)) = some (some Pixel.zero, Pixel.zero) := by decide

/-! ## The decoder's errors (spec/95_test_vectors.md section 2.6) -/

theorem test_truncated_header : (nextOf (decTurn (decHdr [0, 1, 0]))).map (fun t => (t.decStatus, t.dec.rp)) =
    some (0x0B, 0) := by decide
theorem test_truncated_op_before_range : (nextOf (decTurn (decOps 2 0 4 Pixel.zero [0, 1, 0, 2, 0x81]))).map
    (fun t => (t.decStatus, t.dec.rp, t.dec.cur)) = some (0x0F, 4, 0) := by decide
theorem test_trailing_bytes_strict : (nextOf (decTurn (decOps 1 1 5 Pixel.zero [0, 1, 0, 1, 0xC0, 0xC0]))).map
    (fun t => (t.decStatus, t.dec.rp)) = some (0x17, 5) := by decide
theorem test_trailing_bytes_lax : (nextOf (decTurn
    { decOps 1 1 5 Pixel.zero [0, 1, 0, 1, 0xC0, 0xC0] with cfg := ⟨false, 35⟩ })).map
    (fun t => (t.decStatus, t.dec.rp)) = some (0x02, 5) := by decide
theorem test_truncated_stream : (nextOf (decTurn (decOps 2 1 5 Pixel.zero [0, 1, 0, 2, 0xC0]))).map
    (fun t => (t.decStatus, t.dec.rp)) = some (0x1B, 5) := by decide

/-! ## The encoder's steps (spec/42_encoder.md, spec/95_test_vectors.md sections 2.3 and 2.4) -/

theorem test_enc_dimension_overflow : (nextOf (encTurn (encHdr 65536 1))).map (fun t => (t.encStatus, t.enc.outlen)) =
    some (0x07, 0) := by decide
theorem test_enc_header : (nextOf (encTurn (encHdr 2 0x0102))).map (fun t => (t.bytesOut, t.enc.n)) =
    some ([(0, 0x00), (1, 0x02), (2, 0x01), (3, 0x02)], 516) := by decide
/-- The 62nd equal pixel emits FD (R136). -/
theorem test_enc_run_cap : (nextOf (encTurn (encPix 64 61 61 Pixel.zero cacheCleared Pixel.zero))).map
    (fun t => (Memory.read t.bytesOut 4, t.enc.outlen, t.enc.run, t.enc.i)) = some (some 0xFD, 5, 0, 62) := by decide
/-- Pixels (0,0,0), (255,255,255): `C0`, then `FF FF FF FF` (R137, R142). -/
theorem test_enc_run_ends_raw : (nextOf (encTurn (encPix 2 1 1 Pixel.zero cacheCleared ⟨255, 255, 255⟩))).map
    (fun t => (t.bytesOut.drop 4, cacheLookup t.enc.cache 49)) =
    some ([(4, 0xC0), (5, 0xFF), (6, 0xFF), (7, 0xFF), (8, 0xFF)], ⟨255, 255, 255⟩) := by decide
/-- Slot 22 holds (10,10,10): `16` (R138). -/
theorem test_enc_cache_hit : (nextOf (encTurn (encPix 3 2 0 ⟨20, 20, 20⟩ cache22 ⟨10, 10, 10⟩))).map
    (fun t => (t.bytesOut.drop 4, t.enc.prev)) = some ([(4, 0x16)], ⟨10, 10, 10⟩) := by decide
/-- (99,99,99) after (100,100,100): `55` (R140). -/
theorem test_enc_small : (nextOf (encTurn (encPix 3 1 0 ⟨100, 100, 100⟩ cacheCleared ⟨99, 99, 99⟩))).map
    (fun t => (t.bytesOut.drop 4, cacheLookup t.enc.cache 13)) = some ([(4, 0x55)], ⟨99, 99, 99⟩) := by decide
/-- (8,2,2) after (40,10,10): `80 00` (R141). -/
theorem test_enc_med : (nextOf (encTurn (encPix 2 1 0 ⟨40, 10, 10⟩ cacheCleared ⟨8, 2, 2⟩))).map
    (fun t => (t.bytesOut.drop 4, cacheLookup t.enc.cache 48)) = some ([(4, 0x80), (5, 0x00)], ⟨8, 2, 2⟩) := by decide
theorem test_enc_flush_run : (nextOf (encTurn (encPix 4 4 3 Pixel.zero cacheCleared Pixel.zero))).map
    (fun t => (t.bytesOut.drop 4, t.encStatus)) = some ([(4, 0xC2)], 0x02) := by decide

/-! ## The pixel model (spec/95_test_vectors.md sections 2.1 and 2.2) -/

theorem test_hash_collision : hashPixel ⟨1, 0, 0⟩ = 3 ∧ hashPixel ⟨0, 2, 63⟩ = 3 := by decide
theorem test_hash_values : hashPixel ⟨255, 255, 255⟩ = 49 ∧ hashPixel ⟨200, 100, 50⟩ = 42 ∧ hashPixel ⟨0, 0, 255⟩ = 57 := by
  decide
theorem test_diff_no_wrap : diff ⟨0, 0, 0⟩ ⟨255, 255, 255⟩ = ⟨-255, -255, -255⟩ := by decide

/-! ## The host and the machine's step -/

/-- `withFetchWord` runs the word as the first instruction after reset. -/
theorem test_step_runs_table_word :
    (nextOf (step (State.reset.withFetchWord 16 0xDDA5))).map (fun t => (t.dec.prev, t.dec.rp)) = some (⟨5, 5, 5⟩, 2) := by
  decide
theorem test_step_runs_table_header :
    (nextOf (step (State.reset.withFetchWord 32 0x03000100))).map (fun t => (t.dec.h, t.dec.w, t.dec.n)) =
    some (1, 3, 3) := by decide
theorem test_host_start : (nextOf (hostStep (.encStart 1 3) State.reset)).map (fun t => (t.encStatus, t.enc.outlen)) =
    some (0x01, 0) := by decide
theorem test_agenda_runs_host_command :
    (nextOf (step { State.reset with agenda := [.host (.decStart 9), .dec] })).map (fun t => (t.decStatus, t.agenda)) =
    some (0x01, [.dec]) := by decide

/-! ## Witnesses: the hypotheses of each statement can be met, each clause at a boundary of its range -/

/-! Encoding and pixel model. -/

theorem test_witness_DecodeOfEncode : (Instr.hdr 0xFFFF 0).wf = true ∧ (Instr.cache 63).wf = true ∧
    (Instr.small (-2) 1 0).wf = true ∧ (Instr.med (-32) 7 (-8)).wf = true ∧ (Instr.run 1).wf = true ∧
    (Instr.run 63).wf = true ∧ (Instr.raw 255 0 1).wf = true := by decide
theorem test_witness_DecodedBytes : decode .start [1, 2, 3, 4, 5] = .ok (.hdr 0x0102 0x0304, [5]) ∧
    decode .opStream [0xBF, 0xFF, 0x00] = .ok (.med 31 7 7, [0x00]) := by decide
/-- Both ends of every range of R81. -/
theorem test_witness_FirstByteMap : opKind 0x00 = .cache ∧ opKind 0x3F = .cache ∧ opKind 0x40 = .small ∧
    opKind 0x7F = .small ∧ opKind 0x80 = .med ∧ opKind 0xBF = .med ∧ opKind 0xC0 = .run ∧ opKind 0xFE = .run ∧
    opKind 0xFF = .raw := by decide
/-- Sums 0 and 255 reconstruct, -1 and 256 fail. -/
theorem test_witness_Reconstruction : recon ⟨2, 254, 9⟩ ⟨-2, 1, 0⟩ = some ⟨0, 255, 9⟩ ∧
    recon ⟨2, 254, 9⟩ ⟨-3, 0, 0⟩ = none ∧ recon ⟨2, 254, 9⟩ ⟨0, 2, 0⟩ = none := by decide
theorem test_witness_Bands : fitsSmall ⟨1, 1, -2⟩ = true ∧ (fitsSmall ⟨2, 0, 0⟩ = false ∧ fitsMed ⟨2, 0, 0⟩ = true) ∧
    fitsMed ⟨31, 8, 0⟩ = false := by decide

/-! Commands and host. -/

theorem test_witness_starts : State.reset.enc.phase ≠ .busy ∧ State.reset.dec.phase ≠ .busy ∧
    2 ^ 35 - 1 < 2 ^ State.reset.cfg.addrWidth := by decide
/-- A length just too wide, for a decoder that is not BUSY and for one that is (`StartsKeepOutputsAndLengthsFit`). -/
theorem test_witness_wide_length : State.reset.dec.phase ≠ .busy ∧ 2 ^ State.reset.cfg.addrWidth ≤ 2 ^ 35 ∧
    (decHdr []).dec.phase = .busy ∧ 2 ^ (decHdr []).cfg.addrWidth ≤ 2 ^ 35 := by decide
theorem test_witness_busy : (encHdr 1 1).enc.phase = .busy ∧ (decHdr []).dec.phase = .busy := by decide
/-- Two positions of the grid that differ in one coordinate. -/
theorem test_witness_InputWrites : State.reset.enc.phase ≠ .busy ∧ ((0 : BitVec 32) ≠ 0 ∨ (0xFFFFFFFF : BitVec 32) ≠ 0) := by
  decide

/-- Both engines finished: an empty grid encoded, one ZERO pixel decoded. -/
def finished : State :=
  { State.reset with
    enc := { Enc.reset with phase := .done, stage := .pix, outlen := 4, win := 5, w := 5 }
    dec := { Dec.reset with phase := .done, stage := .ops, l := 5, rp := 5, cur := 1, h := 1, w := 1, n := 1 }
    bytesOut := [(0, 0), (1, 0), (2, 0), (3, 5)]
    gridOut := [(0, Pixel.zero)] }

theorem filled_four : Filled finished.bytesOut 4 := by
  unfold Filled
  decide

theorem filled_one : Filled finished.gridOut 1 := by
  unfold Filled
  decide

theorem test_witness_FinishedOutputs : Invariant finished ∧ finished.enc.phase = .done ∧ 3 < finished.enc.outlen ∧
    finished.dec.phase = .done ∧ 0 < pixelCount finished.dec.h finished.dec.w := by
  refine ⟨⟨rfl, rfl, rfl, rfl, ?_, ?_⟩, rfl, by decide, rfl, by decide⟩
  · exact ⟨fun _ => slotsHashed_cleared, .inl rfl, by decide, nofun, nofun,
      fun _ => ⟨⟨by decide, by decide, rfl, rfl, rfl, filled_four⟩, rfl, rfl, by decide, by decide⟩⟩
  · exact ⟨fun _ => slotsHashed_cleared, by decide, by decide, by decide, nofun, nofun,
      fun _ => ⟨⟨rfl, by decide, by decide, by decide, filled_one⟩, rfl, fun _ => rfl⟩⟩
theorem test_witness_HostReads : (encHdr 1 1).enc.phase = .busy ∧ (decHdr []).dec.phase = .busy ∧
    (finished.enc.phase = .done ∧ finished.enc.outlen ≤ 4) ∧ (finished.dec.phase = .done ∧ finished.dec.n ≤ 1) := by decide
theorem test_witness_start_next : (∃ t, hostStep (.encStart 1 3) finished = .next t) ∧
    ∃ t, hostStep (.decStart 5) finished = .next t := ⟨⟨_, rfl⟩, ⟨_, rfl⟩⟩
theorem test_witness_host_read_next : ∃ t, hostStep (.readReg .encOutlen) finished = .next t := ⟨_, rfl⟩

theorem test_witness_Agenda : (EncoderAlone (encHdr 1 1) ∧ (encHdr 1 1).enc.phase = .busy) ∧
    (DecoderAlone (decHdr []) ∧ (decHdr []).dec.phase = .busy) ∧
    (State.reset.agenda = [] ∧ State.reset.enc.phase ≠ .busy ∧ State.reset.dec.phase ≠ .busy) ∧
    { State.reset with agenda := [.enc] }.agenda = [.enc] :=
  ⟨⟨⟨rfl, by decide⟩, rfl⟩, ⟨⟨rfl, by decide⟩, rfl⟩, ⟨rfl, by decide, by decide⟩, rfl⟩

/-! The decoder's instructions: a buffer one byte short, and one just long enough. -/

theorem test_witness_Header : (decHdr [0, 1, 0]).dec.l < 4 ∧ 4 ≤ (decHdr [0, 1, 0, 1]).dec.l := by decide
theorem test_witness_Raw : (decOps 1 0 4 Pixel.zero [0, 1, 0, 1, 0xFF, 1, 2]).dec.l < 4 + 4 ∧
    (4 + 4 ≤ (decOps 1 0 4 Pixel.zero [0, 1, 0, 1, 0xFF, 1, 2, 3]).dec.l ∧
     (decOps 1 0 4 Pixel.zero [0, 1, 0, 1, 0xFF, 1, 2, 3]).dec.cur < 1) := by decide
theorem test_witness_Run : (decOps 4 1 4 Pixel.zero []).dec.n < 1 + 4 ∧ 1 + 3 ≤ (decOps 4 1 4 Pixel.zero []).dec.n := by decide
theorem test_witness_Small : recon (decOps 1 0 4 Pixel.zero []).dec.prev ⟨-1, 0, 0⟩ = none ∧
    recon (decOps 1 0 4 Pixel.zero []).dec.prev ⟨0, 1, 1⟩ = some ⟨0, 1, 1⟩ ∧ (decOps 1 0 4 Pixel.zero []).dec.cur < 1 := by
  decide
theorem test_witness_Med : (decOps 1 0 4 Pixel.zero [0, 1, 0, 1, 0x80]).dec.l < 4 + 2 ∧
    4 + 2 ≤ (decOps 1 0 4 Pixel.zero [0, 1, 0, 1, 0x80, 0]).dec.l ∧
    recon (decOps 1 0 4 Pixel.zero [0, 1, 0, 1, 0x80, 0]).dec.prev ⟨-32, -8, -8⟩ = none ∧
    recon (decOps 1 0 4 Pixel.zero [0, 1, 0, 1, 0xBF, 0xFF]).dec.prev ⟨31, 7, 7⟩ = some ⟨31, 7, 7⟩ ∧
    (decOps 1 0 4 Pixel.zero [0, 1, 0, 1, 0xBF, 0xFF]).dec.cur < 1 := by decide
theorem test_witness_CacheOp : (decOps 1 0 4 Pixel.zero []).dec.cur < (decOps 1 0 4 Pixel.zero []).dec.n := by decide
/-- A full grid, and the fault that follows. -/
theorem test_witness_CellsOutside : (decOps 1 1 4 Pixel.zero [0, 1, 0, 1, 0xFF, 1, 2, 3]).dec.n ≤ 1 ∧
    4 + 4 ≤ (decOps 1 1 4 Pixel.zero [0, 1, 0, 1, 0xFF, 1, 2, 3]).dec.l ∧
    recon (decOps 1 1 4 Pixel.zero [0, 1, 0, 1, 0xFF, 1, 2, 3]).dec.prev ⟨1, 1, 1⟩ = some ⟨1, 1, 1⟩ := by decide
/-- A RUN that fills the grid completes, with the cell after it outside. -/
theorem test_witness_exec_completes : (∃ t, exec (.run 2) (decOps 2 0 4 Pixel.zero []) = .next t) ∧
    (decOps 2 0 4 Pixel.zero []).dec.n ≤ 2 := ⟨⟨_, rfl⟩, by decide⟩
theorem test_witness_exec_faults : exec (.cache 0) (decOps 1 1 4 Pixel.zero []) = .fault .gridOutOutOfRange := rfl

/-! The decoder's steps. -/

/-- `00 01 00 03`, then `C1 80 00 FF`: a header; RUN 2 at offset 4; MED (-32,-8,-8) at 5. -/
def streamBytes : List Byte := [0x00, 0x01, 0x00, 0x03, 0xC1, 0x80, 0x00, 0xFF]

theorem instrAt_hdr : InstrAt .start 0 (.hdr 1 3) (decHdr streamBytes) :=
  ⟨[0x00, 0x01, 0x00, 0x03], by decide, by unfold HoldsBytes; decide, by decide⟩
theorem instrAt_run : InstrAt .opStream 4 (.run 2) (decOps 1 0 4 Pixel.zero streamBytes) :=
  ⟨[0xC1], by decide, by unfold HoldsBytes; decide, by decide⟩
theorem instrAt_med : InstrAt .opStream 5 (.med (-32) (-8) (-8)) (decOps 1 0 5 Pixel.zero streamBytes) :=
  ⟨[0x80, 0x00], by decide, by unfold HoldsBytes; decide, by decide⟩

theorem test_witness_StepRuns_header : (decHdr streamBytes).dec.phase = .busy ∧ (decHdr streamBytes).dec.stage = .hdr ∧
    InstrAt .start 0 (.hdr 1 3) (decHdr streamBytes) ∧ DecoderAlone (decHdr streamBytes) :=
  ⟨rfl, rfl, instrAt_hdr, rfl, by decide⟩
theorem test_witness_StepRuns_op : OpNext (decOps 1 0 4 Pixel.zero streamBytes) ∧
    InstrAt .opStream 4 (.run 2) (decOps 1 0 4 Pixel.zero streamBytes) :=
  ⟨⟨rfl, rfl, by decide, by decide⟩, instrAt_run⟩
theorem test_witness_StepRuns_agenda : OpNext { decOps 1 0 4 Pixel.zero streamBytes with agenda := [.dec] } ∧
    InstrAt .opStream 4 (.run 2) { decOps 1 0 4 Pixel.zero streamBytes with agenda := [.dec] } :=
  ⟨⟨rfl, rfl, by decide, by decide⟩, [0xC1], by decide, by unfold HoldsBytes; decide, by decide⟩
theorem test_witness_Completion_strict : (decOps 1 1 5 Pixel.zero [0, 1, 0, 1, 0xC0, 0xC0]).cfg.strictTrailing = true ∧
    (decOps 1 1 5 Pixel.zero [0, 1, 0, 1, 0xC0, 0xC0]).dec.cur = (decOps 1 1 5 Pixel.zero [0, 1, 0, 1, 0xC0, 0xC0]).dec.n ∧
    5 < (decOps 1 1 5 Pixel.zero [0, 1, 0, 1, 0xC0, 0xC0]).dec.l := by decide
theorem test_witness_Completion_done : (decOps 1 1 5 Pixel.zero [0, 1, 0, 1, 0xC0]).dec.l ≤ 5 ∧
    (decOps 1 1 5 Pixel.zero [0, 1, 0, 1, 0xC0]).dec.cur = (decOps 1 1 5 Pixel.zero [0, 1, 0, 1, 0xC0]).dec.n := by decide
theorem test_witness_Exhausted : (decOps 2 1 5 Pixel.zero [0, 1, 0, 2, 0xC0]).dec.cur < 2 ∧
    5 = (decOps 2 1 5 Pixel.zero [0, 1, 0, 2, 0xC0]).dec.l := by decide
theorem test_witness_Checks_truncatedOp : Memory.read (decOps 2 0 4 Pixel.zero [0, 1, 0, 2, 0x81]).bytesIn 4 = some 0x81 ∧
    (decOps 2 0 4 Pixel.zero [0, 1, 0, 2, 0x81]).dec.l < 4 + opLength 0x81 ∧
    4 < (decOps 2 0 4 Pixel.zero [0, 1, 0, 2, 0x81]).dec.l := by decide
theorem test_witness_Checks_run : InstrAt .opStream 4 (.run 2) (decOps 1 0 4 Pixel.zero streamBytes) ∧
    (decOps 1 0 4 Pixel.zero streamBytes).dec.n < 0 + 2 := ⟨instrAt_run, by decide⟩
theorem test_witness_Checks_corrupt : InstrAt .opStream 5 (.med (-32) (-8) (-8)) (decOps 1 0 5 Pixel.zero streamBytes) ∧
    recon (decOps 1 0 5 Pixel.zero streamBytes).dec.prev ⟨-32, -8, -8⟩ = none := ⟨instrAt_med, by decide⟩
/-- A failing turn of each cause (`FailingDecoderStepWritesNothing`, `DecoderErrorsHaveTheirNamedCause`). -/
theorem test_witness_failing_turns :
    (nextOf (decTurn (decHdr [0, 1, 0]))).map (fun t => (t.dec.phase, t.dec.code)) = some (.error, .truncatedHeader) ∧
    (nextOf (decTurn (decOps 2 0 4 Pixel.zero [0, 1, 0, 2, 0x81]))).map (fun t => (t.dec.phase, t.dec.code)) =
      some (.error, .truncatedOp) ∧
    (nextOf (decTurn (decOps 1 0 5 Pixel.zero streamBytes))).map (fun t => (t.dec.phase, t.dec.code)) =
      some (.error, .corruptStream) ∧
    (nextOf (decTurn (decOps 1 0 4 Pixel.zero streamBytes))).map (fun t => (t.dec.phase, t.dec.code)) =
      some (.error, .gridOverrun) ∧
    (nextOf (decTurn (decOps 2 1 5 Pixel.zero [0, 1, 0, 2, 0xC0]))).map (fun t => (t.dec.phase, t.dec.code)) =
      some (.error, .truncatedStream) := by decide
/-- A turn that writes two cells. -/
theorem test_witness_CellsWritten :
    (nextOf (decTurn (decOps 2 0 4 Pixel.zero [0, 1, 0, 2, 0xC1]))).map (fun t => (t.dec.cur, t.gridOut.length)) =
    some (2, 2) := by decide
theorem test_witness_DecoderEnds : DecoderAlone (decHdr [0, 1, 0, 1, 0xC0]) ∧
    5 < 2 ^ (decHdr [0, 1, 0, 1, 0xC0]).cfg.addrWidth ∧ Filled (decHdr [0, 1, 0, 1, 0xC0]).bytesIn 5 :=
  ⟨⟨rfl, by decide⟩, by decide, by unfold Filled; decide⟩

/-! The encoder's steps. -/

theorem test_witness_DimensionCheck : (encHdr 65536 1).enc.phase = .busy ∧ (encHdr 65536 1).enc.stage = .hdr ∧
    (encHdr 65536 1).enc.hin.toNat > 65535 ∧ (encHdr 0 65536).enc.win.toNat > 65535 := by decide
theorem test_witness_HeaderEmission : (encHdr 65535 0).enc.phase = .busy ∧ (encHdr 65535 0).enc.stage = .hdr ∧
    (encHdr 65535 0).enc.hin.toNat ≤ 65535 ∧ (encHdr 65535 0).enc.win.toNat ≤ 65535 := by decide
/-- Run counters 60 and 61: just below the cap, and at it. -/
theorem test_witness_EqualPixel : PixelNext Pixel.zero (encPix 64 60 60 Pixel.zero cacheCleared Pixel.zero) ∧
    PixelNext Pixel.zero (encPix 64 61 61 Pixel.zero cacheCleared Pixel.zero) :=
  ⟨⟨rfl, rfl, by decide, by decide, by decide, by decide, by decide⟩,
   ⟨rfl, rfl, by decide, by decide, by decide, by decide, by decide⟩⟩
theorem test_witness_CacheHit : PixelNext ⟨10, 10, 10⟩ (encPix 3 2 1 ⟨20, 20, 20⟩ cache22 ⟨10, 10, 10⟩) ∧
    (⟨10, 10, 10⟩ : Pixel) ≠ ⟨20, 20, 20⟩ ∧ cacheLookup cache22 (hashPixel ⟨10, 10, 10⟩) = ⟨10, 10, 10⟩ :=
  ⟨⟨rfl, rfl, by decide, by decide, by decide, by decide, by decide⟩, by decide, by decide⟩
theorem test_witness_SmallDifference : PixelNext ⟨1, 1, 1⟩ (encPix 2 1 1 ⟨3, 3, 3⟩ cacheCleared ⟨1, 1, 1⟩) ∧
    (⟨1, 1, 1⟩ : Pixel) ≠ ⟨3, 3, 3⟩ ∧ cacheLookup cacheCleared (hashPixel ⟨1, 1, 1⟩) ≠ ⟨1, 1, 1⟩ ∧
    fitsSmall (diff ⟨1, 1, 1⟩ ⟨3, 3, 3⟩) = true :=
  ⟨⟨rfl, rfl, by decide, by decide, by decide, by decide, by decide⟩, by decide, by decide, by decide⟩
theorem test_witness_MediumDifference : PixelNext ⟨31, 7, 7⟩ (encPix 2 1 1 Pixel.zero cacheCleared ⟨31, 7, 7⟩) ∧
    (⟨31, 7, 7⟩ : Pixel) ≠ Pixel.zero ∧ cacheLookup cacheCleared (hashPixel ⟨31, 7, 7⟩) ≠ ⟨31, 7, 7⟩ ∧
    fitsSmall (diff ⟨31, 7, 7⟩ Pixel.zero) = false ∧ fitsMed (diff ⟨31, 7, 7⟩ Pixel.zero) = true :=
  ⟨⟨rfl, rfl, by decide, by decide, by decide, by decide, by decide⟩, by decide, by decide, by decide, by decide⟩
theorem test_witness_RawPixel : PixelNext ⟨32, 0, 0⟩ (encPix 1 0 0 Pixel.zero cacheCleared ⟨32, 0, 0⟩) ∧
    (⟨32, 0, 0⟩ : Pixel) ≠ Pixel.zero ∧ cacheLookup cacheCleared (hashPixel ⟨32, 0, 0⟩) ≠ ⟨32, 0, 0⟩ ∧
    fitsSmall (diff ⟨32, 0, 0⟩ Pixel.zero) = false ∧ fitsMed (diff ⟨32, 0, 0⟩ Pixel.zero) = false :=
  ⟨⟨rfl, rfl, by decide, by decide, by decide, by decide, by decide⟩, by decide, by decide, by decide, by decide⟩
/-- A flush with a pending run of 61, and one with none. -/
theorem test_witness_Flush : (encPix 64 64 61 Pixel.zero cacheCleared Pixel.zero).enc.i = 64 ∧
    (encPix 64 64 61 Pixel.zero cacheCleared Pixel.zero).enc.run ≤ 61 ∧
    (encPix 0 0 0 Pixel.zero cacheCleared Pixel.zero).enc.i = (encPix 0 0 0 Pixel.zero cacheCleared Pixel.zero).enc.n := by
  decide
theorem test_witness_EmptyGrid : EncoderAlone State.reset ∧ (0 : BitVec 32).toNat ≤ 65535 ∧ (5 : BitVec 32).toNat ≤ 65535 :=
  ⟨⟨rfl, by decide⟩, by decide, by decide⟩
theorem test_witness_StreamIsAppendOnly :
    (nextOf (encTurn (encPix 2 1 1 Pixel.zero cacheCleared ⟨255, 255, 255⟩))).map (fun t => t.enc.outlen) = some 9 := by decide
theorem test_witness_OnlyDimensionOverflow : (nextOf (encTurn (encHdr 65536 1))).map (fun t => t.enc.phase) = some .error := by
  decide

/-- An encoder at the first pixel of a row of two: ZERO, then q. -/
def row2 (q : Pixel) : State :=
  { encPix 2 0 0 Pixel.zero cacheCleared Pixel.zero with gridIn := [(0, Pixel.zero), (1, q)] }

theorem row2_zero_inv : Invariant (row2 Pixel.zero) := by
  have fl : Filled (row2 Pixel.zero).bytesOut 4 := by
    unfold Filled
    decide
  exact ⟨rfl, rfl, rfl, rfl,
    ⟨fun _ => slotsHashed_cleared, .inl rfl, by decide, nofun,
      fun _ _ => ⟨⟨by decide, by decide, rfl, rfl, rfl, fl⟩, by decide, by decide, by decide, by decide, by decide⟩, nofun⟩,
    ⟨fun _ => slotsHashed_cleared, by decide, by decide, by decide, nofun, nofun, nofun⟩⟩

theorem row2_inv (q : Pixel) : Invariant (row2 q) :=
  have h := row2_zero_inv
  ⟨rfl, rfl, rfl, rfl, EncInv.congr (s := row2 Pixel.zero) rfl rfl h.enc,
    DecInv.congr (s := row2 Pixel.zero) rfl rfl rfl h.dec⟩

/-- Two equal pixels to the grid's end. -/
theorem test_witness_EqualPixels_end : Invariant (row2 Pixel.zero) ∧ EncoderAlone (row2 Pixel.zero) ∧
    (row2 Pixel.zero).enc.run = 0 ∧ (row2 Pixel.zero).enc.i + 2 = (row2 Pixel.zero).enc.n ∧
    ∀ j, j < 2 → Memory.read (row2 Pixel.zero).gridIn (gridKey ((0 + j) / 2) ((0 + j) % 2)) = some Pixel.zero :=
  ⟨row2_inv _, ⟨rfl, by decide⟩, rfl, rfl, by decide⟩
/-- One equal pixel, then a different one. -/
theorem test_witness_EqualPixels_broken : Invariant (row2 ⟨5, 5, 5⟩) ∧ EncoderAlone (row2 ⟨5, 5, 5⟩) ∧
    (⟨5, 5, 5⟩ : Pixel) ≠ (row2 ⟨5, 5, 5⟩).enc.prev ∧ (row2 ⟨5, 5, 5⟩).enc.i + 1 < (row2 ⟨5, 5, 5⟩).enc.n ∧
    (∀ j, j < 1 → Memory.read (row2 ⟨5, 5, 5⟩).gridIn (gridKey ((0 + j) / 2) ((0 + j) % 2)) = some Pixel.zero) ∧
    Memory.read (row2 ⟨5, 5, 5⟩).gridIn (gridKey ((0 + 1) / 2) ((0 + 1) % 2)) = some ⟨5, 5, 5⟩ :=
  ⟨row2_inv _, ⟨rfl, by decide⟩, by decide, by decide, by decide, by decide⟩

/-- A host's grid of one pixel (`EncoderNeverFailsAndBoundsItsStream`, `RoundTrip`). -/
theorem test_witness_InputGrid : EncoderAlone { State.reset with gridIn := [(0, ⟨5, 5, 5⟩)] } ∧
    InputGrid (fun _ _ => ⟨5, 5, 5⟩) (1 : BitVec 32).toNat (1 : BitVec 32).toNat
      { State.reset with gridIn := [(0, ⟨5, 5, 5⟩)] } := by
  refine ⟨⟨rfl, by decide⟩, fun row col hr hc => ?_⟩
  have h1 : row = 0 := by simpa using hr
  have h2 : col = 0 := by simpa using hc
  subst h1 h2
  decide
/-- A decoding machine that holds whatever the encoder wrote. -/
theorem test_witness_RoundTrip_copy (t : State) : DecoderAlone { State.reset with bytesIn := t.bytesOut } ∧
    ∀ a, a < t.enc.outlen → Memory.read { State.reset with bytesIn := t.bytesOut }.bytesIn a = Memory.read t.bytesOut a :=
  ⟨⟨rfl, nofun⟩, fun _ _ => rfl⟩

/-! The whole machine. -/

/-- Both engines BUSY, with all their inputs placed. -/
def bothBusy : State :=
  { row2 ⟨5, 5, 5⟩ with
    dec := { Dec.reset with phase := .busy, l := 5 }
    bytesIn := layBytes 0 [0, 1, 0, 1, 0xC0] [] }

theorem bothBusy_inv : Invariant bothBusy :=
  have h := row2_inv ⟨5, 5, 5⟩
  ⟨rfl, rfl, rfl, rfl, EncInv.congr (s := row2 ⟨5, 5, 5⟩) rfl rfl h.enc,
    ⟨fun _ => slotsHashed_cleared, by decide, by decide, by decide, fun _ _ => ⟨rfl, rfl, rfl, rfl, rfl, rfl, rfl⟩, nofun, nofun⟩⟩

theorem test_witness_Dutiful : Invariant bothBusy ∧ InputsPlaced bothBusy ∧ NextAllowed bothBusy := by
  have hg : ∀ row, row < 1 → ∀ col, col < 2 → (Memory.read bothBusy.gridIn (gridKey row col)).isSome = true := by decide
  exact ⟨bothBusy_inv, ⟨fun _ row col hr hc => hg row hr col hc, fun _ => by unfold Filled; decide⟩, nofun⟩
/-- Both engines have a turn (`EngineTurnsCommute`, `EnginesAreIndependent`). -/
theorem test_witness_turns : (∃ a, encTurn bothBusy = .next a) ∧ ∃ b, decTurn bothBusy = .next b := ⟨⟨_, rfl⟩, ⟨_, rfl⟩⟩
/-- A step from a state of the invariant (`EveryStepKeepsTheInvariant`, `SlotsHoldPixelsThatHashToThem`). -/
theorem test_witness_EveryStep : Invariant (row2 Pixel.zero) ∧ (nextOf (step (row2 Pixel.zero))).isSome = true :=
  ⟨row2_inv _, by decide⟩
/-- Before the pixel step of (255,255,255) after a run of one, and a decoder that has room for its five bytes. -/
theorem test_witness_LockStep : PixelNext ⟨255, 255, 255⟩ (encPix 2 1 1 Pixel.zero cacheCleared ⟨255, 255, 255⟩) ∧
    (decOps 2 0 4 Pixel.zero [0, 1, 0, 2, 0xC0, 0xFF, 0xFF, 0xFF, 0xFF]).dec.prev = Pixel.zero ∧
    (decOps 2 0 4 Pixel.zero [0, 1, 0, 2, 0xC0, 0xFF, 0xFF, 0xFF, 0xFF]).dec.cache = cacheCleared ∧
    0 + 1 + 1 ≤ (decOps 2 0 4 Pixel.zero [0, 1, 0, 2, 0xC0, 0xFF, 0xFF, 0xFF, 0xFF]).dec.n ∧
    4 + 5 ≤ (decOps 2 0 4 Pixel.zero [0, 1, 0, 2, 0xC0, 0xFF, 0xFF, 0xFF, 0xFF]).dec.l :=
  ⟨⟨rfl, rfl, by decide, by decide, by decide, by decide, by decide⟩, rfl, rfl, by decide, by decide⟩
/-- A step of a machine with both engines finished, no start and no reset scheduled. -/
theorem test_witness_Persist : (∃ t, step { finished with agenda := [.enc] } = .next t) ∧
    (∀ hin win rest, { finished with agenda := [.enc] }.agenda ≠ Move.host (.encStart hin win) :: rest) ∧
    (∀ l rest, { finished with agenda := [.enc] }.agenda ≠ Move.host (.decStart l) :: rest) ∧
    (∀ rest, { finished with agenda := [.enc] }.agenda ≠ Move.host .reset :: rest) :=
  ⟨⟨_, rfl⟩, nofun, nofun, nofun⟩
/-- Machines that differ in all an engine cannot see, and a turn of that engine. -/
theorem test_witness_EngineTurns :
    (DecoderSeesTheSame bothBusy { bothBusy with enc := Enc.reset, gridIn := [], gridOut := [(0, ⟨1, 2, 3⟩)] } ∧
      ∃ t, decTurn bothBusy = .next t) ∧
    (EncoderSeesTheSame bothBusy { bothBusy with dec := Dec.reset, bytesIn := [], bytesOut := bothBusy.bytesOut ++ [(4, 9)] } ∧
      ∃ t, encTurn bothBusy = .next t) :=
  ⟨⟨⟨rfl, rfl, rfl, fun _ h => absurd h (Nat.not_lt_zero _)⟩, ⟨_, rfl⟩⟩, ⟨⟨rfl, rfl, by decide⟩, ⟨_, rfl⟩⟩⟩
/-- Slots that hash nowhere near their number are allowed before a start, and a start replaces them. -/
theorem test_witness_SlotsBeforeAStart :
    SlotsAfterStart .idle (cacheStore cacheCleared 0 ⟨1, 1, 1⟩) ∧
    ∃ t, step { State.reset with enc := { Enc.reset with cache := cacheStore cacheCleared 0 ⟨1, 1, 1⟩ },
                                 agenda := [.host (.encStart 1 1)] } = .next t :=
  ⟨fun h => absurd rfl h, ⟨_, rfl⟩⟩
/-- Two machines with different pasts and the same inputs. -/
theorem test_witness_ForgetsThePast :
    DecoderAlone finished ∧ DecoderAlone State.reset ∧ EncoderAlone finished ∧ EncoderAlone State.reset ∧
    finished.cfg = State.reset.cfg ∧ finished.bytesIn = State.reset.bytesIn ∧ finished.gridIn = State.reset.gridIn ∧
    finished.dec ≠ State.reset.dec ∧ (∃ t, runSteps 1 (startDecoder 0 finished) = .next t) ∧
    ∃ t, runSteps 1 (startEncoder 0 5 finished) = .next t :=
  ⟨⟨rfl, by decide⟩, ⟨rfl, by decide⟩, ⟨rfl, by decide⟩, ⟨rfl, by decide⟩, rfl, rfl, rfl, by decide, ⟨_, rfl⟩, ⟨_, rfl⟩⟩

end Sys2Proof.Tests
end

section
/-! The statements about the registers and the build (10_state.md): the status word's fields (R35), and what the turns of
the engines and the steps of the machine never write (R39). -/

namespace Sys2Proof.Machine

/-! ## The status word (10_state.md rule R35) -/

/-- The three fields of a status word, for any phase and code bits. -/
theorem status_fields : ∀ (c : BitVec 3) (p : BitVec 2), (0#3 ++ c ++ p).extractLsb' 0 2 = p ∧
    (0#3 ++ c ++ p).extractLsb' 2 3 = c ∧ (0#3 ++ c ++ p).extractLsb' 5 3 = 0 := by decide

@[simp] theorem statusWord_phase (p : Phase) (c : Code) : (statusWord p c).extractLsb' 0 2 = p.toBits :=
  (status_fields c.toBits p.toBits).1

@[simp] theorem statusWord_code (p : Phase) (c : Code) : (statusWord p c).extractLsb' 2 3 = c.toBits :=
  (status_fields c.toBits p.toBits).2.1

@[simp] theorem statusWord_high (p : Phase) (c : Code) : (statusWord p c).extractLsb' 5 3 = 0 :=
  (status_fields c.toBits p.toBits).2.2

/-- Settles O14: the numbers are the definitions', the fields are those of `statusWord`, and a host's access to a status
register is one arm of `hostStep`. -/
theorem statusRegisters : Obligations.StatusRegisters := by
  refine ⟨⟨rfl, rfl, rfl, rfl⟩, ⟨rfl, rfl, rfl, rfl, rfl, rfl, rfl⟩, fun s => ?_, rfl, rfl⟩
  exact ⟨statusWord_phase _ _, statusWord_code _ _, statusWord_high _ _, statusWord_phase _ _, statusWord_code _ _,
    statusWord_high _ _, rfl, rfl, fun v => ⟨rfl, rfl⟩⟩

/-! ## A turn of the decoder -/

/-- Writes of decoder registers and cells stay within the decoder and its output grid. -/
theorem sameButDecoder_update (d : Dec) (m : Memory Pixel) (s : State) :
    SameButDecoder s { s with dec := d, gridOut := m } := ⟨rfl, rfl, rfl, rfl, rfl, rfl, rfl, rfl⟩

/-- The execution of an instruction writes within the decoder and its output grid, and keeps the latched length. -/
theorem exec_frame {i : Instr} {s t : State} (h : exec i s = .next t) : SameButDecoder s t ∧ t.dec.l = s.dec.l := by
  rcases exec_next h with ⟨c, _, _, rfl⟩ | ⟨v, w, _, _, rfl⟩ | ⟨p, b, _, _, _, rfl⟩ | ⟨n, _, _, m, rfl, _, _⟩
  · exact ⟨sameButDecoder_update _ _ s, rfl⟩
  · exact ⟨sameButDecoder_update _ _ s, rfl⟩
  · exact ⟨sameButDecoder_update _ _ s, rfl⟩
  · exact ⟨sameButDecoder_update _ _ s, rfl⟩

theorem decComplete_frame (s : State) : SameButDecoder s (decComplete s) ∧ (decComplete s).dec.l = s.dec.l := by
  unfold decComplete
  split_ifs
  · exact ⟨sameButDecoder_update _ _ s, rfl⟩
  · exact ⟨sameButDecoder_update _ _ s, rfl⟩

/-- A turn of the decoder writes within the decoder and its output grid, and keeps the latched length. -/
theorem decTurn_frame {s t : State} (h : decTurn s = .next t) : SameButDecoder s t ∧ t.dec.l = s.dec.l := by
  rcases decTurn_cases h with ⟨_, rfl⟩ | ⟨_, i, _, he⟩ | ⟨_, c, _, rfl⟩ | ⟨_, _, rfl⟩
  · exact ⟨sameButDecoder_update _ _ t, rfl⟩
  · exact exec_frame he
  · exact ⟨sameButDecoder_update _ _ s, rfl⟩
  · exact decComplete_frame s

/-! ## A turn of the encoder -/

theorem encTurn_frame {s t : State} (h : encTurn s = .next t) : SameButEncoder s t :=
  let ⟨_, he⟩ := encTurn_emits h
  he.frame

/-- The header step reads the latched dimensions and writes neither. -/
theorem encHeaderStep_latches (s : State) :
    (encHeaderStep s).enc.hin = s.enc.hin ∧ (encHeaderStep s).enc.win = s.enc.win := by
  by_cases hd : s.enc.hin.toNat > maxDim ∨ s.enc.win.toNat > maxDim
  · rw [encHeaderStep_raises hd]
    exact ⟨rfl, rfl⟩
  · rw [(encHeaderStep_passes (s := s) (by omega)).2]
    exact ⟨rfl, rfl⟩

/-- So does the pixel step: for an equal pixel below the cap, at the cap, and for a differing pixel. -/
theorem encTakePixel_latches (p : Pixel) (s : State) :
    (encTakePixel p s).enc.hin = s.enc.hin ∧ (encTakePixel p s).enc.win = s.enc.win := by
  by_cases hp : p = s.enc.prev
  · subst hp
    by_cases hr : s.enc.run + 1 = 62
    · rw [(encTakePixel_cap hr).2]
      exact ⟨rfl, rfl⟩
    · rw [encTakePixel_equal hr]
      exact ⟨rfl, rfl⟩
  · rw [(encTakePixel_other hp).2]
    exact ⟨rfl, rfl⟩

/-- A turn of the encoder keeps the latched dimensions. -/
theorem encTurn_latches {s t : State} (h : encTurn s = .next t) :
    t.enc.hin = s.enc.hin ∧ t.enc.win = s.enc.win := by
  rcases encTurn_cases h with ⟨_, rfl⟩ | ⟨_, _, rfl⟩ | ⟨_, _, _, rfl⟩ | ⟨_, _, _, p, _, rfl⟩
  · exact ⟨rfl, rfl⟩
  · exact encHeaderStep_latches s
  · rw [(encFlushStep_emits s).2]
    exact ⟨rfl, rfl⟩
  · exact encTakePixel_latches p s

/-! ## The build (10_state.md rule R39) -/

theorem encTurn_cfg {s t : State} (h : encTurn s = .next t) : t.cfg = s.cfg := (encTurn_frame h).1

theorem decTurn_cfg {s t : State} (h : decTurn s = .next t) : t.cfg = s.cfg :=
  let ⟨⟨hcfg, _⟩, _⟩ := decTurn_frame h
  hcfg

theorem moveStep_cfg {m : Move} {s t : State} (h : moveStep m s = .next t) : t.cfg = s.cfg := by
  cases m with
  | enc => exact encTurn_cfg h
  | dec => exact decTurn_cfg h
  | host c => exact (hostStep_engines h).1

/-- Every step keeps the build: the move it takes does, and so does the agenda's or the free values' bookkeeping. -/
theorem step_cfg {s t : State} (h : step s = .next t) : t.cfg = s.cfg := by
  rcases step_cases s with ⟨m, rest, _, e⟩ | ⟨k, _, _, e⟩ | ⟨k, _, _, e⟩ | e <;> rw [e] at h
  · exact moveStep_cfg (s := { s with agenda := rest }) h
  · exact encTurn_cfg (s := { s with fresh := k }) h
  · exact decTurn_cfg (s := { s with fresh := k }) h
  · cases h
    rfl

/-- Settles O55: the frames of the two turns say that an engine writes itself and its output only, and each keeps its own
latches; every step keeps the build. -/
theorem parametersAndInputsAreNotWritten : Obligations.ParametersAndInputsAreNotWritten := by
  refine ⟨fun s t h => step_cfg h, fun s t h => ?_, fun s t h => ?_⟩
  · obtain ⟨_, hdec, hgrid, hbytes, _⟩ := encTurn_frame h
    obtain ⟨hhin, hwin⟩ := encTurn_latches h
    exact ⟨hgrid, hbytes, hhin, hwin, congrArg Dec.l hdec⟩
  · obtain ⟨⟨_, henc, hgrid, hbytes, _⟩, hlen⟩ := decTurn_frame h
    exact ⟨hgrid, hbytes, congrArg Enc.hin henc, congrArg Enc.win henc, hlen⟩

end Sys2Proof.Machine
end

section
/-! The statements about the encoding (30_encoding.md): the assembled examples of the spec (R86). -/

namespace Sys2Proof.Machine

/-- Settles O3: the list is finite and closed, so `encode` and `decode` are evaluated on each of its fourteen words. -/
theorem assembledExamplesOfTheSpec : Obligations.AssembledExamplesOfTheSpec := by
  unfold Obligations.AssembledExamplesOfTheSpec
  decide

end Sys2Proof.Machine
end

section
/-! The statements about the pixel model (40_pixel_model.md): hash, difference, reconstruction, and the two bands. -/

namespace Sys2Proof.Machine

/-! ## Reconstruction and difference (rules R102, R106) -/

/-- Reconstruction gives p exactly when p's channels are the sums: a channel of a pixel is in [0, 255] by its width. -/
theorem recon_eq_some_iff_sums {q : Pixel} {d : Diff} {p : Pixel} :
    recon q d = some p ↔ (p.r.toNat : Int) = q.r.toNat + d.r ∧ (p.g.toNat : Int) = q.g.toNat + d.g ∧
      (p.b.toNat : Int) = q.b.toNat + d.b := by
  have hr := p.r.isLt
  have hg := p.g.isLt
  have hb := p.b.isLt
  simp only [recon_some, reconLane_some]
  omega

theorem recon_eq_none_iff_sums {q : Pixel} {d : Diff} :
    recon q d = none ↔
      ¬ ((0 ≤ (q.r.toNat : Int) + d.r ∧ (q.r.toNat : Int) + d.r ≤ 255) ∧
         (0 ≤ (q.g.toNat : Int) + d.g ∧ (q.g.toNat : Int) + d.g ≤ 255) ∧
         (0 ≤ (q.b.toNat : Int) + d.b ∧ (q.b.toNat : Int) + d.b ≤ 255)) := by
  simp only [recon_none, reconLane_none, not_and_or]

theorem recon_diff (p q : Pixel) : recon q (diff p q) = some p := by
  rw [recon_eq_some_iff_sums]
  simp only [diff, add_sub_cancel, and_self]

/-- Settles O6: each clause is one characterisation of `recon`, through its lanes. -/
theorem reconstructionIsExactOrFails : Obligations.ReconstructionIsExactOrFails :=
  fun q _ => ⟨fun _ => recon_eq_some_iff_sums.mp, recon_eq_none_iff_sums, fun p => recon_diff p q⟩

/-- Two bytes differ by at most 255, either way. -/
theorem byte_sub_mem_range (x y : Byte) : -255 ≤ (x.toNat : Int) - y.toNat ∧ (x.toNat : Int) - y.toNat ≤ 255 := by
  have hx := x.isLt
  have hy := y.isLt
  omega

/-- Settles O7: the lanes are `diff`'s own, each a difference of two bytes, and `recon_diff` gives the target back. -/
theorem differenceReconstructsPixel : Obligations.DifferenceReconstructsPixel :=
  fun p q => ⟨rfl, rfl, rfl, byte_sub_mem_range p.r q.r, byte_sub_mem_range p.g q.g, byte_sub_mem_range p.b q.b,
    recon_diff p q⟩

/-! ## The hash (rule R101) -/

theorem hashPixel_toNat (p : Pixel) :
    (hashPixel p).toNat = (3 * p.r.toNat + 5 * p.g.toNat + 7 * p.b.toNat) % 64 := by
  simp only [hashPixel, BitVec.toNat_ofNat, Nat.reducePow, Nat.mod_mod]

/-- Settles O5: the value fits six bits as it is below 64, and 3825 = (3 + 5 + 7) * 255. -/
theorem hashIsWeightedSumModulo64 : Obligations.HashIsWeightedSumModulo64 := by
  refine fun p => ⟨hashPixel_toNat p, ?_⟩
  have hr := p.r.isLt
  have hg := p.g.isLt
  have hb := p.b.isLt
  omega

/-! ## The bands (rules R103, R104, R105) -/

theorem fitsSmall_iff {d : Diff} :
    fitsSmall d = true ↔ (-2 ≤ d.r ∧ d.r ≤ 1) ∧ (-2 ≤ d.g ∧ d.g ≤ 1) ∧ (-2 ≤ d.b ∧ d.b ≤ 1) := by
  simp only [fitsSmall, Bool.and_eq_true, inRange_iff, and_assoc]

theorem fitsMed_iff {d : Diff} :
    fitsMed d = true ↔ (-32 ≤ d.r ∧ d.r ≤ 31) ∧ (-8 ≤ d.g ∧ d.g ≤ 7) ∧ (-8 ≤ d.b ∧ d.b ≤ 7) := by
  simp only [fitsMed, Bool.and_eq_true, inRange_iff, and_assoc]

/-- The small band lies inside the medium one (R105). -/
theorem fitsMed_of_fitsSmall {d : Diff} (h : fitsSmall d = true) : fitsMed d = true := by
  rw [fitsSmall_iff] at h
  rw [fitsMed_iff]
  omega

theorem missInstr_small {p : Pixel} {d : Diff} (h : fitsSmall d = true) :
    missInstr p d = .small d.r d.g d.b := by
  simp only [missInstr, h, if_true]

theorem missInstr_med {p : Pixel} {d : Diff} (hs : fitsSmall d = false) (hm : fitsMed d = true) :
    missInstr p d = .med d.r d.g d.b := by
  simp only [missInstr, hs, hm, Bool.false_eq_true, if_false, if_true]

/-- A difference outside the medium band is outside the small one too, so RAW needs no second hypothesis. -/
theorem missInstr_raw {p : Pixel} {d : Diff} (hm : fitsMed d = false) : missInstr p d = .raw p.r p.g p.b := by
  have hs : fitsSmall d = false := Bool.eq_false_of_not_eq_true (mt fitsMed_of_fitsSmall (by simp [hm]))
  simp only [missInstr, hs, hm, Bool.false_eq_true, if_false]

/-- Settles O8: the bands by their ranges, the inclusion of the small one, and one equation of `missInstr` per branch. -/
theorem smallBandWinsInsideMediumBand : Obligations.SmallBandWinsInsideMediumBand :=
  fun _ _ => ⟨fitsSmall_iff, fitsMed_iff, fun h => ⟨fitsMed_of_fitsSmall h, missInstr_small h⟩, missInstr_med, missInstr_raw⟩

end Sys2Proof.Machine
end

section
/-! The statements about the pixel cache (41_cache.md): what every slot holds after a start (R126). -/

namespace Sys2Proof.Machine

/-! ## What a step can do to a cache (rules R121, R124, R125) -/

/-- The cache `d` is `c`, or `c` with one pixel stored at its own hash: all that an engine ever does between two starts. -/
def CacheStep (c d : Cache) : Prop := d = c ∨ ∃ p, d = cacheStore c (hashPixel p) p

theorem CacheStep.refl (c : Cache) : CacheStep c c := .inl rfl

theorem CacheStep.slotsHashed {c d : Cache} (h : CacheStep c d) (hc : SlotsHashed c) : SlotsHashed d := by
  obtain rfl | ⟨p, rfl⟩ := h
  · exact hc
  · exact slotsHashed_store hc p

/-- A hit leaves the cache alone, a miss stores the pixel (R138, R139). -/
theorem pixelCache_cacheStep (p : Pixel) (s : State) : CacheStep s.enc.cache (pixelCache p s) := by
  unfold pixelCache
  split_ifs
  · exact .refl _
  · exact .inr ⟨p, rfl⟩

theorem encHeaderStep_cache (s : State) : (encHeaderStep s).enc.cache = s.enc.cache := by
  by_cases hd : s.enc.hin.toNat > maxDim ∨ s.enc.win.toNat > maxDim
  · rw [encHeaderStep_raises hd, raiseEnc_enc]
  · rw [(encHeaderStep_passes (s := s) (by omega)).2]

theorem encTakePixel_cacheStep (p : Pixel) (s : State) : CacheStep s.enc.cache (encTakePixel p s).enc.cache := by
  by_cases hp : p = s.enc.prev
  · subst hp
    by_cases hr : s.enc.run + 1 = 62
    · rw [(encTakePixel_cap hr).2]
      exact .refl _
    · rw [encTakePixel_equal hr]
      exact .refl _
  · rw [(encTakePixel_other hp).2]
    exact pixelCache_cacheStep p s

/-- A turn of the encoder leaves the machine alone, or the encoder was BUSY and its cache takes one step. -/
theorem encTurn_cacheStep {s t : State} (h : encTurn s = .next t) :
    t = s ∨ (s.enc.phase = .busy ∧ CacheStep s.enc.cache t.enc.cache) := by
  rcases encTurn_cases h with ⟨_, rfl⟩ | ⟨hb, _, rfl⟩ | ⟨hb, _, _, rfl⟩ | ⟨hb, _, _, p, _, rfl⟩
  · exact .inl rfl
  · exact .inr ⟨hb, .inl (encHeaderStep_cache s)⟩
  · rw [(encFlushStep_emits s).2]
    exact .inr ⟨hb, .refl _⟩
  · exact .inr ⟨hb, encTakePixel_cacheStep p s⟩

theorem afterPixel_cacheStep (p : Pixel) (len : Nat) (stores : Bool) (s : State) :
    CacheStep s.dec.cache (afterPixel p len stores s).dec.cache := by
  cases stores with
  | false => exact .refl _
  | true => exact .inr ⟨p, rfl⟩

/-- Of the instructions only those that produce one pixel store, and they store it at its hash (R124). -/
theorem exec_cacheStep {i : Instr} {s t : State} (h : exec i s = .next t) : CacheStep s.dec.cache t.dec.cache := by
  rcases exec_next h with ⟨c, _, _, rfl⟩ | ⟨v, w, _, _, rfl⟩ | ⟨p, b, _, _, _, rfl⟩ | ⟨n, _, _, m, rfl, _, _⟩
  · exact .refl _
  · exact .refl _
  · exact afterPixel_cacheStep p _ b s
  · exact .refl _

theorem decComplete_cache (s : State) : (decComplete s).dec.cache = s.dec.cache := by
  unfold decComplete
  split_ifs
  · rw [raiseDec_dec]
  · rw [finishDecoder_dec]

/-- A turn of the decoder leaves the machine alone, or the decoder was BUSY and its cache takes one step. -/
theorem decTurn_cacheStep {s t : State} (h : decTurn s = .next t) :
    t = s ∨ (s.dec.phase = .busy ∧ CacheStep s.dec.cache t.dec.cache) := by
  rcases decTurn_cases h with ⟨_, rfl⟩ | ⟨hb, i, _, he⟩ | ⟨hb, c, _, rfl⟩ | ⟨hb, _, rfl⟩
  · exact .inl rfl
  · exact .inr ⟨hb, exec_cacheStep he⟩
  · exact .inr ⟨hb, .refl _⟩
  · exact .inr ⟨hb, .inl (decComplete_cache s)⟩

/-! ## Steps of the machine -/

/-- What every turn and every host command keeps, and what does not read the agenda or the counter of free values, every
step keeps. -/
theorem step_keeps {P : State → Prop} (bookkeeping : ∀ s a k, P s → P { s with agenda := a, fresh := k })
    (enc : ∀ s t, P s → encTurn s = .next t → P t) (dec : ∀ s t, P s → decTurn s = .next t → P t)
    (host : ∀ c s t, P s → hostStep c s = .next t → P t) {s t : State} (hs : P s) (h : step s = .next t) : P t := by
  rcases step_cases s with ⟨m, rest, _, e⟩ | ⟨k, _, _, e⟩ | ⟨k, _, _, e⟩ | e <;> rw [e] at h
  · have hp := bookkeeping s rest s.fresh hs
    cases m with
    | enc => exact enc _ _ hp h
    | dec => exact dec _ _ hp h
    | host c => exact host c _ _ hp h
  · exact enc _ _ (bookkeeping s s.agenda k hs) h
  · exact dec _ _ (bookkeeping s s.agenda k hs) h
  · cases h
    exact hs

theorem hostStep_encStart_next {hin win : BitVec 32} {s t : State} (h : hostStep (.encStart hin win) s = .next t) :
    t = startEncoder hin win s := by
  simp only [hostStep] at h
  split_ifs at h
  exact (Host.Outcome.next.inj h).symm

theorem hostStep_decStart_next {l : Nat} {s t : State} (h : hostStep (.decStart l) s = .next t) :
    t = startDecoder l s := by
  simp only [hostStep] at h
  split_ifs at h
  exact (Host.Outcome.next.inj h).symm

/-! ## The slots of an engine that has started (rule R126) -/

theorem slotsAfterStart_idle (c : Cache) : SlotsAfterStart .idle c := fun h => absurd rfl h

/-- A start clears the cache, whatever it held (R122). -/
theorem startEncoder_slotsHashed (hin win : BitVec 32) (s : State) : SlotsHashed (startEncoder hin win s).enc.cache :=
  slotsHashed_cleared

theorem startDecoder_slotsHashed (l : Nat) (s : State) : SlotsHashed (startDecoder l s).dec.cache := slotsHashed_cleared

/-- A BUSY engine has started, so its slots are hashed before the step of its cache, and after it in any phase. -/
theorem SlotsAfterStart.of_busy {phase phase' : Phase} {c d : Cache} (hs : SlotsAfterStart phase c) (hb : phase = .busy)
    (hc : CacheStep c d) : SlotsAfterStart phase' d :=
  fun _ => hc.slotsHashed (hs (by simp [hb]))

theorem encSlots_encTurn {s t : State} (hs : SlotsAfterStart s.enc.phase s.enc.cache) (h : encTurn s = .next t) :
    SlotsAfterStart t.enc.phase t.enc.cache := by
  obtain rfl | ⟨hb, hc⟩ := encTurn_cacheStep h
  · exact hs
  · exact hs.of_busy hb hc

theorem decSlots_decTurn {s t : State} (hs : SlotsAfterStart s.dec.phase s.dec.cache) (h : decTurn s = .next t) :
    SlotsAfterStart t.dec.phase t.dec.cache := by
  obtain rfl | ⟨hb, hc⟩ := decTurn_cacheStep h
  · exact hs
  · exact hs.of_busy hb hc

/-- A host command leaves the encoder's cache alone, clears it by a start, or resets the encoder to IDLE. -/
theorem encSlots_hostStep {c : HostCmd} {s t : State} (hs : SlotsAfterStart s.enc.phase s.enc.cache)
    (h : hostStep c s = .next t) : SlotsAfterStart t.enc.phase t.enc.cache := by
  obtain ⟨_, _, ⟨he, _⟩ | ⟨hin, win, _, rfl⟩ | ⟨_, rfl⟩, _⟩ := hostStep_engines h
  · exact he ▸ hs
  · exact fun _ => startEncoder_slotsHashed hin win s
  · exact slotsAfterStart_idle _

theorem decSlots_hostStep {c : HostCmd} {s t : State} (hs : SlotsAfterStart s.dec.phase s.dec.cache)
    (h : hostStep c s = .next t) : SlotsAfterStart t.dec.phase t.dec.cache := by
  obtain ⟨_, _, _, ⟨hd, _⟩ | ⟨l, _, rfl⟩ | ⟨_, rfl⟩⟩ := hostStep_engines h
  · exact hd ▸ hs
  · exact fun _ => startDecoder_slotsHashed l s
  · exact slotsAfterStart_idle _

/-- The encoder's slots through a step: its own turns store at the hash, the decoder's turns leave it alone. -/
theorem encSlots_step {s t : State} (hs : SlotsAfterStart s.enc.phase s.enc.cache) (h : step s = .next t) :
    SlotsAfterStart t.enc.phase t.enc.cache := by
  refine step_keeps (P := fun s => SlotsAfterStart s.enc.phase s.enc.cache) (fun _ _ _ hu => hu)
    (fun _ _ => encSlots_encTurn) (fun u v hu hv => ?_) (fun _ _ _ => encSlots_hostStep) hs h
  obtain ⟨⟨_, henc, _⟩, _⟩ := decTurn_frame hv
  exact henc ▸ hu

/-- The decoder's slots likewise. -/
theorem decSlots_step {s t : State} (hs : SlotsAfterStart s.dec.phase s.dec.cache) (h : step s = .next t) :
    SlotsAfterStart t.dec.phase t.dec.cache := by
  refine step_keeps (P := fun s => SlotsAfterStart s.dec.phase s.dec.cache) (fun _ _ _ hu => hu)
    (fun u v hu hv => ?_) (fun _ _ => decSlots_decTurn) (fun _ _ _ => decSlots_hostStep) hs h
  obtain ⟨_, hdec, _⟩ := encTurn_frame hv
  exact hdec ▸ hu

/-- Settles O53: a start clears the cache, and between two starts a cache changes only by stores of a pixel at its hash,
in turns of an engine that is BUSY. -/
theorem slotsHoldPixelsThatHashToThem : Obligations.SlotsHoldPixelsThatHashToThem := by
  refine ⟨fun hin win s t h => ?_, fun l s t h => ?_, fun _ _ => encSlots_step, fun _ _ => decSlots_step⟩
  · rw [hostStep_encStart_next h]
    exact startEncoder_slotsHashed hin win s
  · rw [hostStep_decStart_next h]
    exact startDecoder_slotsHashed l s

end Sys2Proof.Machine
end

section
/-! The statements about the encoder's steps (42_encoder.md): the start, the header, one pixel, the flush; the run of an
encoder with nothing else moving; the runs of equal pixels (R143) and the bounds on the stream (R144). -/

namespace Sys2Proof.Machine

/-! ## The emitted bytes are the rules' formulas (rules R136 to R141) -/

/-- A field that holds its value, widened, is that value in the wider field. -/
theorem setWidth_ofInt_of_lt {m n : Nat} {k : Int} (h0 : 0 ≤ k) (hk : k < 2 ^ m) (hmn : m ≤ n) :
    (BitVec.ofInt m k).setWidth n = BitVec.ofInt n k := by
  lift k to Nat using h0
  have hm : k < 2 ^ m := by exact_mod_cast hk
  have hn : k < 2 ^ n := hm.trans_le (Nat.pow_le_pow_right (by decide) hmn)
  apply BitVec.eq_of_toNat_eq
  simp only [BitVec.ofInt_natCast, BitVec.toNat_setWidth, BitVec.toNat_ofNat, Nat.mod_eq_of_lt hm, Nat.mod_eq_of_lt hn]

theorem encode_cache (k : BitVec 6) : encode (.cache k) = [k.setWidth 8] := by
  have h : ∀ k : BitVec 6, (0b00#2 ++ k : Byte) = k.setWidth 8 := by decide
  rw [encode, h]

theorem encode_run {n : Nat} (h : n ≤ 64) : encode (.run n) = [0xC0#8 ||| BitVec.ofNat 8 (n - 1)] := by
  have hf : (fRun n).setWidth 8 = BitVec.ofNat 8 (n - 1) :=
    setWidth_ofInt_of_lt (k := (n - 1 : Nat)) (by omega) (by omega) (by decide)
  rw [encode, run_byte_formula, hf]

theorem encode_small {d : Diff} (h : fitsSmall d = true) : encode (.small d.r d.g d.b) =
    [0x40#8 ||| (BitVec.ofInt 8 (d.r + 2) <<< 4) ||| (BitVec.ofInt 8 (d.g + 2) <<< 2) ||| BitVec.ofInt 8 (d.b + 2)] := by
  obtain ⟨hr, hg, hb⟩ := fitsSmall_iff.1 h
  have hf : ∀ x : Int, -2 ≤ x ∧ x ≤ 1 → (fSmall x).setWidth 8 = BitVec.ofInt 8 (x + 2) := fun x hx =>
    setWidth_ofInt_of_lt (by omega) (by omega) (by decide)
  rw [encode, small_byte_formula, hf _ hr, hf _ hg, hf _ hb]

theorem encode_med {d : Diff} (h : fitsMed d = true) : encode (.med d.r d.g d.b) =
    [0x80#8 ||| BitVec.ofInt 8 (d.r + 32), (BitVec.ofInt 8 (d.g + 8) <<< 4) ||| BitVec.ofInt 8 (d.b + 8)] := by
  obtain ⟨hr, hg, hb⟩ := fitsMed_iff.1 h
  have hfr : (fMedR d.r).setWidth 8 = BitVec.ofInt 8 (d.r + 32) :=
    setWidth_ofInt_of_lt (by omega) (by omega) (by decide)
  have hf : ∀ x : Int, -8 ≤ x ∧ x ≤ 7 → (fMedGB x).setWidth 8 = BitVec.ofInt 8 (x + 8) := fun x hx =>
    setWidth_ofInt_of_lt (by omega) (by omega) (by decide)
  rw [encode, med_first_formula, med_second_formula, hfr, hf _ hg, hf _ hb]

/-- Every instruction has one to four bytes (R70, R81). -/
theorem encode_length_bounds (i : Instr) : 1 ≤ (encode i).length ∧ (encode i).length ≤ 4 := by
  cases i <;> simp [encode]

/-- The pending run's op has the byte of R137. -/
theorem encodeAll_endRunOps {s : State} (h : s.enc.run ≤ 61) : encodeAll (endRunOps s) = endRunBytes s := by
  unfold endRunOps endRunBytes
  split_ifs
  · rfl
  · simp only [encodeAll, List.flatMap_cons, List.flatMap_nil, List.append_nil, encode_run (n := s.enc.run) (by omega)]

theorem encodeAll_endRunOps_length (s : State) :
    (encodeAll (endRunOps s)).length = if 0 < s.enc.run then 1 else 0 := by
  unfold endRunOps
  by_cases h : s.enc.run = 0
  · simp [h, encodeAll]
  · simp [h, Nat.pos_of_ne_zero h, encodeAll, encode]

theorem encodeAll_append (is js : List Instr) : encodeAll (is ++ js) = encodeAll is ++ encodeAll js :=
  List.flatMap_append

theorem encodeAll_singleton (i : Instr) : encodeAll [i] = encode i := List.flatMap_singleton encode i

/-! ## The op of a pixel (rules R138 to R142) -/

theorem pixelOp_hit {p : Pixel} {s : State} (h : cacheLookup s.enc.cache (hashPixel p) = p) :
    pixelOp p s = .cache (hashPixel p) ∧ pixelCache p s = s.enc.cache := by
  simp only [pixelOp, pixelCache, cacheHit_iff.2 h, if_true, and_self]

theorem pixelOp_miss {p : Pixel} {s : State} (h : cacheLookup s.enc.cache (hashPixel p) ≠ p) :
    pixelOp p s = missInstr p (diff p s.enc.prev) ∧ pixelCache p s = cacheStore s.enc.cache (hashPixel p) p := by
  simp only [pixelOp, pixelCache, mt cacheHit_iff.1 h, Bool.false_eq_true, if_false, and_self]

/-- What a missed pixel emits is well-formed, of the op stream, and no RUN: its band is its operands' range. -/
theorem missInstr_wf (p : Pixel) (d : Diff) :
    (missInstr p d).wf = true ∧ (missInstr p d).place = .opStream ∧ ∀ n, missInstr p d ≠ .run n := by
  unfold missInstr
  split_ifs with hs hm
  · exact ⟨hs, rfl, nofun⟩
  · exact ⟨hm, rfl, nofun⟩
  · exact ⟨rfl, rfl, nofun⟩

theorem pixelOp_wf (p : Pixel) (s : State) :
    (pixelOp p s).wf = true ∧ (pixelOp p s).place = .opStream ∧ ∀ n, pixelOp p s ≠ .run n := by
  unfold pixelOp
  split_ifs
  · exact ⟨rfl, rfl, nofun⟩
  · exact missInstr_wf p _

/-! ## The turns of a BUSY encoder -/

theorem encTurn_header {s : State} (hb : s.enc.phase = .busy) (hs : s.enc.stage = .hdr) :
    encTurn s = .next (encHeaderStep s) := by
  simp [encTurn, hb, encStep, hs]

theorem encTurn_flush {s : State} (hb : s.enc.phase = .busy) (hs : s.enc.stage = .pix) (hi : s.enc.i = s.enc.n) :
    encTurn s = .next (encFlushStep s) := by
  simp [encTurn, hb, encStep, hs, hi]

/-- The turn of a pixel that differs from `enc.prev`: the pending run's byte, its own op, and the cache as a hit leaves it
or a miss stores it. -/
theorem encTurn_differing {p : Pixel} {s : State} (h : PixelNext p s) (hne : p ≠ s.enc.prev) :
    ∃ t, encTurn s = .next t ∧ PixelEncoded p (encode (pixelOp p s)) s t ∧ t.enc.cache = pixelCache p s := by
  obtain ⟨he, henc⟩ := encTakePixel_other hne
  have ha := he.appended
  rw [encodeAll_append, encodeAll_endRunOps h.run, encodeAll_singleton] at ha
  have hsame : SameEncoderRun s (encTakePixel p s) := by simp only [SameEncoderRun, henc, and_self]
  exact ⟨_, encTurn_pixel h, ⟨ha, by rw [henc], by rw [henc], by rw [henc], hsame, he.frame⟩, by rw [henc]⟩

/-- The turn of a pixel that no slot holds: its op is the band's, and it is stored at its hash (R139). -/
theorem encTurn_miss {p : Pixel} {s : State} (h : PixelNext p s) (hne : p ≠ s.enc.prev)
    (hm : cacheLookup s.enc.cache (hashPixel p) ≠ p) :
    ∃ t, encTurn s = .next t ∧ PixelEncoded p (encode (missInstr p (diff p s.enc.prev))) s t ∧
      CacheStored s.enc.cache t.enc.cache (hashPixel p) p := by
  obtain ⟨t, ht, hp, hc⟩ := encTurn_differing h hne
  obtain ⟨hop, hstore⟩ := pixelOp_miss hm
  exact ⟨t, ht, hop ▸ hp, by rw [hc, hstore]; exact cacheStored_store _ _ _⟩

/-! ## Start and header (rules R130 to R132) -/

/-- Settles O10: the start command is one arm of `hostStep`, and a cleared cache holds ZERO in every slot. -/
theorem encoderStartStep : Obligations.EncoderStartStep := by
  refine fun hin win s => ⟨fun hb => by simp only [hostStep, hb, if_true], fun hb => ?_⟩
  refine ⟨startEncoder hin win s, by simp only [hostStep, hb, if_false], ?_⟩
  exact ⟨rfl, rfl, rfl, cacheLookup_cleared, rfl, rfl, rfl, rfl, rfl, rfl, rfl, rfl, rfl, rfl, rfl, rfl, rfl, rfl⟩

/-- Settles O33: the check is the header step's first test, and raising writes the code and the phase only. -/
theorem dimensionCheckPrecedesOutput : Obligations.DimensionCheckPrecedesOutput := by
  refine ⟨fun s hb hs hd => ?_, fun hin win s hd => ?_⟩
  · rw [encTurn_header hb hs, encHeaderStep_raises hd]
    rfl
  · refine ⟨raiseError .enc .dimensionOverflow (startEncoder hin win s), ?_, rfl, rfl, rfl, rfl⟩
    rw [encTurn_header rfl rfl, encHeaderStep_raises hd]

/-- A dimension that passes the check loses nothing in its low 16 bits. -/
theorem dimLow_toNat {v : BitVec 32} (h : v.toNat ≤ maxDim) : (dimLow v).toNat = v.toNat := by
  unfold maxDim at h
  simp only [dimLow, BitVec.extractLsb'_toNat, Nat.shiftRight_zero]
  omega

theorem pixelCount_dimLow {v w : BitVec 32} (hv : v.toNat ≤ maxDim) (hw : w.toNat ≤ maxDim) :
    pixelCount (dimLow v) (dimLow w) = v.toNat * w.toNat := by
  rw [pixelCount, dimLow_toNat hv, dimLow_toNat hw]

theorem pixelCount_lt (h w : BitVec 16) : pixelCount h w < 2 ^ 32 :=
  calc h.toNat * w.toNat < 2 ^ 16 * 2 ^ 16 := Nat.mul_lt_mul'' h.isLt w.isLt
    _ = 2 ^ 32 := by decide

/-- Settles O34: the header step's own law, with the exact product of two dimensions that passed the check. -/
theorem headerEmission : Obligations.HeaderEmission := by
  intro s hb hs hh hw
  obtain ⟨he, henc⟩ := encHeaderStep_passes ⟨hh, hw⟩
  refine ⟨_, encTurn_header hb hs, ?_⟩
  rw [henc]
  exact ⟨rfl, rfl, pixelCount_dimLow hh hw, pixelCount_lt _ _, he.appended, rfl, hb, rfl, rfl, rfl, rfl, rfl, rfl, rfl,
    he.frame⟩

/-! ## One pixel (rules R135 to R142) -/

/-- Settles O35: below the cap the two counters are all that changes; at the cap the byte of a run of 62 is 0xFD. -/
theorem equalPixelExtendsRun : Obligations.EqualPixelExtendsRun := by
  rintro p s h rfl
  refine ⟨fun hr => ?_, fun hr => ?_⟩
  · rw [encTurn_pixel h, encTakePixel_equal (by omega)]
  · obtain ⟨he, henc⟩ := encTakePixel_cap hr
    have hbyte : encode (.run 62) = [0xFD#8] := by decide
    refine ⟨_, encTurn_pixel h, hbyte ▸ he.appended, ?_⟩
    rw [SameEncoderRun, henc]
    exact ⟨rfl, rfl, rfl, rfl, ⟨rfl, rfl, rfl, rfl, rfl, rfl, rfl, rfl⟩, he.frame⟩

/-- Settles O36: the op of a hit is CACHE, whose byte is the hash, and the cache stays. -/
theorem cacheHitEmitsIndex : Obligations.CacheHitEmitsIndex := by
  intro p s h hne hit
  obtain ⟨t, ht, hp, hc⟩ := encTurn_differing h hne
  obtain ⟨hop, hkeep⟩ := pixelOp_hit hit
  rw [hop, encode_cache] at hp
  exact ⟨t, ht, hp, hc.trans hkeep⟩

/-- Settles O37: the miss path, with the SMALL byte by R140's formula. -/
theorem smallDifferenceEmitted : Obligations.SmallDifferenceEmitted := by
  intro p s h hne hm hs
  rw [← encode_small hs, ← missInstr_small hs]
  exact encTurn_miss h hne hm

/-- Settles O38: the miss path, with the MED bytes by R141's formula. -/
theorem mediumDifferenceEmitted : Obligations.MediumDifferenceEmitted := by
  intro p s h hne hm hs hmed
  rw [← encode_med hmed, ← missInstr_med hs hmed]
  exact encTurn_miss h hne hm

/-- Settles O39: the miss path, with RAW's escape and channels. -/
theorem rawPixelEmitted : Obligations.RawPixelEmitted := by
  intro p s h hne hm _ hmed
  have ht := encTurn_miss h hne hm
  rwa [missInstr_raw hmed] at ht

/-! ## The flush (rule R145) -/

/-- Settles O40: the flush ends the pending run and writes the phase. -/
theorem flushEndsTheRun : Obligations.FlushEndsTheRun := by
  intro s hb hs hi hr
  obtain ⟨he, henc⟩ := encFlushStep_emits s
  refine ⟨_, encTurn_flush hb hs hi, encodeAll_endRunOps hr ▸ he.appended, ?_⟩
  rw [henc]
  exact ⟨rfl, rfl, rfl, rfl, rfl, rfl, rfl, rfl, rfl, rfl, rfl, rfl, he.frame⟩

/-! ## What a turn keeps of the encoder's invariant (rules R144, R145; 20_memory.md rule R52) -/

/-- A stream written throughout is written throughout after an append. -/
theorem Appended.filled {bs : List Byte} {s t : State} (h : Appended bs s t) (hf : Filled s.bytesOut s.enc.outlen) :
    Filled t.bytesOut t.enc.outlen := by
  obtain ⟨hlen, hnew, hold⟩ := h
  intro a ha
  by_cases hlt : a < s.enc.outlen
  · rw [hold a (.inl hlt)]
    exact hf a hlt
  · have hj : a - s.enc.outlen < bs.length := by omega
    have hread := hnew _ hj
    rw [Nat.add_sub_cancel' (by omega), List.getElem?_eq_getElem hj] at hread
    rw [hread, Option.isSome_some]

theorem SameEncoderRun.trans {s t u : State} (h1 : SameEncoderRun s t) (h2 : SameEncoderRun t u) :
    SameEncoderRun s u := by
  obtain ⟨a1, a2, a3, a4, a5, a6, a7, a8⟩ := h1
  obtain ⟨b1, b2, b3, b4, b5, b6, b7, b8⟩ := h2
  exact ⟨b1.trans a1, b2.trans a2, b3.trans a3, b4.trans a4, b5.trans a5, b6.trans a6, b7.trans a7, b8.trans a8⟩

theorem SameButEncoder.trans {s t u : State} (h1 : SameButEncoder s t) (h2 : SameButEncoder t u) :
    SameButEncoder s u := by
  obtain ⟨a1, a2, a3, a4, a5, a6, a7, a8⟩ := h1
  obtain ⟨b1, b2, b3, b4, b5, b6, b7, b8⟩ := h2
  exact ⟨b1.trans a1, b2.trans a2, b3.trans a3, b4.trans a4, b5.trans a5, b6.trans a6, b7.trans a7, b8.trans a8⟩

theorem SameButEncoder.encoderAlone {s t : State} (h : SameButEncoder s t) (ha : EncoderAlone s) : EncoderAlone t := by
  obtain ⟨_, hdec, _, _, _, hagenda, _⟩ := h
  exact ⟨hagenda.trans ha.1, hdec ▸ ha.2⟩

/-- Of the encoder a pixel step writes the previous pixel, the cache, the run counter, the index and the length only. -/
theorem encTakePixel_frame (p : Pixel) (s : State) :
    (encTakePixel p s).enc.i = s.enc.i + 1 ∧ SameEncoderRun s (encTakePixel p s) ∧
      SameButEncoder s (encTakePixel p s) := by
  unfold SameEncoderRun
  by_cases hp : p = s.enc.prev
  · subst hp
    by_cases hr : s.enc.run + 1 = 62
    · obtain ⟨he, henc⟩ := encTakePixel_cap hr
      simp only [henc, he.frame, and_self]
    · rw [encTakePixel_equal hr]
      simp only [SameButEncoder, and_self]
  · obtain ⟨he, henc⟩ := encTakePixel_other hp
    simp only [henc, he.frame, and_self]

/-- The sizes carry over to a state of the same dimensions whose stream was appended to. -/
theorem EncSized.of_appended {bs : List Byte} {s t : State} (h : EncSized s) (hr : SameEncoderRun s t)
    (ha : Appended bs s t) : EncSized t := by
  obtain ⟨_, _, _, hhin, hwin, hh, hw, hn⟩ := hr
  exact ⟨hhin ▸ h.hin, hwin ▸ h.win, by rw [hh, hhin, h.h], by rw [hw, hwin, h.w], by rw [hn, hh, hw, h.n],
    ha.filled h.filled⟩

/-- The header step of a started encoder enters the pixel stage with four bytes written. -/
theorem encPixels_encHeaderStep {s : State} (h : EncFresh s)
    (hd : s.enc.hin.toNat ≤ maxDim ∧ s.enc.win.toNat ≤ maxDim) : EncPixels (encHeaderStep s) := by
  obtain ⟨he, henc⟩ := encHeaderStep_passes hd
  have hfilled := he.appended.filled (s := s) fun a ha => absurd ha (by simp [h.outlen])
  refine ⟨⟨?_, ?_, ?_, ?_, ?_, hfilled⟩, ?_, ?_, ?_, ?_, ?_⟩
  all_goals simp [henc, h.i, h.run, h.outlen, hd, maxRun]

/-- A pixel step keeps the bounds on the stream: an equal pixel adds one to the pending run or ends it at 62, a differing
one adds at most four bytes after the pending run's byte, and at least one. -/
theorem encPixels_encTakePixel {s : State} (p : Pixel) (h : EncPixels s) (hi : s.enc.i ≠ s.enc.n) :
    EncPixels (encTakePixel p s) := by
  obtain ⟨_, hsame, _⟩ := encTakePixel_frame p s
  obtain ⟨hsized, hle, hrun, hmost, hheader, hleast⟩ := h
  unfold maxRun at hrun hleast
  by_cases hp : p = s.enc.prev
  · subst hp
    by_cases hr : s.enc.run + 1 = 62
    · obtain ⟨he, henc⟩ := encTakePixel_cap hr
      refine ⟨hsized.of_appended hsame he.appended, ?_, ?_, ?_, ?_, ?_⟩
      all_goals simp only [henc, maxRun]; split_ifs at * <;> omega
    · rw [encTakePixel_equal hr] at hsame ⊢
      refine ⟨hsized.of_appended hsame (appended_nil rfl rfl), ?_, ?_, ?_, ?_, ?_⟩
      all_goals simp only [maxRun]; split_ifs at * <;> omega
  · obtain ⟨he, henc⟩ := encTakePixel_other hp
    have hlen := encode_length_bounds (pixelOp p s)
    refine ⟨hsized.of_appended hsame he.appended, ?_, ?_, ?_, ?_, ?_⟩
    all_goals
      simp only [henc, maxRun, encodeAll_append, encodeAll_singleton, List.length_append, encodeAll_endRunOps_length]
      split_ifs at * <;> omega

/-- The flush leaves a finished encoder, whose stream has R144's bounds. -/
theorem encFinished_encFlushStep {s : State} (h : EncPixels s) (hi : s.enc.i = s.enc.n) :
    EncFinished (encFlushStep s) := by
  obtain ⟨he, henc⟩ := encFlushStep_emits s
  obtain ⟨hsized, hle, hrun, hmost, hheader, hleast⟩ := h
  unfold maxRun at hrun hleast
  have hlen := encodeAll_endRunOps_length s
  refine ⟨⟨?_, ?_, ?_, ?_, ?_, he.appended.filled hsized.filled⟩, ?_, ?_, ?_, ?_⟩
  all_goals simp only [henc]
  · exact hsized.hin
  · exact hsized.win
  · exact hsized.h
  · exact hsized.w
  · exact hsized.n
  · exact hi
  · split_ifs at * <;> omega
  · split_ifs at * <;> omega

/-! ## The pixel stage of an encoder that moves alone -/

/-- Between two pixel steps, with nothing but the encoder moving. -/
structure PixelStage (s : State) : Prop where
  alone : EncoderAlone s
  busy : s.enc.phase = .busy
  stage : s.enc.stage = .pix
  pixels : EncPixels s

/-- `u` is `s` after k pixel steps. -/
structure PixelsTaken (k : Nat) (s u : State) : Prop where
  stage : PixelStage u
  i : u.enc.i = s.enc.i + k
  run : SameEncoderRun s u
  frame : SameButEncoder s u

/-- The position of pixel i (R133) lies in the grid: its row and column are the quotient and remainder by the width. -/
theorem position_lt {i h w : Nat} (hi : i < h * w) : i / w < h ∧ i % w < w := by
  have hw : 0 < w := Nat.pos_of_ne_zero fun h0 => by simp [h0] at hi
  exact ⟨(Nat.div_lt_iff_lt_mul hw).2 hi, Nat.mod_lt _ hw⟩

theorem EncSized.n_eq {s : State} (h : EncSized s) : s.enc.n = s.enc.hin.toNat * s.enc.win.toNat := by
  rw [h.n, h.h, h.w, pixelCount_dimLow h.hin h.win]

theorem EncSized.w_toNat {s : State} (h : EncSized s) : s.enc.w.toNat = s.enc.win.toNat := by
  rw [h.w, dimLow_toNat h.win]

/-- In the pixel stage the next pixel is the one placed at the position of the index. -/
theorem PixelStage.pixelNext {p : Pixel} {s : State} (h : PixelStage s) (hi : s.enc.i < s.enc.n)
    (hp : Memory.read s.gridIn (gridKey (s.enc.i / s.enc.w.toNat) (s.enc.i % s.enc.w.toNat)) = some p) :
    PixelNext p s := by
  have hsized := h.pixels.sized
  have hrun := h.pixels.run
  unfold maxRun at hrun
  have hpos := position_lt (hsized.n_eq ▸ hi)
  rw [← hsized.w_toNat] at hpos
  exact ⟨h.busy, h.stage, hi.ne, hpos.1, hsized.w_toNat ▸ hpos.2, hp, by omega⟩

/-- A step of the pixel stage takes the next pixel. -/
theorem PixelStage.step {p : Pixel} {s : State} (h : PixelStage s) (hi : s.enc.i < s.enc.n)
    (hp : Memory.read s.gridIn (gridKey (s.enc.i / s.enc.w.toNat) (s.enc.i % s.enc.w.toNat)) = some p) :
    step s = .next (encTakePixel p s) := by
  rw [step_encoderAlone h.alone, encTurn_pixel (h.pixelNext hi hp)]

theorem PixelsTaken.zero {s : State} (h : PixelStage s) : PixelsTaken 0 s s :=
  ⟨h, rfl, ⟨rfl, rfl, rfl, rfl, rfl, rfl, rfl, rfl⟩, ⟨rfl, rfl, rfl, rfl, rfl, rfl, rfl, rfl⟩⟩

theorem PixelsTaken.succ {k : Nat} {s u : State} (p : Pixel) (h : PixelsTaken k s u) (hi : u.enc.i < u.enc.n) :
    PixelsTaken (k + 1) s (encTakePixel p u) := by
  obtain ⟨hidx, hsame, hframe⟩ := encTakePixel_frame p u
  have hrun := h.run.trans hsame
  obtain ⟨hphase, _, hstage, _⟩ := hsame
  exact ⟨⟨hframe.encoderAlone h.stage.alone, hphase.trans h.stage.busy, hstage.trans h.stage.stage,
    encPixels_encTakePixel p h.stage.pixels hi.ne⟩, by rw [hidx, h.i, Nat.add_assoc], hrun, h.frame.trans hframe⟩

/-- k steps of the pixel stage take the next k pixels P 0, P 1, …; what holds before and is kept by each of them holds
after. -/
theorem runSteps_pixels {P : Nat → Pixel} {Q : Nat → State → Prop} {s : State} (h : PixelStage s) (zero : Q 0 s)
    (succ : ∀ k u, PixelsTaken k s u → Q k u → Q (k + 1) (encTakePixel (P k) u)) (k : Nat)
    (hk : s.enc.i + k ≤ s.enc.n)
    (placed : ∀ j, j < k → Memory.read s.gridIn
      (gridKey ((s.enc.i + j) / s.enc.w.toNat) ((s.enc.i + j) % s.enc.w.toNat)) = some (P j)) :
    ∃ u, runSteps k s = .next u ∧ PixelsTaken k s u ∧ Q k u := by
  induction k with
  | zero => exact ⟨s, rfl, .zero h, zero⟩
  | succ k ih =>
    obtain ⟨u, hu, ht, hq⟩ := ih (by omega) fun j hj => placed j (by omega)
    obtain ⟨_, _, _, _, _, _, hw, hn⟩ := ht.run
    obtain ⟨_, _, hgrid, _⟩ := ht.frame
    have hi : u.enc.i < u.enc.n := by rw [ht.i, hn]; omega
    have hp : Memory.read u.gridIn (gridKey (u.enc.i / u.enc.w.toNat) (u.enc.i % u.enc.w.toNat)) = some (P k) := by
      rw [ht.i, hw, hgrid]
      exact placed k (by omega)
    refine ⟨_, ?_, ht.succ (P k) hi, succ k u ht hq⟩
    rw [runSteps_add hu, runSteps_succ, ht.stage.step hi hp]
    rfl

/-- From the grid's first pixel, the host's grid feeds as many pixel steps as it has pixels. -/
theorem runSteps_inputGrid {G : Nat → Nat → Pixel} {s : State} (h : PixelStage s) (hi : s.enc.i = 0)
    (hgrid : InputGrid G s.enc.hin.toNat s.enc.win.toNat s) {k : Nat} (hk : k ≤ s.enc.n) :
    ∃ u, runSteps k s = .next u ∧ PixelsTaken k s u := by
  have hsized := h.pixels.sized
  obtain ⟨u, hu, ht, -⟩ := runSteps_pixels (P := fun j => G (j / s.enc.w.toNat) (j % s.enc.w.toNat))
    (Q := fun _ _ => True) h trivial (fun _ _ _ _ => trivial) k (by omega) fun j hj => by
      have hlt : j < s.enc.n := by omega
      have hpos := position_lt (hsized.n_eq ▸ hlt)
      rw [hi, Nat.zero_add, hsized.w_toNat]
      exact hgrid _ _ hpos.1 hpos.2
  exact ⟨u, hu, ht⟩

/-- At the grid's end the next step is the flush. -/
theorem PixelStage.flush {s : State} (h : PixelStage s) (hi : s.enc.i = s.enc.n) :
    runSteps 1 s = .next (encFlushStep s) := by
  rw [runSteps_succ, step_encoderAlone h.alone, encTurn_flush h.busy h.stage hi]
  rfl

/-! ## A run from the start -/

theorem encFresh_startEncoder (hin win : BitVec 32) (s : State) : EncFresh (startEncoder hin win s) :=
  ⟨rfl, rfl, rfl, rfl, rfl⟩

/-- After the start, with dimensions that pass the check, the first step is the header's and enters the pixel stage. -/
theorem runSteps_startEncoder {hin win : BitVec 32} {s : State} (ha : EncoderAlone s)
    (hd : hin.toNat ≤ maxDim ∧ win.toNat ≤ maxDim) :
    ∃ u, runSteps 1 (startEncoder hin win s) = .next u ∧ PixelStage u ∧
      Emits (encode (.hdr (dimLow hin) (dimLow win))) (startEncoder hin win s) u ∧
      u.enc.i = 0 ∧ u.enc.run = 0 ∧ u.enc.code = .ok ∧ u.enc.hin = hin ∧ u.enc.win = win := by
  have hd' : (startEncoder hin win s).enc.hin.toNat ≤ maxDim ∧ (startEncoder hin win s).enc.win.toNat ≤ maxDim := hd
  have ha' : EncoderAlone (startEncoder hin win s) := ha
  obtain ⟨he, henc⟩ := encHeaderStep_passes hd'
  refine ⟨encHeaderStep (startEncoder hin win s), ?_, ⟨he.frame.encoderAlone ha', ?_, ?_, ?_⟩, he, ?_⟩
  · rw [runSteps_succ, step_encoderAlone ha', encTurn_header rfl rfl]
    rfl
  · rw [henc]; rfl
  · rw [henc]
  · exact encPixels_encHeaderStep (encFresh_startEncoder hin win s) hd'
  · rw [henc]
    exact ⟨rfl, rfl, rfl, rfl, rfl⟩

/-- Settles O41: the header step leaves N = 0, so the next step is the flush, with no run pending. -/
theorem emptyGridIsHeaderAlone : Obligations.EmptyGridIsHeaderAlone := by
  intro hin win s ha hh hw hzero
  obtain ⟨u, hu, hstage, hemits, hi, hrun, hcode, hhin, hwin⟩ := runSteps_startEncoder ha ⟨hh, hw⟩
  have hend : u.enc.i = u.enc.n := by
    rw [hi, hstage.pixels.sized.n_eq, hhin, hwin]
    rcases hzero with rfl | rfl <;> simp
  obtain ⟨he, henc⟩ := encFlushStep_emits u
  have hops : encodeAll (endRunOps u) = [] := by simp [endRunOps, hrun, encodeAll]
  rw [hops] at he henc
  obtain ⟨hlen, hbytes, _⟩ := hemits.appended.trans he.appended
  rw [List.append_nil] at hlen hbytes
  exact ⟨_, (runSteps_add hu).trans (hstage.flush hend), by rw [henc], by rw [henc]; exact hcode, hlen, hbytes⟩

/-! ## Runs of equal pixels (rule R143) -/

/-- What an encoder has done after k pixels equal to `enc.prev`, taken from an empty run counter: a RUN for every 62 of
them, and the rest pending. -/
structure RunsTaken (s : State) (k : Nat) (u : State) : Prop where
  prev : u.enc.prev = s.enc.prev
  run : u.enc.run = k % maxRun
  bytes : Appended (encodeAll (List.replicate (k / maxRun) (.run maxRun))) s u

theorem RunsTaken.zero {s : State} (h : s.enc.run = 0) : RunsTaken s 0 s := ⟨rfl, h, appended_nil rfl rfl⟩

theorem RunsTaken.succ {k : Nat} {s u : State} (h : RunsTaken s k u) :
    RunsTaken s (k + 1) (encTakePixel s.enc.prev u) := by
  obtain ⟨hprev, hrun, hbytes⟩ := h
  rw [← hprev]
  unfold maxRun at hrun
  by_cases hr : u.enc.run + 1 = 62
  · obtain ⟨he, henc⟩ := encTakePixel_cap hr
    have hdiv : (k + 1) / maxRun = k / maxRun + 1 := by unfold maxRun; omega
    have hmod : 0 = (k + 1) % maxRun := by unfold maxRun; omega
    refine ⟨by rw [henc]; exact hprev, by rw [henc]; exact hmod, ?_⟩
    rw [hdiv, List.replicate_succ', encodeAll_append, encodeAll_singleton]
    exact hbytes.trans he.appended
  · have hdiv : (k + 1) / maxRun = k / maxRun := by unfold maxRun; omega
    have hmod : u.enc.run + 1 = (k + 1) % maxRun := by unfold maxRun; omega
    rw [encTakePixel_equal hr]
    exact ⟨hprev, hmod, by rw [hdiv]; exact hbytes⟩

/-- The full runs and the pending one are RUNS k. -/
theorem RunsTaken.runsOps_eq {k : Nat} {s u : State} (h : RunsTaken s k u) :
    encodeAll (runsOps k) = encodeAll (List.replicate (k / maxRun) (.run maxRun)) ++ encodeAll (endRunOps u) := by
  rw [← encodeAll_append, runsOps, endRunOps, h.run]

/-- Settles O44: n equal pixels leave full runs in the stream and the rest pending; the flush emits the rest, and so does
the step of a different pixel, before its own op. -/
theorem equalPixelsEmitRuns : Obligations.EqualPixelsEmitRuns := by
  intro n s hinv ha hb hs hrun hn hplaced
  have hstage : PixelStage s := ⟨ha, hb, hs, hinv.enc.pixels hb hs⟩
  obtain ⟨u, hu, ht, hq⟩ := runSteps_pixels (P := fun _ => s.enc.prev) (Q := RunsTaken s) hstage (.zero hrun)
    (fun _ _ _ hq => hq.succ) n hn hplaced
  obtain ⟨_, _, _, _, _, _, hw, hN⟩ := ht.run
  refine ⟨fun hend => ?_, fun p hne hmore hp => ?_⟩
  · obtain ⟨he, henc⟩ := encFlushStep_emits u
    refine ⟨_, (runSteps_add hu).trans (ht.stage.flush (by rw [ht.i, hN, hend])), by rw [henc], ?_⟩
    rw [hq.runsOps_eq]
    exact hq.bytes.trans he.appended
  · obtain ⟨_, _, hgrid, _⟩ := ht.frame
    obtain ⟨hwf, hplace, hnorun⟩ := pixelOp_wf p u
    have he := (encTakePixel_other (hq.prev ▸ hne)).1.appended
    have hi : u.enc.i < u.enc.n := by rw [ht.i, hN]; exact hmore
    have hp' : Memory.read u.gridIn (gridKey (u.enc.i / u.enc.w.toNat) (u.enc.i % u.enc.w.toNat)) = some p := by
      rw [ht.i, hw, hgrid]
      exact hp
    refine ⟨pixelOp p u, encTakePixel p u, ?_, hwf, hplace, hnorun, ?_⟩
    · rw [runSteps_add hu, runSteps_succ, ht.stage.step hi hp']
      rfl
    · rw [hq.runsOps_eq, List.append_assoc, ← encodeAll_singleton, ← encodeAll_append]
      exact hq.bytes.trans he

/-! ## The whole encode (rules R144, R175) -/

/-- Settles O45: the header step, N pixel steps with the encoder BUSY throughout, and the flush, which ends in a finished
encoder. -/
theorem encoderNeverFailsAndBoundsItsStream : Obligations.EncoderNeverFailsAndBoundsItsStream := by
  intro G hin win s ha hh hw hgrid
  obtain ⟨u, hu, hstage, hemits, hi, hrun, hcode, hhin, hwin⟩ := runSteps_startEncoder ha ⟨hh, hw⟩
  have hsized := hstage.pixels.sized
  have hN : u.enc.n = hin.toNat * win.toNat := by rw [hsized.n_eq, hhin, hwin]
  have hgrid' : InputGrid G u.enc.hin.toNat u.enc.win.toNat u := by
    obtain ⟨_, _, hsame, _⟩ := hemits.frame
    rw [InputGrid, hhin, hwin, hsame]
    exact hgrid
  rw [← hN]
  obtain ⟨v, hv, ht⟩ := runSteps_inputGrid hstage hi hgrid' le_rfl
  obtain ⟨_, hcode', _, _, _, _, _, hn⟩ := ht.run
  have hend : v.enc.i = v.enc.n := by rw [ht.i, hi, hn, Nat.zero_add]
  have hfin := encFinished_encFlushStep ht.stage.pixels hend
  obtain ⟨_, henc⟩ := encFlushStep_emits v
  have hmost := hfin.atMost
  have hleast := hfin.atLeast
  have hnt : (encFlushStep v).enc.n = u.enc.n := by rw [henc]; exact hn
  rw [hnt] at hmost hleast
  refine ⟨encFlushStep v, ?_, by rw [henc], by rw [henc]; exact hcode'.trans hcode, fun h0 => by omega,
    fun _ => ⟨hleast, hmost⟩, fun k hk => ?_⟩
  · have hsteps : u.enc.n + 2 = 1 + (u.enc.n + 1) := by omega
    rw [hsteps, runSteps_add hu, runSteps_add hv, ht.stage.flush hend]
  · rcases k with _ | k
    · exact ⟨_, rfl, rfl⟩
    · obtain ⟨w, hw, ht'⟩ := runSteps_inputGrid hstage hi hgrid' (k := k) (by omega)
      exact ⟨w, by rw [Nat.add_comm, runSteps_add hu, hw], ht'.stage.busy⟩

end Sys2Proof.Machine
end

section
/-! The statements about the decoder's instructions and steps (43_decoder.md): how an op's bytes are read, what each
instruction does where it succeeds and where it raises, the start, completion, exhaustion, and the failing step (R172). -/

namespace Sys2Proof.Machine

/-! ## Reading an op (30_encoding.md rules R73 to R80) -/

/-- The escape carries the tag of RUN, so a byte of another tag is not the escape. -/
theorem ne_escape_of_tag {b : Byte} (h : b.extractLsb' 6 2 ≠ 0b11#2) : b ≠ 0xFF#8 := by
  rintro rfl
  exact h (by decide)

theorem opKind_of_run_tag {b : Byte} (hne : b ≠ 0xFF#8) (h : b.extractLsb' 6 2 = 0b11#2) : opKind b = .run := by
  simp [opKind, hne, h]

theorem opKind_of_small_tag {b : Byte} (h : b.extractLsb' 6 2 = 0b01#2) : opKind b = .small := by
  have hne : b ≠ 0xFF#8 := ne_escape_of_tag (by simp [h])
  simp [opKind, hne, h]

theorem opKind_of_med_tag {b : Byte} (h : b.extractLsb' 6 2 = 0b10#2) : opKind b = .med := by
  have hne : b ≠ 0xFF#8 := ne_escape_of_tag (by simp [h])
  simp [opKind, hne, h]

theorem opKind_of_cache_tag {b : Byte} (h : b.extractLsb' 6 2 = 0b00#2) : opKind b = .cache := by
  have hne : b ≠ 0xFF#8 := ne_escape_of_tag (by simp [h])
  simp [opKind, hne, h]

section DecodeOp
variable {b : Byte} (rest : List Byte)

theorem decodeOp_raw (r g bl : Byte) : decodeOp (0xFF#8 :: r :: g :: bl :: rest) = .ok (.raw r g bl, rest) := rfl

theorem decodeOp_run (h : opKind b = .run) : decodeOp (b :: rest) = .ok (.run (runLength b), rest) := by
  simp only [decodeOp, h]

theorem decodeOp_small (h : opKind b = .small) :
    decodeOp (b :: rest) = .ok (.small (smallField b 4) (smallField b 2) (smallField b 0), rest) := by
  simp only [decodeOp, h]

theorem decodeOp_med (b1 : Byte) (h : opKind b = .med) :
    decodeOp (b :: b1 :: rest) = .ok (.med (medRed b) (medNibble b1 4) (medNibble b1 0), rest) := by
  simp only [decodeOp, h]

theorem decodeOp_cache (h : opKind b = .cache) : decodeOp (b :: rest) = .ok (.cache (slotIndex b), rest) := by
  simp only [decodeOp, h]

end DecodeOp

/-! ## The meanings where they raise -/

/-- Raising in the decoder is what `DecoderRaised` says of the state after it (60_exceptions.md rule R203). -/
theorem decoderRaised_raiseError (c : Code) (s : State) : DecoderRaised c s (raiseError .dec c s) := rfl

theorem exec_hdr_raises {h w : BitVec 16} {s : State} (hl : s.dec.l < 4) :
    exec (.hdr h w) s = .next (raiseError .dec .truncatedHeader s) := by
  simp only [exec, execHdr, if_pos hl]

theorem exec_raw_raises {r g b : Byte} {s : State} (hl : s.dec.l < s.dec.rp + 4) :
    exec (.raw r g b) s = .next (raiseError .dec .truncatedOp s) := by
  simp only [exec, execRaw, gt_iff_lt, if_pos hl]

theorem exec_run_raises {n : Nat} {s : State} (hn : s.dec.n < s.dec.cur + n) :
    exec (.run n) s = .next (raiseError .dec .gridOverrun s) := by
  simp only [exec, execRun, gt_iff_lt, if_pos hn]

theorem exec_small_raises {dr dg db : Int} {s : State} (hr : recon s.dec.prev ⟨dr, dg, db⟩ = none) :
    exec (.small dr dg db) s = .next (raiseError .dec .corruptStream s) :=
  produceFromDiff_next.2 (.inl ⟨hr, rfl⟩)

/-- MED past its own length test is the difference op of two bytes. -/
theorem exec_med_whole {dr dg db : Int} {s : State} (hl : s.dec.rp + 2 ≤ s.dec.l) :
    exec (.med dr dg db) s = produceFromDiff ⟨dr, dg, db⟩ 2 s := by
  simp only [exec, execMed, gt_iff_lt, if_neg (Nat.not_lt.2 hl)]

theorem exec_med_truncated {dr dg db : Int} {s : State} (hl : s.dec.l < s.dec.rp + 2) :
    exec (.med dr dg db) s = .next (raiseError .dec .truncatedOp s) := by
  simp only [exec, execMed, gt_iff_lt, if_pos hl]

theorem exec_med_raises {dr dg db : Int} {s : State} (hl : s.dec.rp + 2 ≤ s.dec.l)
    (hr : recon s.dec.prev ⟨dr, dg, db⟩ = none) :
    exec (.med dr dg db) s = .next (raiseError .dec .corruptStream s) := by
  rw [exec_med_whole hl, produceFromDiff_next]
  exact .inl ⟨hr, rfl⟩

/-! ## The meanings where they complete -/

theorem exec_hdr_completes {h w : BitVec 16} {s : State} (hl : 4 ≤ s.dec.l) :
    exec (.hdr h w) s = .next (finishHeader h w s) := by
  simp only [exec, execHdr, if_neg (Nat.not_lt.2 hl)]

theorem exec_cache_completes {k : BitVec 6} {s : State} (hc : s.dec.cur < s.dec.n) :
    exec (.cache k) s = .next (afterPixel (cacheLookup s.dec.cache k) 1 false s) :=
  producePixel_next.2 ⟨hc, rfl⟩

theorem exec_raw_completes {r g b : Byte} {s : State} (hl : s.dec.rp + 4 ≤ s.dec.l) (hc : s.dec.cur < s.dec.n) :
    exec (.raw r g b) s = .next (afterPixel ⟨r, g, b⟩ 4 true s) := by
  simp only [exec, execRaw, gt_iff_lt, if_neg (Nat.not_lt.2 hl)]
  exact producePixel_next.2 ⟨hc, rfl⟩

theorem exec_small_completes {dr dg db : Int} {p : Pixel} {s : State} (hr : recon s.dec.prev ⟨dr, dg, db⟩ = some p)
    (hc : s.dec.cur < s.dec.n) : exec (.small dr dg db) s = .next (afterPixel p 1 true s) :=
  produceFromDiff_next.2 (.inr ⟨p, hr, hc, rfl⟩)

theorem exec_med_completes {dr dg db : Int} {p : Pixel} {s : State} (hl : s.dec.rp + 2 ≤ s.dec.l)
    (hr : recon s.dec.prev ⟨dr, dg, db⟩ = some p) (hc : s.dec.cur < s.dec.n) :
    exec (.med dr dg db) s = .next (afterPixel p 2 true s) := by
  rw [exec_med_whole hl, produceFromDiff_next]
  exact .inr ⟨p, hr, hc, rfl⟩

/-- An op that stores puts its pixel at the pixel's hash (41_cache.md rule R124). -/
theorem afterPixel_cacheStored (p : Pixel) (len : Nat) (s : State) :
    CacheStored s.dec.cache (afterPixel p len true s).dec.cache (hashPixel p) p := cacheStored_store _ _ _

/-! ## Start and header (rules R160, R161) -/

/-- Settles O11: the start command is one arm of `hostStep`, and a cleared cache holds ZERO in every slot. -/
theorem decoderStartStep : Obligations.DecoderStartStep := by
  refine fun l s hl => ⟨fun hb => by simp only [hostStep, hb, if_true], fun hb => ?_⟩
  refine ⟨startDecoder l s, by simp only [hostStep, hb, hl, if_false, if_true], ?_⟩
  exact ⟨rfl, rfl, cacheLookup_cleared, rfl, rfl, rfl, rfl, rfl, rfl, rfl, rfl, sameButDecoder_update _ _ s⟩

/-- Settles O18: one equation of HDR per side of its length test, and the product of two 16-bit dimensions fits 32 bits. -/
theorem headerSetsDimensionsAndEntryPoint : Obligations.HeaderSetsDimensionsAndEntryPoint :=
  ⟨fun _ _ _ _ => rfl, fun h w _ =>
    ⟨fun hl => ⟨_, exec_hdr_raises hl, decoderRaised_raiseError _ _⟩,
      fun hl => ⟨exec_hdr_completes hl, pixelCount_lt h w⟩⟩⟩

/-! ## The ops (rules R165 to R169) -/

/-- Settles O19: one equation of RAW per side of its length test. -/
theorem rawProducesLiteralPixel : Obligations.RawProducesLiteralPixel :=
  ⟨decodeOp_raw [], fun r g b s =>
    ⟨fun hl => ⟨_, exec_raw_raises hl, decoderRaised_raiseError _ _⟩,
      fun hl hc => ⟨_, exec_raw_completes hl hc, afterPixel_produced _ _ _ s, afterPixel_cacheStored ⟨r, g, b⟩ 4 s⟩⟩⟩

/-- Settles O20: a RUN passes the grid's end and raises, or fits and writes its row of cells. -/
theorem runRepeatsPreviousPixel : Obligations.RunRepeatsPreviousPixel := by
  refine ⟨fun b hne htag => decodeOp_run [] (opKind_of_run_tag hne htag), fun n s => ⟨fun hn => ?_, fun hn => ?_⟩⟩
  · exact ⟨_, exec_run_raises hn, decoderRaised_raiseError _ _⟩
  · obtain ⟨t, ht, m, rfl, hm, _⟩ := execRun_fits hn
    refine ⟨_, ht, fun j hlo hhi => (hm j).trans (if_pos ⟨hlo, hhi⟩), fun j hj => (hm j).trans (if_neg (by omega)), ?_⟩
    exact ⟨rfl, rfl, rfl, rfl, ⟨rfl, rfl, rfl, rfl, rfl, rfl, rfl⟩, sameButDecoder_update _ _ s⟩

/-- Settles O21: one equation of SMALL per outcome of the reconstruction. -/
theorem smallAddsDifference : Obligations.SmallAddsDifference :=
  ⟨fun _ htag => decodeOp_small [] (opKind_of_small_tag htag), fun _ _ _ s =>
    ⟨fun hr => ⟨_, exec_small_raises hr, decoderRaised_raiseError _ _⟩,
      fun p hr hc => ⟨_, exec_small_completes hr hc, afterPixel_produced _ _ _ s, afterPixel_cacheStored p 1 s⟩⟩⟩

/-- Settles O22: the length test, then one equation of MED per outcome of the reconstruction. -/
theorem medAddsDifference : Obligations.MedAddsDifference :=
  ⟨fun _ b1 htag => decodeOp_med [] b1 (opKind_of_med_tag htag), fun _ _ _ s =>
    ⟨fun hl => ⟨_, exec_med_truncated hl, decoderRaised_raiseError _ _⟩,
      fun hl hr => ⟨_, exec_med_raises hl hr, decoderRaised_raiseError _ _⟩,
      fun p hl hr hc => ⟨_, exec_med_completes hl hr hc, afterPixel_produced _ _ _ s, afterPixel_cacheStored p 2 s⟩⟩⟩

/-- Settles O23: CACHE has no test of its own and is the one-pixel op that does not store. -/
theorem cacheSelectsSlot : Obligations.CacheSelectsSlot :=
  ⟨fun _ htag => decodeOp_cache [] (opKind_of_cache_tag htag), fun _ s hc =>
    ⟨_, exec_cache_completes hc, afterPixel_produced _ _ _ s, rfl⟩⟩

/-! ## The turns of a BUSY decoder (rules R162 to R164) -/

theorem decTurn_of_instr {i : Instr} {s : State} (hb : s.dec.phase = .busy) (h : fetch s = .instr i) :
    decTurn s = exec i s := by
  simp only [decTurn, hb, if_true, decStep, h]

theorem decTurn_of_error {c : Code} {s : State} (hb : s.dec.phase = .busy) (h : fetch s = .error c) :
    decTurn s = .next (raiseError .dec c s) := by
  simp only [decTurn, hb, if_true, decStep, h]

/-- With the grid full the turn is the completion. -/
theorem decTurn_full {s : State} (hb : s.dec.phase = .busy) (hs : s.dec.stage = .ops) (hc : s.dec.cur = s.dec.n) :
    decTurn s = .next (decComplete s) := by
  simp only [decTurn, hb, if_true, decStep, fetch, hs, hc]

theorem decComplete_raises {s : State} (hst : s.cfg.strictTrailing = true) (hl : s.dec.rp < s.dec.l) :
    decComplete s = raiseError .dec .gridOverrun s := if_pos ⟨hl, hst⟩

theorem decComplete_finishes {s : State} (h : s.cfg.strictTrailing = false ∨ s.dec.l ≤ s.dec.rp) :
    decComplete s = finishDecoder s := by
  refine if_neg fun ⟨hl, hst⟩ => ?_
  rcases h with h | h
  · simp [h] at hst
  · omega

/-- Settles O26: the turn of a full grid is `decComplete`, with one equation per side of its test. -/
theorem completionOfAFullGrid : Obligations.CompletionOfAFullGrid := by
  intro s hb hs hc
  rw [decTurn_full hb hs hc]
  refine ⟨fun hst hl => ⟨_, rfl, ?_⟩, fun h => ?_⟩
  · rw [decComplete_raises hst hl]
    exact decoderRaised_raiseError _ _
  · rw [decComplete_finishes h]
    rfl

/-- Settles O27: with cells left, an exhausted buffer is the fetch's second test. -/
theorem bufferExhaustedBeforeGridFull : Obligations.BufferExhaustedBeforeGridFull := by
  intro s hb hs hc hl
  have hf : fetch s = .error .truncatedStream := by simp only [fetch, hs, hc.ne, hl, if_false, if_true]
  exact ⟨_, decTurn_of_error hb hf, decoderRaised_raiseError _ _⟩

/-! ## A failing step (rule R172) -/

theorem fetchAt_error {place : Place} {a n : Nat} {c c' : Code} {s : State} (h : fetchAt place a n c s = .error c') :
    c' = c := by
  unfold fetchAt at h
  split_ifs at h
  · exact (Fetched.error.inj h).symm
  · split at h
    · cases h
    · split at h
      · cases h
      · exact (Fetched.error.inj h).symm

/-- The three errors the fetch can find (R161, R164, and R165 with R168). -/
theorem fetch_error {c : Code} {s : State} (h : fetch s = .error c) :
    c = .truncatedHeader ∨ c = .truncatedStream ∨ c = .truncatedOp := by
  unfold fetch at h
  cases hs : s.dec.stage with
  | hdr =>
    simp only [hs] at h
    exact .inl (fetchAt_error h)
  | ops =>
    simp only [hs] at h
    split_ifs at h
    · exact .inr (.inl (Fetched.error.inj h).symm)
    · unfold fetchOp at h
      split at h
      · cases h
      · exact .inr (.inr (fetchAt_error h))

/-- An instruction whose execution ends in ERROR has raised: no meaning writes the phase when it completes. -/
theorem exec_error {i : Instr} {s t : State} (hb : s.dec.phase = .busy) (h : exec i s = .next t)
    (ht : t.dec.phase = .error) : ∃ c, c ≠ .ok ∧ DecoderRaised c s t := by
  have completed : t.dec.phase ≠ s.dec.phase := by simp [ht, hb]
  rcases exec_next h with ⟨c, hc, _, rfl⟩ | ⟨v, w, _, _, rfl⟩ | ⟨p, b, _, _, _, rfl⟩ | ⟨n, _, _, m, rfl, _, _⟩
  · exact ⟨c, hc, decoderRaised_raiseError c s⟩
  all_goals exact absurd rfl completed

/-- Settles O29: an error of the fetch, of the instruction, or of the completion is raised in the state before the step;
every other way a turn can end leaves another phase. -/
theorem failingDecoderStepWritesNothing : Obligations.FailingDecoderStepWritesNothing := by
  intro s t hb h ht
  rcases decTurn_cases h with ⟨hn, _⟩ | ⟨_, i, _, he⟩ | ⟨_, c, hf, rfl⟩ | ⟨_, _, rfl⟩
  · exact absurd hb hn
  · exact exec_error hb he ht
  · refine ⟨c, ?_, decoderRaised_raiseError c s⟩
    rcases fetch_error hf with rfl | rfl | rfl <;> decide
  · by_cases hst : s.cfg.strictTrailing = false ∨ s.dec.l ≤ s.dec.rp
    · rw [decComplete_finishes hst] at ht
      cases ht
    · rw [not_or, Bool.not_eq_false, Nat.not_le] at hst
      rw [decComplete_raises hst.1 hst.2]
      exact ⟨.gridOverrun, by decide, decoderRaised_raiseError _ s⟩

end Sys2Proof.Machine
end

section
/-! The round trip (43_decoder.md rule R174): what a piece of a stream decodes to, the encoder's stream as such pieces, and
the whole decode of a header and a stream. -/

namespace Sys2Proof.Machine

/-! ## Encoding and decoding one unit (30_encoding.md rules R78 to R80) -/

theorem smallField_encoded {dr dg db : Int} (h : fitsSmall ⟨dr, dg, db⟩ = true) :
    smallField (0b01#2 ++ fSmall dr ++ fSmall dg ++ fSmall db) 4 = dr ∧
    smallField (0b01#2 ++ fSmall dr ++ fSmall dg ++ fSmall db) 2 = dg ∧
    smallField (0b01#2 ++ fSmall dr ++ fSmall dg ++ fSmall db) 0 = db := by
  obtain ⟨hr, hg, hb⟩ := fitsSmall_iff.1 h
  obtain ⟨er, eg, eb⟩ := small_fields (fSmall dr) (fSmall dg) (fSmall db)
  simp only [smallField, er, eg, eb, fSmall_toNat hr, fSmall_toNat hg, fSmall_toNat hb, add_sub_cancel_right, and_self]

theorem medFields_encoded {dr dg db : Int} (h : fitsMed ⟨dr, dg, db⟩ = true) :
    medRed (0b10#2 ++ fMedR dr) = dr ∧ medNibble (fMedGB dg ++ fMedGB db) 4 = dg ∧
    medNibble (fMedGB dg ++ fMedGB db) 0 = db := by
  obtain ⟨hr, hg, hb⟩ := fitsMed_iff.1 h
  obtain ⟨eg, eb⟩ := nibble_fields (fMedGB dg) (fMedGB db)
  simp only [medRed, medNibble, low6_append, eg, eb, fMedR_toNat hr, fMedGB_toNat hg, fMedGB_toNat hb,
    add_sub_cancel_right, and_self]

theorem runLength_encoded {n : Nat} (h : 1 ≤ n ∧ n ≤ 63) : runLength (0b11#2 ++ fRun n) = n := by
  rw [runLength, low6_append, fRun_toNat (by omega)]
  omega

/-- The decoder reads a well-formed instruction back from its bytes and leaves what follows them. -/
theorem decode_encode_append {i : Instr} (h : i.wf = true) (rest : List Byte) :
    decode i.place (encode i ++ rest) = .ok (i, rest) := by
  cases i with
  | hdr h w => simp only [Instr.place, decode, encode, List.cons_append, List.nil_append, decodeHeader, bigEndian_split]
  | cache k =>
    refine (decodeOp_cache rest (opKind_cache k)).trans ?_
    rw [slotIndex, low6_append]
  | small dr dg db =>
    obtain ⟨hr, hg, hb⟩ := smallField_encoded h
    refine (decodeOp_small rest (opKind_small _ _ _)).trans ?_
    rw [hr, hg, hb]
  | med dr dg db =>
    obtain ⟨hr, hg, hb⟩ := medFields_encoded h
    refine (decodeOp_med rest _ (opKind_med _)).trans ?_
    rw [hr, hg, hb]
  | run n =>
    have hn : 1 ≤ n ∧ n ≤ 63 := by simpa [Instr.wf] using h
    refine (decodeOp_run rest (opKind_run _ (fRun_ne_escape hn))).trans ?_
    rw [runLength_encoded hn]
  | raw r g b => rfl

theorem decode_encode {i : Instr} (h : i.wf = true) : decode i.place (encode i) = .ok (i, []) := by
  simpa using decode_encode_append h []

/-- Every instruction's bytes are as many as its length says, and an op's first byte announces it (R70, R81). -/
theorem encode_lengths (i : Instr) : Laws.Lengths.Statement i := by
  cases i with
  | hdr h w => exact Laws.Lengths.hdr h w
  | cache k => exact Laws.Lengths.cache k
  | small dr dg db => exact Laws.Lengths.small dr dg db
  | med dr dg db => exact Laws.Lengths.med dr dg db
  | run n => exact Laws.Lengths.run n
  | raw r g b => exact Laws.Lengths.raw r g b

theorem length_encode (i : Instr) : (encode i).length = i.length := (encode_lengths i).1

/-! ## Bytes in the buffer, and the turn that reads them -/

theorem holdsBytes_append {m : Memory Byte} {a : Nat} {as bs : List Byte} :
    HoldsBytes m a (as ++ bs) ↔ HoldsBytes m a as ∧ HoldsBytes m (a + as.length) bs := by
  refine ⟨fun h => ⟨fun j hj => ?_, fun j hj => ?_⟩, fun ⟨h1, h2⟩ j hj => ?_⟩
  · rw [h j (by simp; omega), List.getElem?_append_left hj]
  · rw [Nat.add_assoc, h _ (by simp; omega), List.getElem?_append_right (by omega), Nat.add_sub_cancel_left]
  · by_cases hl : j < as.length
    · rw [h1 j hl, List.getElem?_append_left hl]
    · have hread := h2 (j - as.length) (by simp at hj; omega)
      rwa [Nat.add_assoc, Nat.add_sub_cancel' (by omega), ← List.getElem?_append_right (by omega)] at hread

/-- The header's bytes at the start of the buffer are the instruction of the header step (R161). -/
theorem fetch_header {h w : BitVec 16} {s : State} (hs : s.dec.stage = .hdr) (hl : 4 ≤ s.dec.l)
    (hb : HoldsBytes s.bytesIn 0 (encode (.hdr h w))) : fetch s = .instr (.hdr h w) := by
  simp only [fetch, hs, fetchHeader]
  have hlen : (encode (.hdr h w)).length = 4 := length_encode _
  exact hlen ▸ fetchAt_of_holds (by omega) hb (decode_encode (i := .hdr h w) rfl)

/-- A well-formed op whose bytes stand at the read pointer is the next instruction (R162). -/
theorem fetch_op {i : Instr} {s : State} (hn : OpNext s) (hwf : i.wf = true) (hp : i.place = .opStream)
    (hl : s.dec.rp + i.length ≤ s.dec.l) (hb : HoldsBytes s.bytesIn s.dec.rp (encode i)) : fetch s = .instr i := by
  obtain ⟨hlen, hfirst⟩ := encode_lengths i
  obtain ⟨b, hhead, hb1⟩ := hfirst hwf hp
  have hpos := (encode_length_bounds i).1
  have hbyte : byteIn s.dec.rp s = .ok b := by
    refine byteIn_ok.2 ⟨by omega, ?_⟩
    rw [← hhead, List.head?_eq_getElem?]
    exact hb 0 hpos
  simp only [fetch, hn.stage, hn.more, hn.bytes, if_false, fetchOp, hbyte, hb1]
  rw [← hlen] at hl ⊢
  exact fetchAt_of_holds hl hb (hp ▸ decode_encode hwf)

/-! ## What an engine remembers of the pixels so far -/

/-- The previous pixel and the cache (10_state.md rules R21, R23). -/
structure Context where
  prev : Pixel
  cache : Cache

/-- The context after a start (R130, R160). -/
def Context.started : Context := ⟨Pixel.zero, cacheCleared⟩

def Enc.context (e : Enc) : Context := ⟨e.prev, e.cache⟩

def Dec.context (d : Dec) : Context := ⟨d.prev, d.cache⟩

/-! ## Pieces of a stream -/

theorem SameDecoderRun.trans {s t u : State} (h1 : SameDecoderRun s t) (h2 : SameDecoderRun t u) :
    SameDecoderRun s u := by
  obtain ⟨a1, a2, a3, a4, a5, a6, a7⟩ := h1
  obtain ⟨b1, b2, b3, b4, b5, b6, b7⟩ := h2
  exact ⟨b1.trans a1, b2.trans a2, b3.trans a3, b4.trans a4, b5.trans a5, b6.trans a6, b7.trans a7⟩

theorem SameButDecoder.trans {s t u : State} (h1 : SameButDecoder s t) (h2 : SameButDecoder t u) :
    SameButDecoder s u := by
  obtain ⟨a1, a2, a3, a4, a5, a6, a7, a8⟩ := h1
  obtain ⟨b1, b2, b3, b4, b5, b6, b7, b8⟩ := h2
  exact ⟨b1.trans a1, b2.trans a2, b3.trans a3, b4.trans a4, b5.trans a5, b6.trans a6, b7.trans a7, b8.trans a8⟩

theorem SameButDecoder.decoderAlone {s t : State} (h : SameButDecoder s t) (ha : DecoderAlone s) : DecoderAlone t := by
  obtain ⟨_, henc, _, _, _, hagenda, _⟩ := h
  exact ⟨hagenda.trans ha.1, henc ▸ ha.2⟩

/-- `t` is `s` after `len` bytes of ops that wrote the pixels `ps` from the cursor on and left the context `c`. -/
structure PixelsDecoded (ps : List Pixel) (len : Nat) (c : Context) (s t : State) : Prop where
  context : t.dec.context = c
  cells : ∀ j, j < ps.length → Memory.read t.gridOut (s.dec.cur + j) = ps[j]?
  others : SameCellsOutside s.dec.cur (s.dec.cur + ps.length) s t
  cur : t.dec.cur = s.dec.cur + ps.length
  rp : t.dec.rp = s.dec.rp + len
  run : SameDecoderRun s t
  frame : SameButDecoder s t

theorem PixelsDecoded.nil (s : State) : PixelsDecoded [] 0 s.dec.context s s :=
  ⟨rfl, nofun, fun _ _ => rfl, rfl, rfl, ⟨rfl, rfl, rfl, rfl, rfl, rfl, rfl⟩, ⟨rfl, rfl, rfl, rfl, rfl, rfl, rfl, rfl⟩⟩

theorem PixelsDecoded.trans {ps qs : List Pixel} {m n : Nat} {c d : Context} {s t u : State}
    (h1 : PixelsDecoded ps m c s t) (h2 : PixelsDecoded qs n d t u) : PixelsDecoded (ps ++ qs) (m + n) d s u := by
  have hcur := h1.cur
  refine ⟨h2.context, fun j hj => ?_, fun j hj => ?_, ?_, ?_, h1.run.trans h2.run, h1.frame.trans h2.frame⟩
  · by_cases hl : j < ps.length
    · rw [h2.others _ (.inl (by omega)), h1.cells j hl, List.getElem?_append_left hl]
    · have hread := h2.cells (j - ps.length) (by simp at hj; omega)
      rwa [hcur, Nat.add_assoc, Nat.add_sub_cancel' (by omega), ← List.getElem?_append_right (by omega)] at hread
  · rw [List.length_append] at hj
    rw [h2.others j (by omega), h1.others j (by omega)]
  · rw [h2.cur, hcur, List.length_append, Nat.add_assoc]
  · rw [h2.rp, h1.rp, Nat.add_assoc]

/-- An op that produced one pixel. -/
theorem pixelsDecoded_afterPixel (p : Pixel) (len : Nat) (stores : Bool) (s : State) :
    PixelsDecoded [p] len ⟨p, if stores then cacheStore s.dec.cache (hashPixel p) p else s.dec.cache⟩ s
      (afterPixel p len stores s) := by
  obtain ⟨hcell, hothers, _, hcur, hrp, hrun, hframe⟩ := afterPixel_produced p len stores s
  refine ⟨rfl, fun j hj => ?_, hothers, hcur, hrp, hrun, hframe⟩
  obtain rfl : j = 0 := by simpa using hj
  exact hcell

/-- A RUN. -/
theorem RunWritten.pixelsDecoded {n : Nat} {s t : State} (h : RunWritten n s t) :
    PixelsDecoded (List.replicate n s.dec.prev) 1 s.dec.context s t := by
  obtain ⟨m, rfl, hm, _⟩ := h
  have hlen : (List.replicate n s.dec.prev).length = n := List.length_replicate
  refine ⟨rfl, fun j hj => ?_, fun j hj => ?_, ?_, rfl, ⟨rfl, rfl, rfl, rfl, rfl, rfl, rfl⟩, sameButDecoder_update _ _ s⟩
  · rw [hlen] at hj
    rw [List.getElem?_replicate_of_lt hj]
    exact (hm _).trans (if_pos (by omega))
  · rw [hlen] at hj
    exact (hm j).trans (if_neg (by omega))
  · rw [hlen]
    rfl

/-- The decoder is between two ops, with nothing else moving. -/
structure OpStage (s : State) : Prop where
  alone : DecoderAlone s
  busy : s.dec.phase = .busy
  stage : s.dec.stage = .ops

theorem OpStage.of_decoded {ps : List Pixel} {len : Nat} {c : Context} {s t : State} (h : OpStage s)
    (hd : PixelsDecoded ps len c s t) : OpStage t := by
  obtain ⟨hphase, _, hstage, _⟩ := hd.run
  exact ⟨hd.frame.decoderAlone h.alone, hphase.trans h.busy, hstage.trans h.stage⟩

/-- The bytes `bs` decode to the pixels `ps`: wherever they stand in a buffer, a decoder that reaches them with context
`c`, and has room in its grid, steps over them, writes those pixels, and goes on with context `c'`. -/
def DecodesTo (c : Context) (bs : List Byte) (ps : List Pixel) (c' : Context) : Prop :=
  ∀ s : State, OpStage s → s.dec.context = c → HoldsBytes s.bytesIn s.dec.rp bs → s.dec.rp + bs.length ≤ s.dec.l →
    s.dec.cur + ps.length ≤ s.dec.n → ∃ k t, runSteps k s = .next t ∧ PixelsDecoded ps bs.length c' s t

theorem DecodesTo.nil (c : Context) : DecodesTo c [] [] c := by
  rintro s _ rfl _ _ _
  exact ⟨0, s, rfl, .nil s⟩

theorem DecodesTo.append {c c' c'' : Context} {as bs : List Byte} {ps qs : List Pixel} (h1 : DecodesTo c as ps c')
    (h2 : DecodesTo c' bs qs c'') : DecodesTo c (as ++ bs) (ps ++ qs) c'' := by
  intro s hs hc hbytes hl hn
  rw [List.length_append] at hl hn
  obtain ⟨has, hbs⟩ := holdsBytes_append.1 hbytes
  obtain ⟨k, t, hk, ht⟩ := h1 s hs hc has (by omega) (by omega)
  obtain ⟨_, _, _, hlt, _, _, hnt⟩ := ht.run
  obtain ⟨_, _, _, hbt, _⟩ := ht.frame
  have hcur := ht.cur
  have hrp := ht.rp
  obtain ⟨k', u, hk', hu⟩ := h2 t (hs.of_decoded ht) ht.context (by rwa [hbt, hrp]) (by omega) (by omega)
  exact ⟨k + k', u, (runSteps_add hk).trans hk', List.length_append ▸ ht.trans hu⟩

/-- A decoder that moves alone takes its turn. -/
theorem runSteps_one_decoder {s t : State} (ha : DecoderAlone s) (h : decTurn s = .next t) : runSteps 1 s = .next t := by
  rw [runSteps_succ, step_decoderAlone ha, h]
  rfl

/-- The bytes of one well-formed op decode to the pixels its meaning writes. -/
theorem decodesTo_op {c c' : Context} {i : Instr} {ps : List Pixel} (hwf : i.wf = true) (hp : i.place = .opStream)
    (hne : 0 < ps.length)
    (hexec : ∀ s : State, s.dec.context = c → s.dec.rp + i.length ≤ s.dec.l → s.dec.cur + ps.length ≤ s.dec.n →
      ∃ t, exec i s = .next t ∧ PixelsDecoded ps i.length c' s t) : DecodesTo c (encode i) ps c' := by
  intro s hs hc hbytes hl hn
  have hpos := (encode_length_bounds i).1
  have hnext : OpNext s := ⟨hs.busy, hs.stage, by omega, by omega⟩
  rw [length_encode] at hl ⊢
  obtain ⟨t, ht, hd⟩ := hexec s hc hl hn
  refine ⟨1, t, runSteps_one_decoder hs.alone ?_, hd⟩
  rw [decTurn_of_instr hs.busy (fetch_op hnext hwf hp hl hbytes), ht]

/-! ## The encoder's ops decode to its pixels (rule R127) -/

theorem decodesTo_run {n : Nat} (c : Context) (hn : 1 ≤ n ∧ n ≤ 63) :
    DecodesTo c (encode (.run n)) (List.replicate n c.prev) c := by
  refine decodesTo_op (by simpa [Instr.wf] using hn) rfl (by simp; omega) ?_
  rintro s rfl _ hroom
  obtain ⟨t, ht, hw⟩ := execRun_fits (n := n) (s := s) (by simpa using hroom)
  exact ⟨t, ht, hw.pixelsDecoded⟩

/-- The pending run's op, if there is one, decodes to the pending pixels. -/
theorem decodesTo_endRunOps {s : State} (h : s.enc.run ≤ 63) :
    DecodesTo s.enc.context (encodeAll (endRunOps s)) (List.replicate s.enc.run s.enc.prev) s.enc.context := by
  by_cases h0 : s.enc.run = 0
  · simp only [endRunOps, h0, if_true]
    exact .nil _
  · simp only [endRunOps, h0, if_false, encodeAll_singleton]
    exact decodesTo_run s.enc.context ⟨Nat.pos_of_ne_zero h0, h⟩

/-- A missed pixel's op, from the same previous pixel, gives the pixel back whichever band it took (R105, R106). -/
theorem exec_missInstr {p : Pixel} {s : State} (hl : s.dec.rp + (missInstr p (diff p s.dec.prev)).length ≤ s.dec.l)
    (hc : s.dec.cur < s.dec.n) :
    exec (missInstr p (diff p s.dec.prev)) s =
      .next (afterPixel p (missInstr p (diff p s.dec.prev)).length true s) := by
  have hr := recon_diff p s.dec.prev
  revert hl
  unfold missInstr
  split_ifs
  · exact fun _ => exec_small_completes hr hc
  · exact fun hl => exec_med_completes hl hr hc
  · exact fun hl => exec_raw_completes hl hc

/-- The op of a pixel that differs from `enc.prev` decodes to the pixel, and the decoder's cache goes as the encoder's. -/
theorem decodesTo_pixelOp (p : Pixel) (s : State) :
    DecodesTo s.enc.context (encode (pixelOp p s)) [p] ⟨p, pixelCache p s⟩ := by
  obtain ⟨hwf, hplace, _⟩ := pixelOp_wf p s
  refine decodesTo_op hwf hplace (by simp) fun d hd hl hn => ?_
  obtain ⟨hprev, hcache⟩ := Context.mk.inj hd
  by_cases hit : cacheLookup s.enc.cache (hashPixel p) = p
  · obtain ⟨hop, hkeep⟩ := pixelOp_hit hit
    have hdec := pixelsDecoded_afterPixel (cacheLookup d.dec.cache (hashPixel p)) 1 false d
    rw [hop, hkeep]
    refine ⟨_, exec_cache_completes hn, ?_⟩
    rwa [hcache, hit] at hdec ⊢
  · obtain ⟨hop, hstore⟩ := pixelOp_miss hit
    rw [hop, ← hprev] at hl ⊢
    rw [hstore, ← hcache]
    exact ⟨_, exec_missInstr hl hn, pixelsDecoded_afterPixel p _ true d⟩

/-! ## The encoder's stream -/

/-- What the encoder has done after the k pixels P 0, P 1, … from `s` on: the bytes appended decode to all of them but
the pending run, which is of the previous pixel, and the decoder's context is then the encoder's. -/
def StreamSent (P : Nat → Pixel) (s : State) (k : Nat) (u : State) : Prop :=
  ∃ bs ps, Appended bs s u ∧ DecodesTo s.enc.context bs ps u.enc.context ∧
    ps ++ List.replicate u.enc.run u.enc.prev = (List.range k).map P

section StreamSent
variable {P : Nat → Pixel} {s u : State} {k : Nat}

theorem StreamSent.zero (h : s.enc.run = 0) : StreamSent P s 0 s :=
  ⟨[], [], appended_nil rfl rfl, .nil _, by rw [h]; rfl⟩

/-- The pending pixels sent, the bytes decode to every pixel taken. -/
theorem StreamSent.endRun (h : StreamSent P s k u) (hr : u.enc.run ≤ 63) : ∃ bs, Appended bs s u ∧
    DecodesTo s.enc.context (bs ++ encodeAll (endRunOps u)) ((List.range k).map P) u.enc.context := by
  obtain ⟨bs, ps, ha, hd, hps⟩ := h
  exact ⟨bs, ha, hps ▸ hd.append (decodesTo_endRunOps hr)⟩

theorem map_range_succ (P : Nat → Pixel) (k : Nat) : (List.range (k + 1)).map P = (List.range k).map P ++ [P k] := by
  rw [List.range_succ, List.map_append, List.map_singleton]

/-- An equal pixel joins the pending run or, at the cap, sends it (R135, R136). -/
theorem StreamSent.equal (h : StreamSent P s k u) (hp : P k = u.enc.prev) :
    StreamSent P s (k + 1) (encTakePixel u.enc.prev u) := by
  obtain ⟨bs, ps, ha, hd, hps⟩ := h
  have hmap := map_range_succ P k
  rw [hp, ← hps, List.append_assoc, ← List.replicate_succ'] at hmap
  by_cases hcap : u.enc.run + 1 = 62
  · obtain ⟨he, henc⟩ := encTakePixel_cap hcap
    have hctx : (encTakePixel u.enc.prev u).enc.context = u.enc.context := by rw [henc]; rfl
    refine ⟨_, _, ha.trans he.appended, hctx ▸ hd.append (decodesTo_run u.enc.context (by decide)), ?_⟩
    rw [henc, hmap, hcap, List.replicate_zero, List.append_nil]
    rfl
  · rw [encTakePixel_equal hcap]
    exact ⟨bs, ps, ha, hd, hmap.symm⟩

/-- A differing pixel sends the pending run and itself (R137). -/
theorem StreamSent.differing (h : StreamSent P s k u) (hr : u.enc.run ≤ 63) (hp : P k ≠ u.enc.prev) :
    StreamSent P s (k + 1) (encTakePixel (P k) u) := by
  obtain ⟨bs, ha, hd⟩ := h.endRun hr
  obtain ⟨he, henc⟩ := encTakePixel_other hp
  have hctx : (encTakePixel (P k) u).enc.context = ⟨P k, pixelCache (P k) u⟩ := by rw [henc]; rfl
  have hboth := hd.append (decodesTo_pixelOp (P k) u)
  rw [List.append_assoc, ← encodeAll_singleton, ← encodeAll_append, ← hctx] at hboth
  refine ⟨_, _, ha.trans he.appended, hboth, ?_⟩
  rw [henc, map_range_succ, List.replicate_zero, List.append_nil]

theorem StreamSent.succ (h : StreamSent P s k u) (hr : u.enc.run < maxRun) :
    StreamSent P s (k + 1) (encTakePixel (P k) u) := by
  unfold maxRun at hr
  by_cases hp : P k = u.enc.prev
  · rw [hp]
    exact h.equal hp
  · exact h.differing (by omega) hp

end StreamSent

/-! ## The whole encode -/

/-- The header step writes neither the previous pixel nor the cache. -/
theorem encHeaderStep_context (s : State) : (encHeaderStep s).enc.context = s.enc.context := by
  by_cases hd : s.enc.hin.toNat > maxDim ∨ s.enc.win.toNat > maxDim
  · rw [encHeaderStep_raises hd]
    rfl
  · rw [(encHeaderStep_passes (s := s) (by omega)).2]
    rfl

/-- After the start and the header step the context is the start's. -/
theorem context_of_first_step {hin win : BitVec 32} {s u : State} (ha : EncoderAlone s)
    (h : runSteps 1 (startEncoder hin win s) = .next u) : u.enc.context = .started := by
  have ha' : EncoderAlone (startEncoder hin win s) := ha
  rw [runSteps_succ, step_encoderAlone ha', encTurn_header rfl rfl] at h
  cases h
  exact encHeaderStep_context _

/-- Pixel j of the grid in the order of its linear index (20_memory.md rule R61). -/
def rasterPixel (G : Nat → Nat → Pixel) (w j : Nat) : Pixel := G (j / w) (j % w)

/-- The encode of a grid ends DONE, and its stream is the header and bytes that decode to the grid's pixels in order. -/
theorem runSteps_encode {G : Nat → Nat → Pixel} {hin win : BitVec 32} {s : State} (ha : EncoderAlone s)
    (hd : hin.toNat ≤ maxDim ∧ win.toNat ≤ maxDim) (hgrid : InputGrid G hin.toNat win.toNat s) :
    ∃ k t bs c, runSteps k (startEncoder hin win s) = .next t ∧ t.enc.phase = .done ∧
      Appended (encode (.hdr (dimLow hin) (dimLow win)) ++ bs) (startEncoder hin win s) t ∧
      DecodesTo .started bs ((List.range (hin.toNat * win.toNat)).map (rasterPixel G win.toNat)) c := by
  obtain ⟨u, hu, hstage, hemits, hi, hrun, _, hhin, hwin⟩ := runSteps_startEncoder ha hd
  have hsized := hstage.pixels.sized
  have hw : u.enc.w.toNat = win.toNat := by rw [hsized.w_toNat, hwin]
  have hn : u.enc.n = hin.toNat * win.toNat := by rw [hsized.n_eq, hhin, hwin]
  obtain ⟨_, _, hin_eq, _⟩ := hemits.frame
  obtain ⟨v, hv, htaken, hsent⟩ := runSteps_pixels (P := rasterPixel G win.toNat)
    (Q := StreamSent (rasterPixel G win.toNat) u) hstage (.zero hrun)
    (fun _ _ ht hq => hq.succ ht.stage.pixels.run) u.enc.n (by omega) fun j hj => by
      have hpos := position_lt (hn ▸ hj)
      rw [hi, Nat.zero_add, hw, hin_eq]
      exact hgrid _ _ hpos.1 hpos.2
  obtain ⟨_, _, _, _, _, _, _, hnv⟩ := htaken.run
  have hend : v.enc.i = v.enc.n := by rw [htaken.i, hi, hnv, Nat.zero_add]
  have hcap := htaken.stage.pixels.run
  unfold maxRun at hcap
  obtain ⟨bs, hbs, hdec⟩ := hsent.endRun (by omega)
  obtain ⟨hflush, henc⟩ := encFlushStep_emits v
  refine ⟨1 + (u.enc.n + 1), encFlushStep v, bs ++ encodeAll (endRunOps v), v.enc.context, ?_, by rw [henc], ?_, ?_⟩
  · rw [runSteps_add hu, runSteps_add hv, htaken.stage.flush hend]
  · exact hemits.appended.trans (hbs.trans hflush.appended)
  · rwa [context_of_first_step ha hu, hn] at hdec

/-! ## The whole decode -/

/-- After the start, the header at the front of the buffer sets the dimensions and enters the op stage. -/
theorem runSteps_startDecoder {h w : BitVec 16} {l : Nat} {u : State} (ha : DecoderAlone u) (hl : 4 ≤ l)
    (hb : HoldsBytes u.bytesIn 0 (encode (.hdr h w))) :
    runSteps 1 (startDecoder l u) = .next (finishHeader h w (startDecoder l u)) := by
  have ha' : DecoderAlone (startDecoder l u) := ha
  refine runSteps_one_decoder ha' ?_
  rw [decTurn_of_instr rfl (fetch_header (s := startDecoder l u) rfl hl hb)]
  exact exec_hdr_completes hl

/-- With the grid full and every byte read, the decode is complete under either value of STRICT_TRAILING (R163). -/
theorem OpStage.completes {s : State} (h : OpStage s) (hc : s.dec.cur = s.dec.n) (hl : s.dec.rp = s.dec.l) :
    runSteps 1 s = .next (finishDecoder s) := by
  refine runSteps_one_decoder h.alone ?_
  rw [decTurn_full h.busy h.stage hc, decComplete_finishes (.inr hl.ge)]

/-- The decode of a header and bytes that decode to as many pixels as it declares ends DONE with those pixels, every byte
read. -/
theorem runSteps_decode {c : Context} {h w : BitVec 16} {bs : List Byte} {ps : List Pixel} {u : State}
    (ha : DecoderAlone u) (hbytes : HoldsBytes u.bytesIn 0 (encode (.hdr h w) ++ bs))
    (hdec : DecodesTo .started bs ps c) (hps : ps.length = pixelCount h w) :
    ∃ k v, runSteps k (startDecoder (4 + bs.length) u) = .next v ∧ v.dec.phase = .done ∧ v.dec.code = .ok ∧
      v.dec.h = h ∧ v.dec.w = w ∧ v.dec.rp = 4 + bs.length ∧ ∀ j, j < ps.length → Memory.read v.gridOut j = ps[j]? := by
  obtain ⟨hhdr, hrest⟩ := holdsBytes_append.1 hbytes
  have hfirst := runSteps_startDecoder ha (Nat.le_add_right 4 bs.length) hhdr
  have hstage : OpStage (finishHeader h w (startDecoder (4 + bs.length) u)) := ⟨ha, rfl, rfl⟩
  obtain ⟨k, t, hk, ht⟩ := hdec _ hstage rfl hrest le_rfl (by rw [hps]; exact (Nat.zero_add _).le)
  obtain ⟨_, hcode, _, hl, hh, hw, hn⟩ := ht.run
  have hfull : t.dec.cur = t.dec.n := by
    rw [ht.cur, hn, hps]
    exact Nat.zero_add _
  have hread : t.dec.rp = t.dec.l := by
    rw [ht.rp, hl]
    rfl
  refine ⟨1 + (k + 1), finishDecoder t, ?_, rfl, hcode, hh, hw, ht.rp, fun j hj => ?_⟩
  · rw [runSteps_add hfirst, runSteps_add hk, (hstage.of_decoded ht).completes hfull hread]
  · have hcell := ht.cells j hj
    rwa [finishHeader_dec, startDecoder_dec, Nat.zero_add] at hcell

/-! ## There and back -/

/-- A position's linear index lies in the grid and names that position's pixel. -/
theorem rasterPixel_linearIndex (G : Nat → Nat → Pixel) {w row col : Nat} (hc : col < w) :
    rasterPixel G w (linearIndex w row col) = G row col := by
  have hw : 0 < w := by omega
  rw [rasterPixel, linearIndex, Nat.mul_comm row w, Nat.mul_add_div hw, Nat.div_eq_of_lt hc, Nat.add_zero,
    Nat.mul_add_mod, Nat.mod_eq_of_lt hc]

theorem linearIndex_lt {h w row col : Nat} (hr : row < h) (hc : col < w) : linearIndex w row col < h * w :=
  calc row * w + col < row * w + w := by omega
    _ = (row + 1) * w := (Nat.succ_mul row w).symm
    _ ≤ h * w := Nat.mul_le_mul_right w hr

/-- Settles O50: the encoder's stream is a header and bytes that decode to the grid's pixels in order, and the decoder,
which finds the same bytes in its buffer, steps over them. -/
theorem roundTrip : Obligations.RoundTrip := by
  intro G hin win s ha hh hw hgrid
  obtain ⟨k, t, bs, c, hk, hdone, ⟨hlen, hholds, _⟩, hdec⟩ := runSteps_encode ha ⟨hh, hw⟩ hgrid
  rw [startEncoder_enc, Nat.zero_add] at hlen
  have hlen4 : t.enc.outlen = 4 + bs.length := by rw [hlen, List.length_append, length_encode, Instr.length]
  refine ⟨k, t, hk, hdone, fun u hu hsame => ?_⟩
  have hbytes : HoldsBytes u.bytesIn 0 (encode (.hdr (dimLow hin) (dimLow win)) ++ bs) := fun j hj =>
    (hsame _ (by omega)).trans (hholds j hj)
  have hcount := pixelCount_dimLow hh hw
  obtain ⟨k', v, hv, hvdone, hvcode, hvh, hvw, hvrp, hcells⟩ :=
    runSteps_decode hu hbytes hdec (by rw [List.length_map, List.length_range, hcount])
  have hvh' : v.dec.h.toNat = hin.toNat := by rw [hvh, dimLow_toNat hh]
  have hvw' : v.dec.w.toNat = win.toNat := by rw [hvw, dimLow_toNat hw]
  refine ⟨k', v, hlen4 ▸ hv, hvdone, hvcode, hvh', hvw', fun row col hrow hcol => ?_, hvrp.trans hlen4.symm⟩
  rw [hvh'] at hrow
  rw [hvw'] at hcol ⊢
  have hlt := linearIndex_lt hrow hcol
  rw [hcells _ (by simpa using hlt), List.getElem?_map, List.getElem?_range hlt, Option.map_some,
    rasterPixel_linearIndex G hcol]

end Sys2Proof.Machine
end

section
/-! The statements about errors and starts (60_exceptions.md): when a start is enabled (R210), what each engine can raise
and from which cause (R201, R202), the order of the decoder's checks (R206), and the independence of the engines (R207). -/

namespace Sys2Proof.Machine

/-! ## Starts and independence (rules R207, R210) -/

/-- Settles O12: a start command is an arm of `hostStep` whose first test is the phase, and a length that fits passes the
decoder's second. -/
theorem startWhileBusyHasNoMove : Obligations.StartWhileBusyHasNoMove := fun _ =>
  ⟨fun _ _ hb => if_pos hb, fun _ _ hb => ⟨_, if_neg hb⟩, fun _ hb => if_pos hb,
    fun _ hb hl => ⟨_, (if_neg hb).trans (if_pos hl)⟩⟩

/-- Settles O47: the frames of the two turns. -/
theorem enginesAreIndependent : Obligations.EnginesAreIndependent := fun _ _ =>
  ⟨encTurn_frame, fun h => (decTurn_frame h).1⟩

/-! ## The encoder's error (rule R201) -/

/-- Settles O46: of the three steps only the header step with a dimension above the bound writes ERROR; the flush writes
DONE, and the others leave the phase BUSY. -/
theorem encoderRaisesOnlyDimensionOverflow : Obligations.EncoderRaisesOnlyDimensionOverflow := by
  intro s t hb h ht
  rcases encTurn_cases h with ⟨hn, _⟩ | ⟨_, hs, rfl⟩ | ⟨_, _, _, rfl⟩ | ⟨_, _, _, p, _, rfl⟩
  · exact absurd hb hn
  · by_cases hd : s.enc.hin.toNat > maxDim ∨ s.enc.win.toNat > maxDim
    · rw [encHeaderStep_raises hd]
      exact ⟨rfl, hs, hd⟩
    · rw [(encHeaderStep_passes (s := s) (by omega)).2] at ht
      cases hb.symm.trans ht
  · rw [(encFlushStep_emits s).2] at ht
    cases ht
  · obtain ⟨_, ⟨hphase, _⟩, _⟩ := encTakePixel_frame p s
    cases hb.symm.trans (hphase.symm.trans ht)

/-! ## Which bytes decode (30_encoding.md rules R80 to R82) -/

theorem opLength_pos (b : Byte) : 1 ≤ opLength b := by
  unfold opLength
  split <;> decide

/-- An op longer than its first byte is RAW or MED (R81). -/
theorem opKind_of_opLength {b : Byte} (h : opLength b ≠ 1) : opKind b = .raw ∨ opKind b = .med := by
  unfold opLength at h
  cases hk : opKind b with
  | raw => exact .inl rfl
  | med => exact .inr rfl
  | run | small | cache => exact absurd (by rw [hk]) h

/-- What decodes as an op is one, as long as its first byte announces, and the bytes after it are left. -/
theorem decodeOp_ok {bs rest : List Byte} {i : Instr} (h : decodeOp bs = .ok (i, rest)) :
    ∃ b, bs.head? = some b ∧ i.place = .opStream ∧ i.length = opLength b ∧ bs.length = i.length + rest.length := by
  cases bs with
  | nil => cases h
  | cons b bs =>
    refine ⟨b, rfl, ?_⟩
    unfold opLength
    cases hk : opKind b <;> simp only [decodeOp, hk] at h
    case raw =>
      split at h <;> cases h
      exact ⟨rfl, rfl, Nat.add_comm _ 4⟩
    case med =>
      split at h <;> cases h
      exact ⟨rfl, rfl, Nat.add_comm _ 2⟩
    all_goals
      cases h
      exact ⟨rfl, rfl, Nat.add_comm _ 1⟩

/-- Bytes as many as the first of them announces always decode: no first byte is illegal. -/
theorem decodeOp_whole {b : Byte} {bs : List Byte} (h : opLength b ≤ bs.length + 1) :
    ∃ i rest, decodeOp (b :: bs) = .ok (i, rest) := by
  unfold opLength at h
  cases hk : opKind b <;> simp only [decodeOp, hk] at h ⊢
  case raw =>
    match bs, h with
    | _ :: _ :: _ :: _, _ => exact ⟨_, _, rfl⟩
  case med =>
    match bs, h with
    | _ :: _, _ => exact ⟨_, _, rfl⟩
  all_goals exact ⟨_, _, rfl⟩

theorem decodeHeader_ok {bs rest : List Byte} {i : Instr} (h : decodeHeader bs = .ok (i, rest)) :
    ∃ v w, i = .hdr v w := by
  unfold decodeHeader at h
  split at h <;> cases h
  exact ⟨_, _, rfl⟩

theorem decodeHeader_whole {bs : List Byte} (h : bs.length = 4) : ∃ i rest, decodeHeader bs = .ok (i, rest) := by
  match bs, h with
  | [_, _, _, _], _ => exact ⟨_, _, rfl⟩

/-! ## The fetch against the bytes of the buffer (43_decoder.md rules R161, R162) -/

theorem HoldsBytes.head {m : Memory Byte} {a : Nat} {b : Byte} {bs : List Byte} (h : HoldsBytes m a bs)
    (hb : bs.head? = some b) : Memory.read m a = some b := by
  rw [List.head?_eq_getElem?] at hb
  exact (h 0 (List.getElem?_eq_some_iff.1 hb).1).trans hb

/-- An op that stands in the buffer is no header, and ends within L. -/
theorem InstrAt.op_within {a : Nat} {i : Instr} {s : State} (h : InstrAt .opStream a i s) :
    i.place = .opStream ∧ a + i.length ≤ s.dec.l := by
  obtain ⟨bs, hd, _, hl⟩ := h
  obtain ⟨_, _, hp, _, hlen⟩ := decodeOp_ok hd
  rw [hlen] at hl
  exact ⟨hp, hl⟩

/-- The op that stands at the read pointer is fetched. -/
theorem InstrAt.fetch_op {i : Instr} {s : State} (h : InstrAt .opStream s.dec.rp i s) (hs : s.dec.stage = .ops)
    (hc : s.dec.cur ≠ s.dec.n) : fetch s = .instr i := by
  obtain ⟨bs, hd, hb, hl⟩ := h
  obtain ⟨b, hhead, _, hlen, hbs⟩ := decodeOp_ok hd
  have hpos := opLength_pos b
  have hbyte : byteIn s.dec.rp s = .ok b := byteIn_ok.2 ⟨by omega, hb.head hhead⟩
  have hrp : s.dec.rp ≠ s.dec.l := by omega
  have hlen' : opLength b = bs.length := by simp [hbs, hlen]
  simp only [fetch, hs, hc, hrp, if_false, fetchOp, hbyte, hlen']
  exact fetchAt_of_holds hl hb hd

/-- Conversely, a fetched op stands at the read pointer. -/
theorem instrAt_of_fetch_op {i : Instr} {s : State} (h : fetch s = .instr i) (hs : s.dec.stage = .ops) :
    InstrAt .opStream s.dec.rp i s := by
  rcases fetch_instr h with ⟨hhdr, _⟩ | ⟨_, _, _, b, bs, rest, hread, hlen, hl, hb, hd⟩
  · cases hs.symm.trans hhdr
  · obtain ⟨b', hhead, _, hi, hbs⟩ := decodeOp_ok hd
    cases hread.symm.trans (hb.head hhead)
    have hrest : rest = [] := List.eq_nil_of_length_eq_zero (by omega)
    exact ⟨bs, hrest ▸ hd, hb, hlen ▸ hl⟩

/-- The first byte of an op is read, and the bytes it announces pass L (R165, R168). -/
def OpCut (b : Byte) (s : State) : Prop :=
  s.dec.rp < s.dec.l ∧ Memory.read s.bytesIn s.dec.rp = some b ∧ s.dec.l < s.dec.rp + opLength b

theorem fetchHeader_short {s : State} (hs : s.dec.stage = .hdr) (hl : s.dec.l < 4) :
    fetch s = .error .truncatedHeader := by
  simp only [fetch, hs, fetchHeader, fetchAt]
  exact if_pos (by omega)

theorem OpCut.fetch_truncatedOp {b : Byte} {s : State} (h : OpCut b s) (hs : s.dec.stage = .ops) (hc : s.dec.cur ≠ s.dec.n) :
    fetch s = .error .truncatedOp := by
  obtain ⟨hrp, hread, hl⟩ := h
  have hbyte : byteIn s.dec.rp s = .ok b := byteIn_ok.2 ⟨hrp, hread⟩
  simp only [fetch, hs, hc, hrp.ne, if_false, fetchOp, hbyte, fetchAt]
  exact if_pos hl

/-- Where whole bytes always decode, the fetch fails only on a unit cut short. -/
theorem fetchAt_error_short {place : Place} {a n : Nat} {c c' : Code} {s : State} (h : fetchAt place a n c s = .error c')
    (whole : ∀ bs, bs.length = n → HoldsBytes s.bytesIn a bs → ∃ i rest, decode place bs = .ok (i, rest)) :
    s.dec.l < a + n := by
  unfold fetchAt at h
  split_ifs at h with hl
  · exact hl
  · split at h
    · cases h
    next bs hbytes =>
      obtain ⟨hlen, _, hholds⟩ := bytesInAt_ok hbytes
      obtain ⟨i, rest, hd⟩ := whole bs hlen hholds
      simp only [hd] at h
      cases h

/-- The three errors of the fetch, each with its cause (R161, R164, R165 with R168). -/
theorem fetch_error_cause {c : Code} {s : State} (h : fetch s = .error c) :
    (c = .truncatedHeader ∧ s.dec.stage = .hdr ∧ s.dec.l < 4) ∨
    (s.dec.stage = .ops ∧ ((c = .truncatedOp ∧ ∃ b, OpCut b s) ∨
      (c = .truncatedStream ∧ s.dec.cur ≠ s.dec.n ∧ s.dec.rp = s.dec.l))) := by
  unfold fetch at h
  cases hs : s.dec.stage with
  | hdr =>
    simp only [hs, fetchHeader] at h
    have hl := fetchAt_error_short h fun bs hlen _ => decodeHeader_whole hlen
    exact .inl ⟨fetchAt_error h, rfl, by omega⟩
  | ops =>
    simp only [hs] at h
    split_ifs at h with hc hrp
    · exact .inr ⟨rfl, .inr ⟨(Fetched.error.inj h).symm, hc, hrp⟩⟩
    · unfold fetchOp at h
      split at h
      · cases h
      next b hbyte =>
        obtain ⟨hlt, hread⟩ := byteIn_ok.1 hbyte
        refine .inr ⟨rfl, .inl ⟨fetchAt_error h, b, hlt, hread, fetchAt_error_short h fun bs hlen hholds => ?_⟩⟩
        cases bs with
        | nil => exact absurd hlen.symm (Nat.ne_of_gt (opLength_pos b))
        | cons b' bs =>
          cases hread.symm.trans (hholds.head rfl)
          exact decodeOp_whole (Nat.le_of_eq hlen.symm)

/-! ## The order of the checks (rule R206) -/

/-- A turn whose fetch is an error raises it. -/
theorem decTurn_raises_of_error {c : Code} {s : State} (hb : s.dec.phase = .busy) (h : fetch s = .error c) :
    ∃ t, decTurn s = .next t ∧ DecoderRaised c s t :=
  ⟨_, decTurn_of_error hb h, decoderRaised_raiseError c s⟩

/-- A turn whose fetched instruction raises, raises. -/
theorem decTurn_raises_of_instr {i : Instr} {c : Code} {s : State} (hb : s.dec.phase = .busy) (h : fetch s = .instr i)
    (he : exec i s = .next (raiseError .dec c s)) : ∃ t, decTurn s = .next t ∧ DecoderRaised c s t :=
  ⟨_, (decTurn_of_instr hb h).trans he, decoderRaised_raiseError c s⟩

/-- Settles O28: the full grid and the exhausted buffer are the two statements about completion; the other checks are
those of the fetch, and then those of the fetched instruction. -/
theorem errorChecksInOrder : Obligations.ErrorChecksInOrder := by
  refine fun s hb => ⟨fun hs hl => ?_, fun hs hc hst hl => ?_, bufferExhaustedBeforeGridFull s hb,
    fun b hs hc hrp hread hl => ?_, fun n hs hc hi hn => ?_, fun i dr dg db hs hc hkind hi hr => ?_⟩
  · exact decTurn_raises_of_error hb (fetchHeader_short hs hl)
  · exact (completionOfAFullGrid s hb hs hc).1 hst hl
  · exact decTurn_raises_of_error hb (OpCut.fetch_truncatedOp ⟨hrp, hread, hl⟩ hs hc.ne)
  · exact decTurn_raises_of_instr hb (hi.fetch_op hs hc.ne) (exec_run_raises hn)
  · refine decTurn_raises_of_instr hb (hi.fetch_op hs hc.ne) ?_
    obtain ⟨_, hl⟩ := hi.op_within
    rcases hkind with rfl | rfl
    · exact exec_small_raises hr
    · exact exec_med_raises hl hr

/-! ## The causes of the decoder's errors (rule R202) -/

section Causes
variable {s t : State} (hb : s.dec.phase = .busy) (ht : t.dec.phase = .error)
include hb ht

/-- A BUSY decoder whose step ended in ERROR had its phase written, which no completing op does. -/
theorem phase_ne_of_error : t.dec.phase ≠ s.dec.phase := by simp [hb, ht]

theorem produceFromDiff_error {d : Diff} {len : Nat} (h : produceFromDiff d len s = .next t) :
    t.dec.code = .corruptStream ∧ recon s.dec.prev d = none := by
  rcases produceFromDiff_next.1 h with ⟨hr, rfl⟩ | ⟨p, _, _, rfl⟩
  · exact ⟨rfl, hr⟩
  · exact absurd rfl (phase_ne_of_error hb ht)

/-- An op whose bytes are all there raises only for a channel out of range or a RUN past the grid (R166, R170). -/
theorem exec_error_cause {i : Instr} (h : exec i s = .next t) (hp : i.place = .opStream)
    (hl : s.dec.rp + i.length ≤ s.dec.l) :
    (t.dec.code = .corruptStream ∧ ∃ dr dg db, (i = .small dr dg db ∨ i = .med dr dg db) ∧
      recon s.dec.prev ⟨dr, dg, db⟩ = none) ∨
    (t.dec.code = .gridOverrun ∧ ∃ n, i = .run n ∧ s.dec.n < s.dec.cur + n) := by
  have completed := phase_ne_of_error hb ht
  cases i with
  | hdr v w => cases hp
  | cache k =>
    obtain ⟨_, rfl⟩ := producePixel_next.1 h
    exact absurd rfl completed
  | small dr dg db =>
    obtain ⟨hcode, hr⟩ := produceFromDiff_error hb ht h
    exact .inl ⟨hcode, dr, dg, db, .inl rfl, hr⟩
  | med dr dg db =>
    rw [exec_med_whole hl] at h
    obtain ⟨hcode, hr⟩ := produceFromDiff_error hb ht h
    exact .inl ⟨hcode, dr, dg, db, .inr rfl, hr⟩
  | run n =>
    rcases execRun_next h with ⟨hn, rfl⟩ | ⟨_, _, rfl, _⟩
    · exact .inr ⟨rfl, n, rfl, hn⟩
    · exact absurd rfl completed
  | raw r g b =>
    obtain ⟨_, rfl⟩ := producePixel_next.1 ((if_neg (Nat.not_lt.2 hl)).symm.trans h)
    exact absurd rfl completed

end Causes

/-- A completion that ends in ERROR found bytes left (R163). -/
theorem decComplete_error {s : State} (h : (decComplete s).dec.phase = .error) :
    (decComplete s).dec.code = .gridOverrun ∧ s.cfg.strictTrailing = true ∧ s.dec.rp < s.dec.l := by
  by_cases hst : s.cfg.strictTrailing = false ∨ s.dec.l ≤ s.dec.rp
  · rw [decComplete_finishes hst] at h
    cases h
  · rw [not_or, Bool.not_eq_false, Nat.not_le] at hst
    rw [decComplete_raises hst.1 hst.2]
    exact ⟨rfl, hst⟩

/-- Settles O30: an error comes from the fetch, from the fetched instruction, or from the completion, each with its causes;
a fetched header has its four bytes. -/
theorem decoderErrorsHaveTheirNamedCause : Obligations.DecoderErrorsHaveTheirNamedCause := by
  intro s t hb h ht
  rcases decTurn_cases h with ⟨hn, _⟩ | ⟨_, i, hf, he⟩ | ⟨_, c, hf, rfl⟩ | ⟨_, hf, rfl⟩
  · exact absurd hb hn
  · rcases fetch_instr hf with ⟨_, bs, rest, _, hl, _, hd⟩ | ⟨hs, _⟩
    · obtain ⟨v, w, rfl⟩ := decodeHeader_ok hd
      cases (exec_hdr_completes hl).symm.trans he
      exact absurd rfl (phase_ne_of_error hb ht)
    · have hi := instrAt_of_fetch_op hf hs
      obtain ⟨hp, hl⟩ := hi.op_within
      refine .inr ⟨hs, ?_⟩
      rcases exec_error_cause hb ht he hp hl with ⟨hcode, dr, dg, db, hkind, hr⟩ | ⟨hcode, n, rfl, hn⟩
      · exact .inr (.inl ⟨hcode, i, dr, dg, db, hkind, hi, hr⟩)
      · exact .inr (.inr (.inr (.inl ⟨hcode, n, hi, hn⟩)))
  · rcases fetch_error_cause hf with ⟨rfl, hs, hl⟩ | ⟨hs, ⟨rfl, b, hrp, hread, hl⟩ | ⟨rfl, hc, hrp⟩⟩
    · exact .inl ⟨rfl, hs, hl⟩
    · exact .inr ⟨hs, .inl ⟨rfl, b, hread, opKind_of_opLength (by omega), hl⟩⟩
    · exact .inr ⟨hs, .inr (.inr (.inr (.inr ⟨rfl, hc, hrp⟩)))⟩
  · obtain ⟨hs, hc⟩ := fetch_complete hf
    obtain ⟨hcode, hst, hl⟩ := decComplete_error ht
    exact .inr ⟨hs, .inr (.inr (.inl ⟨hcode, hc, hst, hl⟩))⟩

end Sys2Proof.Machine
end

section
/-! The statements about hardware reset (70_reset_and_hazards.md): the phases and codes it leaves, and the spaces it does not
write (R230). -/

namespace Sys2Proof.Machine

/-! ## Hardware reset (rule R230) -/

/-- The reset input is never refused, and its step is `hardwareReset`. -/
theorem hostStep_reset (s : State) : hostStep .reset s = .next (hardwareReset s) := rfl

/-- Settles O9: `State.reset` and `hardwareReset` give the engines the same `Enc.reset` and `Dec.reset`, IDLE with code OK;
`hardwareReset` writes the engines only. -/
theorem resetLeavesPhasesIdleCodesOk : Obligations.ResetLeavesPhasesIdleCodesOk := by
  refine ⟨?_, fun s => ⟨hardwareReset s, hostStep_reset s, ?_⟩⟩
  · simp only [reset_enc, reset_dec, encReset_phase, decReset_phase, encReset_code, decReset_code, and_self]
  · simp only [hardwareReset_enc, hardwareReset_dec, encReset_phase, decReset_phase, encReset_code, decReset_code,
      hardwareReset_gridIn, hardwareReset_bytesIn, hardwareReset_bytesOut, hardwareReset_gridOut, and_self]

end Sys2Proof.Machine
end

section
/-! The statements about decoding any bytes (30_encoding.md): decode of encode, encode of decode, and the map of the first
bytes (R78 to R83). -/

namespace Sys2Proof.Machine

/-! ## The fields of what was decoded (rules R78, R79) -/

theorem fSmall_smallField (b : Byte) (lo : Nat) : fSmall (smallField b lo) = b.extractLsb' lo 2 := by
  rw [fSmall, smallField, Int.sub_add_cancel, BitVec.ofInt_natCast, BitVec.ofNat_toNat, BitVec.setWidth_eq]

theorem fMedR_medRed (b : Byte) : fMedR (medRed b) = b.extractLsb' 0 6 := by
  rw [fMedR, medRed, Int.sub_add_cancel, BitVec.ofInt_natCast, BitVec.ofNat_toNat, BitVec.setWidth_eq]

theorem fMedGB_medNibble (b : Byte) (lo : Nat) : fMedGB (medNibble b lo) = b.extractLsb' lo 4 := by
  rw [fMedGB, medNibble, Int.sub_add_cancel, BitVec.ofInt_natCast, BitVec.ofNat_toNat, BitVec.setWidth_eq]

theorem fRun_runLength (b : Byte) : fRun (runLength b) = b.extractLsb' 0 6 := by
  rw [fRun, runLength, Nat.add_sub_cancel, BitVec.ofNat_toNat, BitVec.setWidth_eq]

theorem smallField_inRange (b : Byte) (lo : Nat) : inRange (-2) 1 (smallField b lo) = true := by
  have h := (b.extractLsb' lo 2).isLt
  rw [inRange_iff, smallField]
  omega

theorem medRed_inRange (b : Byte) : inRange (-32) 31 (medRed b) = true := by
  have h := (b.extractLsb' 0 6).isLt
  rw [inRange_iff, medRed]
  omega

theorem medNibble_inRange (b : Byte) (lo : Nat) : inRange (-8) 7 (medNibble b lo) = true := by
  have h := (b.extractLsb' lo 4).isLt
  rw [inRange_iff, medNibble]
  omega

/-! ## A byte is its tag and its fields (rules R73 to R76) -/

theorem tag_append_low6 : ∀ b : Byte, b.extractLsb' 6 2 ++ b.extractLsb' 0 6 = b := by decide

theorem tag_append_small_fields :
    ∀ b : Byte, b.extractLsb' 6 2 ++ b.extractLsb' 4 2 ++ b.extractLsb' 2 2 ++ b.extractLsb' 0 2 = b := by decide

theorem nibbles_append : ∀ b : Byte, b.extractLsb' 4 4 ++ b.extractLsb' 0 4 = b := by decide

/-- The tag of each kind of op; the escape carries RUN's (R80). -/
def tagOf : OpKind → BitVec 2
  | .raw => 0b11#2
  | .run => 0b11#2
  | .small => 0b01#2
  | .med => 0b10#2
  | .cache => 0b00#2

theorem tag_eq_tagOf : ∀ b : Byte, b.extractLsb' 6 2 = tagOf (opKind b) := by decide

theorem tag_of_opKind {b : Byte} {k : OpKind} (h : opKind b = k) : b.extractLsb' 6 2 = tagOf k := h ▸ tag_eq_tagOf b

/-- RAW's first byte is the escape, and no other kind's is. -/
theorem opKind_raw_iff : ∀ b : Byte, opKind b = .raw ↔ b = 0xFF#8 := by decide

/-- A byte of 6 field bits is its kind's tag and they. -/
theorem tagged_low6 {b : Byte} {k : OpKind} (h : opKind b = k) : tagOf k ++ b.extractLsb' 0 6 = b := by
  rw [← tag_of_opKind h, tag_append_low6]

/-! ## Encoding what was decoded (rules R73 to R80) -/

theorem bigEndian_bytes (hi lo : Byte) :
    (bigEndian hi lo).extractLsb' 8 8 = hi ∧ (bigEndian hi lo).extractLsb' 0 8 = lo :=
  ⟨BitVec.extractLsb'_append_eq_left, BitVec.extractLsb'_append_eq_right⟩

/-- What the four bytes of a header decode to has those bytes (R70). -/
theorem decodeHeader_encode {bs rest : List Byte} {i : Instr} (h : decodeHeader bs = .ok (i, rest)) :
    i.wf = true ∧ i.place = .start ∧ bs = encode i ++ rest := by
  unfold decodeHeader at h
  split at h <;> cases h
  next h1 h0 w1 w0 =>
    obtain ⟨eh1, eh0⟩ := bigEndian_bytes h1 h0
    obtain ⟨ew1, ew0⟩ := bigEndian_bytes w1 w0
    refine ⟨rfl, rfl, ?_⟩
    rw [encode, eh1, eh0, ew1, ew0]
    rfl

/-- The length a RUN byte gives is one to 63: 64 would be the escape's (R76, R80). -/
theorem runLength_wf {b : Byte} (h : opKind b = .run) : (Instr.run (runLength b)).wf = true := by
  have hne : b ≠ 0xFF#8 := fun e => by simp [(opKind_raw_iff b).2 e] at h
  have hlow : b.extractLsb' 0 6 ≠ 63#6 := fun e => by
    have hb := tagged_low6 h
    rw [e] at hb
    exact hne hb.symm
  have hlt := (b.extractLsb' 0 6).isLt
  have hne' : (b.extractLsb' 0 6).toNat ≠ 63 := fun e => hlow (BitVec.eq_of_toNat_eq e)
  have hn : 1 ≤ runLength b ∧ runLength b ≤ 63 := by
    unfold runLength
    omega
  simpa [Instr.wf] using hn

/-- What decodes as an op has the bytes it was decoded from, by the kind its first byte announces (R73 to R77). -/
theorem decodeOp_encode {bs rest : List Byte} {i : Instr} (h : decodeOp bs = .ok (i, rest)) :
    i.wf = true ∧ i.place = .opStream ∧ bs = encode i ++ rest := by
  cases bs with
  | nil => cases h
  | cons b bs =>
    cases hk : opKind b <;> simp only [decodeOp, hk] at h
    case raw =>
      split at h <;> cases h
      rw [(opKind_raw_iff b).1 hk]
      exact ⟨rfl, rfl, rfl⟩
    case run =>
      cases h
      refine ⟨runLength_wf hk, rfl, ?_⟩
      rw [encode, fRun_runLength]
      exact congrArg (· :: rest) (tagged_low6 hk).symm
    case small =>
      cases h
      refine ⟨by simp only [Instr.wf, smallField_inRange, Bool.and_self], rfl, ?_⟩
      have hb := tag_append_small_fields b
      rw [tag_of_opKind hk] at hb
      rw [encode, fSmall_smallField, fSmall_smallField, fSmall_smallField]
      exact congrArg (· :: rest) hb.symm
    case med =>
      split at h <;> cases h
      next b1 =>
        refine ⟨by simp only [Instr.wf, medRed_inRange, medNibble_inRange, Bool.and_self], rfl, ?_⟩
        rw [encode, fMedR_medRed, fMedGB_medNibble, fMedGB_medNibble, nibbles_append]
        exact congrArg (· :: b1 :: rest) (tagged_low6 hk).symm
    case cache =>
      cases h
      refine ⟨rfl, rfl, ?_⟩
      exact congrArg (· :: rest) (tagged_low6 hk).symm

/-- Settles O1: the law of each instruction's fields, one case per constructor. -/
theorem decodeOfEncodeGivesInstructionBack : Obligations.DecodeOfEncodeGivesInstructionBack :=
  fun _ rest h => decode_encode_append h rest

/-- Settles O2: the header's bytes and the op's bytes, each put together again from the fields that were read. -/
theorem decodedBytesAreTheEncoding : Obligations.DecodedBytesAreTheEncoding := by
  intro place bs rest i h
  cases place with
  | start => exact decodeHeader_encode h
  | opStream => exact decodeOp_encode h

/-! ## The first-byte map (rule R81) -/

/-- The tag is the byte's quotient by 64. -/
theorem tag_toNat (b : Byte) : (b.extractLsb' 6 2).toNat = b.toNat / 64 := by
  have h := b.isLt
  rw [BitVec.extractLsb'_toNat, Nat.shiftRight_eq_div_pow]
  omega

theorem tag_of_range {b : Byte} {k : BitVec 2} (h : b.toNat / 64 = k.toNat) : b.extractLsb' 6 2 = k :=
  BitVec.eq_of_toNat_eq ((tag_toNat b).trans h)

/-- Settles O4: each range of first bytes has one tag, or is the escape, and the kind says how the op is read. -/
theorem firstByteMap : Obligations.FirstByteMap := by
  refine fun b rest => ⟨fun hi => ?_, fun lo hi => ?_, fun lo hi => ?_, fun lo hi => ?_, fun he => ?_⟩
  · have hk := opKind_of_cache_tag (tag_of_range (b := b) (k := 0b00#2) (by simp; omega))
    exact ⟨by rw [opLength, hk], decodeOp_cache rest hk⟩
  · have hk := opKind_of_small_tag (tag_of_range (b := b) (k := 0b01#2) (by simp; omega))
    exact ⟨by rw [opLength, hk], decodeOp_small rest hk⟩
  · have hk := opKind_of_med_tag (tag_of_range (b := b) (k := 0b10#2) (by simp; omega))
    exact ⟨by rw [opLength, hk], by simp only [decodeOp, hk], fun b1 => decodeOp_med rest b1 hk⟩
  · have hne : b ≠ 0xFF#8 := by
      rintro rfl
      exact absurd hi (by decide)
    have hk := opKind_of_run_tag hne (tag_of_range (by simp; omega))
    exact ⟨by rw [opLength, hk], decodeOp_run rest hk⟩
  · obtain rfl : b = 0xFF#8 := BitVec.eq_of_toNat_eq he
    exact ⟨rfl, rfl, fun _ => rfl, fun _ _ => rfl, fun _ _ _ => rfl⟩

end Sys2Proof.Machine
end

section
/-! The ops of a pixel step (42_encoder.md): they are canonical (R84, R136), the stream only grows (R52), and a decoder that
executes them stays in lock-step with the encoder (41_cache.md rule R127). -/

namespace Sys2Proof.Machine

/-! ## The ops a pixel step emits (rules R134 to R142) -/

/-- The ops of the pixel step of p: none or a full run for an equal pixel, else the pending run's op and p's own. -/
def stepOps (p : Pixel) (s : State) : List Instr :=
  if p = s.enc.prev then if s.enc.run + 1 = 62 then [.run 62] else []
  else endRunOps s ++ [pixelOp p s]

theorem stepOps_cap {s : State} (h : s.enc.run + 1 = 62) : stepOps s.enc.prev s = [.run 62] := by
  rw [stepOps, if_pos rfl, if_pos h]

theorem stepOps_equal {s : State} (h : s.enc.run + 1 ≠ 62) : stepOps s.enc.prev s = [] := by
  rw [stepOps, if_pos rfl, if_neg h]

theorem stepOps_other {p : Pixel} {s : State} (h : p ≠ s.enc.prev) : stepOps p s = endRunOps s ++ [pixelOp p s] := by
  rw [stepOps, if_neg h]

theorem appended_stepOps (p : Pixel) (s : State) : Appended (encodeAll (stepOps p s)) s (encTakePixel p s) := by
  by_cases hp : p = s.enc.prev
  · subst hp
    by_cases hr : s.enc.run + 1 = 62
    · rw [stepOps_cap hr, encodeAll_singleton]
      exact (encTakePixel_cap hr).1.appended
    · rw [stepOps_equal hr, encTakePixel_equal hr]
      exact appended_nil rfl rfl
  · rw [stepOps_other hp]
    exact (encTakePixel_other hp).1.appended

theorem mem_endRunOps {op : Instr} {s : State} (h : op ∈ endRunOps s) : op = .run s.enc.run ∧ 1 ≤ s.enc.run := by
  unfold endRunOps at h
  split_ifs at h with h0
  · cases h
  · exact ⟨List.mem_singleton.1 h, Nat.pos_of_ne_zero h0⟩

/-- An op of a pixel step is a RUN of at most 62, or the own op of a pixel that differs from `enc.prev`. -/
theorem mem_stepOps {op : Instr} {p : Pixel} {s : State} (hr : s.enc.run ≤ 61) (h : op ∈ stepOps p s) :
    (∃ n, op = .run n ∧ 1 ≤ n ∧ n ≤ 62) ∨ (p ≠ s.enc.prev ∧ op = pixelOp p s) := by
  unfold stepOps at h
  split_ifs at h with hp hcap
  · exact .inl ⟨62, List.mem_singleton.1 h, by decide⟩
  · cases h
  · rcases List.mem_append.1 h with h | h
    · obtain ⟨rfl, hpos⟩ := mem_endRunOps h
      exact .inl ⟨_, rfl, hpos, by omega⟩
    · exact .inr ⟨hp, List.mem_singleton.1 h⟩

theorem run_wf {n : Nat} (h : 1 ≤ n ∧ n ≤ 63) : (Instr.run n).wf = true := by simpa [Instr.wf] using h

theorem stepOps_wf {op : Instr} {p : Pixel} {s : State} (hr : s.enc.run ≤ 61) (h : op ∈ stepOps p s) :
    op.wf = true ∧ op.place = .opStream := by
  rcases mem_stepOps hr h with ⟨n, rfl, hn⟩ | ⟨_, rfl⟩
  · exact ⟨run_wf (by omega), rfl⟩
  · obtain ⟨hwf, hplace, _⟩ := pixelOp_wf p s
    exact ⟨hwf, hplace⟩

theorem stepOps_length (p : Pixel) (s : State) : (stepOps p s).length ≤ 2 := by
  have hend : (endRunOps s).length ≤ 1 := by
    unfold endRunOps
    split_ifs <;> simp
  unfold stepOps
  split_ifs
  · simp
  · simp
  · rw [List.length_append, List.length_singleton]
    omega

/-! ## Canonical ops (rule R84) -/

/-- Pixels without a difference are equal. -/
theorem diff_eq_zero {p q : Pixel} (h : diff p q = ⟨0, 0, 0⟩) : p = q := by
  have hq : diff q q = ⟨0, 0, 0⟩ := by simp only [diff, sub_self]
  have hp := recon_diff p q
  rw [h, ← hq, recon_diff] at hp
  exact (Option.some.inj hp).symm

/-- The own op of a pixel, by the test that chose it (R138 to R142). -/
theorem pixelOp_cases (p : Pixel) (s : State) :
    (cacheLookup s.enc.cache (hashPixel p) = p ∧ pixelOp p s = .cache (hashPixel p)) ∨
    (cacheLookup s.enc.cache (hashPixel p) ≠ p ∧
      ((fitsSmall (diff p s.enc.prev) = true ∧
          pixelOp p s = .small (diff p s.enc.prev).r (diff p s.enc.prev).g (diff p s.enc.prev).b) ∨
       (fitsSmall (diff p s.enc.prev) = false ∧ fitsMed (diff p s.enc.prev) = true ∧
          pixelOp p s = .med (diff p s.enc.prev).r (diff p s.enc.prev).g (diff p s.enc.prev).b) ∨
       (fitsSmall (diff p s.enc.prev) = false ∧ fitsMed (diff p s.enc.prev) = false ∧ pixelOp p s = .raw p.r p.g p.b))) := by
  by_cases hit : cacheLookup s.enc.cache (hashPixel p) = p
  · exact .inl ⟨hit, (pixelOp_hit hit).1⟩
  · refine .inr ⟨hit, ?_⟩
    rw [(pixelOp_miss hit).1]
    cases hs : fitsSmall (diff p s.enc.prev)
    · cases hm : fitsMed (diff p s.enc.prev)
      · exact .inr (.inr ⟨rfl, rfl, missInstr_raw hm⟩)
      · exact .inr (.inl ⟨rfl, rfl, missInstr_med hs hm⟩)
    · exact .inl ⟨rfl, missInstr_small hs⟩

/-- Settles O43: the runs are at most 62 long, and the own op of a differing pixel comes with the test that chose it. -/
theorem pixelStepEmitsCanonicalOps : Obligations.PixelStepEmitsCanonicalOps := by
  refine fun p s h => ⟨stepOps p s, _, encTurn_pixel h, appended_stepOps p s, stepOps_length p s, fun op hop => ?_⟩
  obtain ⟨hwf, hplace⟩ := stepOps_wf h.run hop
  refine ⟨hwf, hplace, ?_⟩
  rcases mem_stepOps h.run hop with ⟨n, rfl, _, hn⟩ | ⟨hne, rfl⟩
  · exact hn
  · rcases pixelOp_cases p s with ⟨hit, e⟩ | ⟨hmiss, ⟨_, e⟩ | ⟨hs, _, e⟩ | ⟨hs, hm, e⟩⟩ <;> rw [e]
    · exact ⟨hit, rfl, hne⟩
    · exact ⟨rfl, fun ⟨hr, hg, hb⟩ => hne (diff_eq_zero (Diff.ext hr hg hb)), hmiss⟩
    · exact ⟨rfl, hs, hmiss⟩
    · exact ⟨rfl, hs, hm, hmiss⟩

/-- Settles O42: every turn appends some bytes, and what was appended is there. -/
theorem streamIsAppendOnly : Obligations.StreamIsAppendOnly := by
  intro s t h
  obtain ⟨bs, he⟩ := encTurn_emits h
  obtain ⟨hlen, hnew, hold⟩ := he.appended
  refine ⟨by omega, hlen ▸ hold, fun a hlo hhi => ?_⟩
  have hj : a - s.enc.outlen < bs.length := by omega
  have hread := hnew _ hj
  rw [Nat.add_sub_cancel' hlo, List.getElem?_eq_getElem hj] at hread
  exact ⟨_, hread⟩

/-! ## Executing the ops (rule R127) -/

theorem execAll_append {is js : List Instr} {s t : State} (h : execAll is s = .next t) :
    execAll (is ++ js) s = execAll js t := by
  induction is generalizing s with
  | nil =>
    cases h
    rfl
  | cons i is ih =>
    simp only [execAll, List.cons_append] at h ⊢
    cases he : exec i s with
    | next u =>
      simp only [he] at h ⊢
      exact ih h
    | fault f => simp [he] at h
    | refused r => simp [he] at h

theorem execAll_singleton {i : Instr} {s t : State} (h : exec i s = .next t) : execAll [i] s = .next t := by
  simp only [execAll, h]

/-- The ops `ops` execute to the pixels `ps`: a decoder with context `c` that has their bytes and room in its grid executes
them all, writes those pixels, and goes on with context `c'`. -/
def ExecutesTo (c : Context) (ops : List Instr) (ps : List Pixel) (c' : Context) : Prop :=
  ∀ d : State, d.dec.context = c → d.dec.rp + (encodeAll ops).length ≤ d.dec.l → d.dec.cur + ps.length ≤ d.dec.n →
    ∃ d', execAll ops d = .next d' ∧ PixelsDecoded ps (encodeAll ops).length c' d d'

theorem ExecutesTo.nil (c : Context) : ExecutesTo c [] [] c := by
  rintro d rfl _ _
  exact ⟨d, rfl, .nil d⟩

theorem ExecutesTo.append {c c' c'' : Context} {is js : List Instr} {ps qs : List Pixel} (h1 : ExecutesTo c is ps c')
    (h2 : ExecutesTo c' js qs c'') : ExecutesTo c (is ++ js) (ps ++ qs) c'' := by
  intro d hc hl hn
  rw [encodeAll_append, List.length_append] at hl ⊢
  rw [List.length_append] at hn
  obtain ⟨t, ht, hdt⟩ := h1 d hc (by omega) (by omega)
  obtain ⟨_, _, _, hlt, _, _, hnt⟩ := hdt.run
  have hcur := hdt.cur
  have hrp := hdt.rp
  obtain ⟨u, hu, hdu⟩ := h2 t hdt.context (by omega) (by omega)
  exact ⟨u, (execAll_append ht).trans hu, hdt.trans hdu⟩

theorem executesTo_run (n : Nat) (c : Context) : ExecutesTo c [.run n] (List.replicate n c.prev) c := by
  rintro d rfl _ hroom
  obtain ⟨t, ht, hw⟩ := execRun_fits (n := n) (s := d) (by simpa using hroom)
  exact ⟨t, execAll_singleton ht, hw.pixelsDecoded⟩

theorem executesTo_endRunOps (s : State) :
    ExecutesTo s.enc.context (endRunOps s) (List.replicate s.enc.run s.enc.prev) s.enc.context := by
  by_cases h0 : s.enc.run = 0
  · simp only [endRunOps, h0, if_true]
    exact .nil _
  · simp only [endRunOps, h0, if_false]
    exact executesTo_run _ s.enc.context

/-- A differing pixel's own op gives the pixel back, and the decoder's cache goes as the encoder's: unchanged by a hit,
stored to by a miss. -/
theorem executesTo_pixelOp (p : Pixel) (s : State) : ExecutesTo s.enc.context [pixelOp p s] [p] ⟨p, pixelCache p s⟩ := by
  intro d hd hl hn
  rw [encodeAll_singleton, length_encode] at hl ⊢
  obtain ⟨hprev, hcache⟩ := Context.mk.inj hd
  by_cases hit : cacheLookup s.enc.cache (hashPixel p) = p
  · obtain ⟨hop, hkeep⟩ := pixelOp_hit hit
    have hdec := pixelsDecoded_afterPixel (cacheLookup d.dec.cache (hashPixel p)) 1 false d
    rw [hop, hkeep]
    refine ⟨_, execAll_singleton (exec_cache_completes hn), ?_⟩
    rwa [hcache, hit] at hdec ⊢
  · obtain ⟨hop, hstore⟩ := pixelOp_miss hit
    rw [hop, ← hprev] at hl ⊢
    rw [hstore, ← hcache]
    exact ⟨_, execAll_singleton (exec_missInstr hl hn), pixelsDecoded_afterPixel p _ true d⟩

/-- The ops of a pixel step execute to as many pixels as the pending run shrinks by, and the pixel itself. -/
theorem executesTo_stepOps (p : Pixel) (s : State) :
    ∃ ps, ExecutesTo s.enc.context (stepOps p s) ps (encTakePixel p s).enc.context ∧
      ps.length + (encTakePixel p s).enc.run = s.enc.run + 1 := by
  by_cases hp : p = s.enc.prev
  · subst hp
    by_cases hr : s.enc.run + 1 = 62
    · refine ⟨List.replicate 62 s.enc.prev, ?_, ?_⟩
      · rw [stepOps_cap hr, (encTakePixel_cap hr).2]
        exact executesTo_run 62 s.enc.context
      · simp [(encTakePixel_cap hr).2, hr]
    · rw [stepOps_equal hr, encTakePixel_equal hr]
      exact ⟨[], .nil _, Nat.zero_add _⟩
  · rw [stepOps_other hp, (encTakePixel_other hp).2]
    exact ⟨_, (executesTo_endRunOps s).append (executesTo_pixelOp p s), by simp⟩

/-- Settles O49: the ops of each kind of pixel step executed from the encoder's context, which end in its next one. -/
theorem pixelStepKeepsLockStep : Obligations.PixelStepKeepsLockStep := by
  intro p s h
  obtain ⟨ps, hexec, hps⟩ := executesTo_stepOps p s
  refine ⟨stepOps p s, _, encTurn_pixel h, appended_stepOps p s, fun op => stepOps_wf h.run, ?_⟩
  intro d hprev hcache hn hl
  have hctx : d.dec.context = s.enc.context := congrArg₂ Context.mk hprev hcache
  obtain ⟨d', hd', hdec⟩ := hexec d hctx hl (by omega)
  obtain ⟨hprev', hcache'⟩ := Context.mk.inj hdec.context
  obtain ⟨hphase, _⟩ := hdec.run
  have hcur := hdec.cur
  exact ⟨d', hd', hprev', hcache', by omega, hdec.rp, hphase, hdec.frame⟩

end Sys2Proof.Machine
end

section
/-! What a turn reads and what it writes: the decoder a row of cells from its cursor on, the encoder bytes from its length
on. From this follow the cells of a turn (R54, R173), the order of the engines' turns (R213), and that a run depends on its
own start and input only (R208, R231). -/

namespace Sys2Proof.Machine

/-! ## A row of cells (rule R166) -/

/-- `n` consecutive cells from `i` on, all written with p. -/
def writeRow : Nat → Nat → Pixel → Memory Pixel → Memory Pixel
  | _, 0, _, m => m
  | i, n + 1, p, m => writeRow (i + 1) n p (Memory.write m i p)

theorem read_writeRow (i n : Nat) (p : Pixel) (m : Memory Pixel) (j : Nat) :
    Memory.read (writeRow i n p m) j = if i ≤ j ∧ j < i + n then some p else Memory.read m j := by
  induction n generalizing i m with
  | zero => rw [writeRow, if_neg (by omega)]
  | succ n ih =>
    rw [writeRow, ih, read_write]
    by_cases hij : i = j
    · rw [if_neg (by omega), if_pos hij, if_pos (by omega)]
    · rw [if_neg hij]
      exact if_congr (by omega) rfl rfl

theorem putPixels_row {i n : Nat} {p : Pixel} {s : State} (h : i + n ≤ s.dec.n) :
    putPixels i n p s = .ok { s with gridOut := writeRow i n p s.gridOut } := by
  induction n generalizing i s with
  | zero => rfl
  | succ n ih =>
    rw [putPixels, putPixel_ok (by omega)]
    exact ih (s := { s with gridOut := Memory.write s.gridOut i p }) (by simpa using by omega)

/-- A RUN that ends within the grid. -/
theorem exec_run_row {n : Nat} {s : State} (h : s.dec.cur + n ≤ s.dec.n) :
    exec (.run n) s = .next (finishRun n { s with gridOut := writeRow s.dec.cur n s.dec.prev s.gridOut }) := by
  simp only [exec, execRun, gt_iff_lt, if_neg (Nat.not_lt.2 h), putPixels_row h]

/-! ## The decoder's writes -/

/-- The decoder's registers are `d`, and n cells from the old cursor on hold p. -/
def rowWritten (d : Dec) (n : Nat) (p : Pixel) (s : State) : State :=
  { s with dec := d, gridOut := writeRow s.dec.cur n p s.gridOut }

/-- `F` writes decoder registers that it makes of decoder registers, and the cells that the cursor passes. -/
def WritesRow (F : State → State) : Prop :=
  ∀ d₀ : Dec, ∃ d n p, d.cur = d₀.cur + n ∧ ∀ s : State, s.dec = d₀ → F s = rowWritten d n p s

theorem writesRow_id : WritesRow id := fun d => ⟨d, 0, Pixel.zero, rfl, by rintro s rfl; rfl⟩

theorem writesRow_raiseError (c : Code) : WritesRow (raiseError .dec c) := fun d =>
  ⟨{ d with code := c, phase := .error }, 0, Pixel.zero, rfl, by rintro s rfl; rfl⟩

theorem writesRow_finishDecoder : WritesRow finishDecoder := fun d =>
  ⟨{ d with phase := .done }, 0, Pixel.zero, rfl, by rintro s rfl; rfl⟩

theorem writesRow_finishHeader (h w : BitVec 16) : WritesRow (finishHeader h w) := fun d =>
  ⟨{ d with h := h, w := w, n := pixelCount h w, rp := 4, stage := .ops }, 0, Pixel.zero, rfl, by rintro s rfl; rfl⟩

theorem writesRow_afterPixel (p : Pixel) (len : Nat) (stores : Bool) : WritesRow (afterPixel p len stores) := fun d =>
  ⟨{ d with cache := if stores then cacheStore d.cache (hashPixel p) p else d.cache, prev := p, cur := d.cur + 1,
            rp := d.rp + len }, 1, p, rfl, by rintro s rfl; rfl⟩

theorem writesRow_run (n : Nat) :
    WritesRow (fun s => finishRun n { s with gridOut := writeRow s.dec.cur n s.dec.prev s.gridOut }) := fun d =>
  ⟨{ d with cur := d.cur + n, rp := d.rp + 1 }, n, d.prev, rfl, by rintro s rfl; rfl⟩

/-- The end of a difference op depends on the decoder's registers only. -/
theorem produceFromDiff_writesRow {d : Diff} {len : Nat} {s t : State} (h : produceFromDiff d len s = .next t) :
    ∃ F, WritesRow F ∧ ∀ s' : State, s'.dec = s.dec → produceFromDiff d len s' = .next (F s') := by
  rcases produceFromDiff_next.1 h with ⟨hr, _⟩ | ⟨p, hr, hc, _⟩
  · exact ⟨_, writesRow_raiseError _, fun s' e => produceFromDiff_next.2 (.inl ⟨e ▸ hr, rfl⟩)⟩
  · exact ⟨_, writesRow_afterPixel p len true, fun s' e => produceFromDiff_next.2 (.inr ⟨p, e ▸ hr, e ▸ hc, rfl⟩)⟩

/-- An instruction that completes depends on the decoder's registers only. -/
theorem exec_writesRow {i : Instr} {s t : State} (h : exec i s = .next t) :
    ∃ F, WritesRow F ∧ ∀ s' : State, s'.dec = s.dec → exec i s' = .next (F s') := by
  cases i with
  | hdr v w =>
    by_cases hl : s.dec.l < 4
    · exact ⟨_, writesRow_raiseError _, fun s' e => exec_hdr_raises (e ▸ hl)⟩
    · exact ⟨_, writesRow_finishHeader v w, fun s' e => exec_hdr_completes (e ▸ Nat.not_lt.1 hl)⟩
  | cache k =>
    obtain ⟨hc, _⟩ := producePixel_next.1 h
    exact ⟨_, writesRow_afterPixel (cacheLookup s.dec.cache k) 1 false, fun s' e => by
      rw [← e] at hc ⊢
      exact exec_cache_completes hc⟩
  | small dr dg db => exact produceFromDiff_writesRow h
  | med dr dg db =>
    by_cases hl : s.dec.l < s.dec.rp + 2
    · exact ⟨_, writesRow_raiseError _, fun s' e => exec_med_truncated (e ▸ hl)⟩
    · rw [exec_med_whole (Nat.not_lt.1 hl)] at h
      obtain ⟨F, hF, hs⟩ := produceFromDiff_writesRow h
      exact ⟨F, hF, fun s' e => (exec_med_whole (e ▸ Nat.not_lt.1 hl)).trans (hs s' e)⟩
  | run n =>
    by_cases hn : s.dec.cur + n ≤ s.dec.n
    · exact ⟨_, writesRow_run n, fun s' e => exec_run_row (e ▸ hn)⟩
    · exact ⟨_, writesRow_raiseError _, fun s' e => exec_run_raises (e ▸ Nat.not_le.1 hn)⟩
  | raw r g b =>
    by_cases hl : s.dec.l < s.dec.rp + 4
    · exact ⟨_, writesRow_raiseError _, fun s' e => exec_raw_raises (e ▸ hl)⟩
    · obtain ⟨hc, _⟩ := producePixel_next.1 ((if_neg hl).symm.trans h)
      exact ⟨_, writesRow_afterPixel _ 4 true, fun s' e => exec_raw_completes (e ▸ Nat.not_lt.1 hl) (e ▸ hc)⟩

section Congr
variable {s s' : State} (hd : s'.dec = s.dec) (hb : s'.bytesIn = s.bytesIn)
include hd hb

theorem bytesInAt_congr (a n : Nat) : bytesInAt a n s' = bytesInAt a n s := by
  induction n generalizing a with
  | zero => rfl
  | succ n ih => simp only [bytesInAt, byteIn, hd, hb, ih]

/-- The fetch depends on the decoder's registers and its input only. -/
theorem fetch_congr : fetch s' = fetch s := by
  simp only [fetch, fetchHeader, fetchOp, fetchAt, byteIn, bytesInAt_congr hd hb, hd, hb]

end Congr

/-- A turn of the decoder depends on its registers, the build, and its input only. -/
theorem decTurn_writesRow {s t : State} (h : decTurn s = .next t) :
    ∃ F, WritesRow F ∧ ∀ s' : State, s'.dec = s.dec → s'.cfg = s.cfg → s'.bytesIn = s.bytesIn →
      decTurn s' = .next (F s') := by
  rcases decTurn_cases h with ⟨hn, _⟩ | ⟨hb, i, hf, he⟩ | ⟨hb, c, hf, _⟩ | ⟨hb, hf, _⟩
  · exact ⟨id, writesRow_id, fun s' e _ _ => if_neg (e ▸ hn)⟩
  · obtain ⟨F, hF, hs⟩ := exec_writesRow he
    exact ⟨F, hF, fun s' e _ eb => (decTurn_of_instr (e ▸ hb) ((fetch_congr e eb).trans hf)).trans (hs s' e)⟩
  · exact ⟨_, writesRow_raiseError c, fun s' e _ eb => decTurn_of_error (e ▸ hb) ((fetch_congr e eb).trans hf)⟩
  · obtain ⟨hs, hc⟩ := fetch_complete hf
    have full : ∀ s' : State, s'.dec = s.dec → decTurn s' = .next (decComplete s') := fun s' e =>
      decTurn_full (e ▸ hb) (e ▸ hs) (e ▸ hc)
    by_cases hst : s.dec.rp < s.dec.l ∧ s.cfg.strictTrailing = true
    · refine ⟨_, writesRow_raiseError .gridOverrun, fun s' e ec _ => (full s' e).trans ?_⟩
      rw [← e, ← ec] at hst
      rw [decComplete, if_pos hst]
    · refine ⟨_, writesRow_finishDecoder, fun s' e ec _ => (full s' e).trans ?_⟩
      rw [← e, ← ec] at hst
      rw [decComplete, if_neg hst]

/-- The same of a turn in terms of what it wrote: registers, and a row of cells from the old cursor to the new one. -/
theorem decTurn_rowWritten {s t : State} (h : decTurn s = .next t) :
    ∃ d n p, d.cur = s.dec.cur + n ∧ t = rowWritten d n p s ∧
      ∀ s' : State, s'.dec = s.dec → s'.cfg = s.cfg → s'.bytesIn = s.bytesIn → decTurn s' = .next (rowWritten d n p s') := by
  obtain ⟨F, hF, hs⟩ := decTurn_writesRow h
  obtain ⟨d, n, p, hcur, hrow⟩ := hF s.dec
  have same : ∀ s' : State, s'.dec = s.dec → s'.cfg = s.cfg → s'.bytesIn = s.bytesIn →
      decTurn s' = .next (rowWritten d n p s') := fun s' e ec eb => by rw [hs s' e ec eb, hrow s' e]
  exact ⟨d, n, p, hcur, Host.Outcome.next.inj (h.symm.trans (same s rfl rfl rfl)), same⟩

/-- Settles O31: the row that the turn writes is from the old cursor to the new one. -/
theorem cellsWrittenOnceInOrder : Obligations.CellsWrittenOnceInOrder := by
  intro s t _ _ h
  obtain ⟨d, n, p, hcur, rfl, _⟩ := decTurn_rowWritten h
  refine ⟨by rw [rowWritten, hcur]; omega, fun j hj => ?_, fun j hlo hhi => ⟨p, ?_⟩⟩
  · rw [rowWritten, hcur] at hj
    exact (read_writeRow _ _ _ _ _).trans (if_neg (by omega))
  · rw [rowWritten, hcur] at hhi
    exact (read_writeRow _ _ _ _ _).trans (if_pos ⟨hlo, hhi⟩)

/-! ## The encoder's writes -/

/-- The encoder's registers are `e`, and the bytes `bs` stand from the old length on. -/
def bytesLaid (e : Enc) (bs : List Byte) (s : State) : State :=
  { s with enc := e, bytesOut := layBytes s.enc.outlen bs s.bytesOut }

/-- `F` writes encoder registers that it makes of encoder registers, and the bytes that the length passes. -/
def LaysBytes (F : State → State) : Prop :=
  ∀ e₀ : Enc, ∃ e bs, e.outlen = e₀.outlen + bs.length ∧ ∀ s : State, s.enc = e₀ → F s = bytesLaid e bs s

theorem layBytes_append (a : Nat) (as bs : List Byte) (m : Memory Byte) :
    layBytes a (as ++ bs) m = layBytes (a + as.length) bs (layBytes a as m) := by
  induction as generalizing a m with
  | nil => rfl
  | cons v as ih =>
    rw [List.cons_append, layBytes, ih, List.length_cons, Nat.add_right_comm, Nat.add_assoc]
    rfl

/-- The same bytes laid into two memories read alike where they lie, and wherever the memories read alike. -/
theorem read_layBytes_congr {a j : Nat} {bs : List Byte} {m m' : Memory Byte}
    (h : (a ≤ j ∧ j < a + bs.length) ∨ Memory.read m' j = Memory.read m j) :
    Memory.read (layBytes a bs m') j = Memory.read (layBytes a bs m) j := by
  induction bs generalizing a m m' with
  | nil => exact h.resolve_left (by simp)
  | cons v bs ih =>
    refine ih ?_
    rw [List.length_cons] at h
    rw [read_write, read_write]
    by_cases hj : a = j
    · exact .inr (by rw [if_pos hj, if_pos hj])
    · rw [if_neg hj, if_neg hj]
      exact h.imp_left fun h => by omega

theorem LaysBytes.comp {F G : State → State} (hF : LaysBytes F) (hG : LaysBytes G) : LaysBytes (fun s => G (F s)) := by
  intro e₀
  obtain ⟨e, bs, hlen, hF⟩ := hF e₀
  obtain ⟨e', cs, hlen', hG⟩ := hG e
  refine ⟨e', bs ++ cs, by rw [hlen', hlen, List.length_append, Nat.add_assoc], ?_⟩
  rintro s rfl
  calc G (F s) = bytesLaid e' cs (bytesLaid e bs s) := by rw [hF s rfl, hG (bytesLaid e bs s) rfl]
    _ = bytesLaid e' (bs ++ cs) s := by simp only [bytesLaid, layBytes_append, hlen]

/-- What a step does may depend on the encoder's registers. -/
theorem LaysBytes.of_enc {F : Enc → State → State} (h : ∀ e, LaysBytes (F e)) : LaysBytes (fun s => F s.enc s) := by
  intro e₀
  obtain ⟨e, bs, hlen, hF⟩ := h e₀ e₀
  exact ⟨e, bs, hlen, fun s hs => (congrArg (F · s) hs).trans (hF s hs)⟩

theorem LaysBytes.ite {c : Enc → Prop} [DecidablePred c] {F G : State → State} (hF : LaysBytes F) (hG : LaysBytes G) :
    LaysBytes (fun s => if c s.enc then F s else G s) := by
  refine .of_enc (F := fun e s => if c e then F s else G s) fun e => ?_
  by_cases hc : c e
  · simpa only [hc, if_true] using hF
  · simpa only [hc, if_false] using hG

/-- A write of encoder registers that keeps the length lays no bytes. -/
theorem laysBytes_registers {f : Enc → Enc} (h : ∀ e, (f e).outlen = e.outlen) :
    LaysBytes (fun s => { s with enc := f s.enc }) := fun e => ⟨f e, [], h e, by rintro s rfl; rfl⟩

theorem laysBytes_id : LaysBytes id := laysBytes_registers (f := id) fun _ => rfl

theorem laysBytes_setRun (n : Nat) : LaysBytes (setRun n) :=
  laysBytes_registers (f := fun e => { e with run := n }) fun _ => rfl

theorem laysBytes_setPrev (p : Pixel) : LaysBytes (setPrev p) :=
  laysBytes_registers (f := fun e => { e with prev := p }) fun _ => rfl

theorem laysBytes_storePixel (p : Pixel) : LaysBytes (storePixel p) :=
  laysBytes_registers (f := fun e => { e with cache := cacheStore e.cache (hashPixel p) p }) fun _ => rfl

theorem laysBytes_nextPixel : LaysBytes nextPixel :=
  laysBytes_registers (f := fun e => { e with i := e.i + 1 }) fun _ => rfl

theorem laysBytes_setDims (h w : BitVec 16) : LaysBytes (setDims h w) :=
  laysBytes_registers (f := fun e => { e with h := h, w := w, n := pixelCount h w }) fun _ => rfl

theorem laysBytes_enterPixels : LaysBytes enterPixels :=
  laysBytes_registers (f := fun e => { e with stage := .pix }) fun _ => rfl

theorem laysBytes_finishEncoder : LaysBytes finishEncoder :=
  laysBytes_registers (f := fun e => { e with phase := .done }) fun _ => rfl

theorem laysBytes_raiseError (c : Code) : LaysBytes (raiseError .enc c) :=
  laysBytes_registers (f := fun e => { e with code := c, phase := .error }) fun _ => rfl

theorem laysBytes_emit (v : Byte) : LaysBytes (emit v) := fun e =>
  ⟨{ e with outlen := e.outlen + 1 }, [v], rfl, by rintro s rfl; rfl⟩

theorem laysBytes_emitBytes (bs : List Byte) : LaysBytes (emitBytes bs) := by
  induction bs with
  | nil => exact laysBytes_id
  | cons v bs ih => exact (laysBytes_emit v).comp ih

theorem laysBytes_emitInstr (i : Instr) : LaysBytes (emitInstr i) := laysBytes_emitBytes (encode i)

theorem laysBytes_encHeaderStep : LaysBytes encHeaderStep := by
  refine .ite (c := fun e => e.hin.toNat > maxDim ∨ e.win.toNat > maxDim) (laysBytes_raiseError _) ?_
  refine .of_enc (F := fun e s => enterPixels (emitInstr (.hdr (dimLow e.hin) (dimLow e.win))
    (setDims (dimLow e.hin) (dimLow e.win) s))) fun e => ?_
  exact ((laysBytes_setDims _ _).comp (laysBytes_emitInstr _)).comp laysBytes_enterPixels

theorem laysBytes_encEndRun : LaysBytes encEndRun := by
  refine .ite (c := fun e => e.run > 0) (.of_enc (F := fun e s => setRun 0 (emitInstr (.run e.run) s)) fun e => ?_)
    laysBytes_id
  exact (laysBytes_emitInstr _).comp (laysBytes_setRun 0)

theorem laysBytes_encFlushStep : LaysBytes encFlushStep := laysBytes_encEndRun.comp laysBytes_finishEncoder

theorem laysBytes_encRunPixel : LaysBytes encRunPixel := by
  refine .ite (c := fun e => e.run + 1 = maxRun) ((laysBytes_emitInstr _).comp (laysBytes_setRun 0)) ?_
  exact .of_enc (F := fun e s => setRun (e.run + 1) s) fun e => laysBytes_setRun _

theorem laysBytes_encHitOrMiss (p : Pixel) : LaysBytes (encHitOrMiss p) := by
  refine .ite (c := fun e => cacheHit e.cache p = true) (laysBytes_emitInstr _) ?_
  refine .of_enc (F := fun e s => emitInstr (missInstr p (diff p e.prev)) (storePixel p s)) fun e => ?_
  exact (laysBytes_storePixel p).comp (laysBytes_emitInstr _)

theorem laysBytes_encTakePixel (p : Pixel) : LaysBytes (encTakePixel p) := by
  have other : LaysBytes (encOtherPixel p) :=
    (laysBytes_encEndRun.comp (laysBytes_encHitOrMiss p)).comp (laysBytes_setPrev p)
  exact (LaysBytes.ite (c := fun e => pixelEq p e.prev = true) laysBytes_encRunPixel other).comp laysBytes_nextPixel

/-- A turn of the encoder depends on its registers and its input only. -/
theorem encTurn_laysBytes {s t : State} (h : encTurn s = .next t) :
    ∃ F, LaysBytes F ∧ ∀ s' : State, s'.enc = s.enc → s'.gridIn = s.gridIn → encTurn s' = .next (F s') := by
  rcases encTurn_cases h with ⟨hn, _⟩ | ⟨hb, hs, _⟩ | ⟨hb, hs, hi, _⟩ | ⟨hb, hs, hi, p, hp, _⟩
  · exact ⟨id, laysBytes_id, fun s' e _ => if_neg (e ▸ hn)⟩
  · exact ⟨_, laysBytes_encHeaderStep, fun s' e _ => encTurn_header (e ▸ hb) (e ▸ hs)⟩
  · exact ⟨_, laysBytes_encFlushStep, fun s' e _ => encTurn_flush (e ▸ hb) (e ▸ hs) (e ▸ hi)⟩
  · refine ⟨_, laysBytes_encTakePixel p, fun s' e eg => ?_⟩
    have hp' : pixelAt (s'.enc.i / s'.enc.w.toNat) (s'.enc.i % s'.enc.w.toNat) s' = .ok p := by
      rw [← hp, pixelAt, pixelAt, e, eg]
    rw [← e] at hb hs hi
    simp only [encTurn, hb, if_true, encStep, hs, hi, if_false, encPixelStep, hp']

/-- The same of a turn in terms of what it wrote: registers, and bytes from the old length to the new one. -/
theorem encTurn_bytesLaid {s t : State} (h : encTurn s = .next t) :
    ∃ e bs, e.outlen = s.enc.outlen + bs.length ∧ t = bytesLaid e bs s ∧
      ∀ s' : State, s'.enc = s.enc → s'.gridIn = s.gridIn → encTurn s' = .next (bytesLaid e bs s') := by
  obtain ⟨F, hF, hs⟩ := encTurn_laysBytes h
  obtain ⟨e, bs, hlen, hlaid⟩ := hF s.enc
  have same : ∀ s' : State, s'.enc = s.enc → s'.gridIn = s.gridIn → encTurn s' = .next (bytesLaid e bs s') :=
    fun s' ee eg => by rw [hs s' ee eg, hlaid s' ee]
  exact ⟨e, bs, hlen, Host.Outcome.next.inj (h.symm.trans (same s rfl rfl)), same⟩

/-! ## The turns in either order (rule R213) -/

/-- Settles O48: each turn's registers and writes are the same before and after the other's turn, and they lie apart. -/
theorem engineTurnsCommute : Obligations.EngineTurnsCommute := by
  intro s a b ha hb
  obtain ⟨e, bs, _, rfl, henc⟩ := encTurn_bytesLaid ha
  obtain ⟨d, n, p, _, rfl, hdec⟩ := decTurn_rowWritten hb
  exact ⟨rowWritten d n p (bytesLaid e bs s), hdec (bytesLaid e bs s) rfl rfl rfl, henc (rowWritten d n p s) rfl rfl⟩

/-! ## What a run depends on (rules R208, R231) -/

theorem DecoderSeesTheSame.decTurn {s s' t : State} (hsee : DecoderSeesTheSame s s') (h : decTurn s = .next t) :
    ∃ t', decTurn s' = .next t' ∧ DecoderSeesTheSame t t' := by
  obtain ⟨d, n, p, hcur, rfl, same⟩ := decTurn_rowWritten h
  refine ⟨rowWritten d n p s', same s' hsee.dec hsee.cfg hsee.bytesIn, rfl, hsee.cfg, hsee.bytesIn, fun j hj => ?_⟩
  rw [rowWritten, hcur] at hj
  simp only [rowWritten, read_writeRow, hsee.dec]
  split_ifs
  · rfl
  · exact hsee.cells j (by omega)

theorem EncoderSeesTheSame.encTurn {s s' t : State} (hsee : EncoderSeesTheSame s s') (h : encTurn s = .next t) :
    ∃ t', encTurn s' = .next t' ∧ EncoderSeesTheSame t t' := by
  obtain ⟨e, bs, hlen, rfl, same⟩ := encTurn_bytesLaid h
  refine ⟨bytesLaid e bs s', same s' hsee.enc hsee.gridIn, rfl, hsee.gridIn, fun j hj => ?_⟩
  rw [bytesLaid, hlen] at hj
  rw [bytesLaid, bytesLaid, hsee.enc]
  refine read_layBytes_congr ?_
  by_cases hlt : j < s.enc.outlen
  · exact .inr (hsee.bytes j hlt)
  · exact .inl ⟨by omega, hj⟩

/-- A start writes every register of the decoder, and its run has written no cell. -/
theorem decoderSeesTheSame_startDecoder (l : Nat) {s s' : State} (hc : s'.cfg = s.cfg) (hb : s'.bytesIn = s.bytesIn) :
    DecoderSeesTheSame (startDecoder l s) (startDecoder l s') :=
  ⟨rfl, hc, hb, fun j hj => absurd hj (Nat.not_lt_zero j)⟩

/-- A start and the header step write every register of the encoder, and its run has written the header's bytes. -/
theorem encoderSeesTheSame_firstStep {hin win : BitVec 32} {s s' : State} (hg : s'.gridIn = s.gridIn)
    (hd : hin.toNat ≤ maxDim ∧ win.toNat ≤ maxDim) :
    EncoderSeesTheSame (encHeaderStep (startEncoder hin win s)) (encHeaderStep (startEncoder hin win s')) := by
  obtain ⟨he, henc⟩ := encHeaderStep_passes (s := startEncoder hin win s) hd
  obtain ⟨he', henc'⟩ := encHeaderStep_passes (s := startEncoder hin win s') hd
  obtain ⟨_, _, hgrid, _⟩ := he.frame
  obtain ⟨_, _, hgrid', _⟩ := he'.frame
  obtain ⟨_, hbytes, _⟩ := he.appended
  obtain ⟨_, hbytes', _⟩ := he'.appended
  refine ⟨by rw [henc, henc']; rfl, hgrid'.trans (hg.trans hgrid.symm), fun a ha => ?_⟩
  rw [henc] at ha
  have h := hbytes a (by simpa [length_encode, Instr.length] using ha)
  have h' := hbytes' a (by simpa [length_encode, Instr.length] using ha)
  rw [startEncoder_enc, Nat.zero_add] at h h'
  exact h'.trans h.symm

/-- Settles O60: a turn of either engine reads and writes what its side of the relation names, and a start, with the
encoder's header step, overwrites the rest. -/
theorem engineTurnsForgetThePast : Obligations.EngineTurnsForgetThePast := by
  refine ⟨fun s s' t hsee => hsee.decTurn, fun s s' t hsee => hsee.encTurn,
    fun l s s' => decoderSeesTheSame_startDecoder l, fun hin win s s' t hg hh hw ht => ?_⟩
  rw [encTurn_header rfl rfl] at ht
  cases ht
  exact ⟨_, encTurn_header rfl rfl, encoderSeesTheSame_firstStep hg ⟨hh, hw⟩⟩

theorem runSteps_of_step {s t : State} (k : Nat) (h : step s = .next t) : runSteps (k + 1) s = runSteps k t := by
  rw [runSteps_succ, h]

/-- A relation that steps carry over to steps, runs carry over to runs. -/
theorem runSteps_carries {R : State → State → Prop}
    (h : ∀ s s' t, R s s' → step s = .next t → ∃ t', step s' = .next t' ∧ R t t') {k : Nat} {s s' t : State}
    (hr : R s s') (hk : runSteps k s = .next t) : ∃ t', runSteps k s' = .next t' ∧ R t t' := by
  induction k generalizing s s' with
  | zero =>
    cases hk
    exact ⟨s', rfl, hr⟩
  | succ k ih =>
    rw [runSteps_succ] at hk
    cases hs : step s with
    | next u =>
      obtain ⟨u', hu', hr'⟩ := h s s' u hr hs
      rw [hs] at hk
      obtain ⟨t', ht', hrt⟩ := ih hr' hk
      exact ⟨t', (runSteps_of_step k hu').trans ht', hrt⟩
    | fault f => rw [hs] at hk; cases hk
    | refused r => rw [hs] at hk; cases hk

/-- Two machines in which nothing but the decoder moves, and which look alike to it. -/
def DecodersAlike (s s' : State) : Prop := DecoderAlone s ∧ DecoderAlone s' ∧ DecoderSeesTheSame s s'

/-- Two machines in which nothing but the encoder moves, and which look alike to it. -/
def EncodersAlike (s s' : State) : Prop := EncoderAlone s ∧ EncoderAlone s' ∧ EncoderSeesTheSame s s'

theorem DecodersAlike.step (s s' t : State) (h : DecodersAlike s s') (hs : step s = .next t) :
    ∃ t', step s' = .next t' ∧ DecodersAlike t t' := by
  obtain ⟨ha, ha', hsee⟩ := h
  rw [step_decoderAlone ha] at hs
  obtain ⟨t', ht', hsee'⟩ := hsee.decTurn hs
  exact ⟨t', (step_decoderAlone ha').trans ht', (decTurn_frame hs).1.decoderAlone ha,
    (decTurn_frame ht').1.decoderAlone ha', hsee'⟩

theorem EncodersAlike.step (s s' t : State) (h : EncodersAlike s s') (hs : step s = .next t) :
    ∃ t', step s' = .next t' ∧ EncodersAlike t t' := by
  obtain ⟨ha, ha', hsee⟩ := h
  rw [step_encoderAlone ha] at hs
  obtain ⟨t', ht', hsee'⟩ := hsee.encTurn hs
  exact ⟨t', (step_encoderAlone ha').trans ht', (encTurn_frame hs).encoderAlone ha,
    (encTurn_frame ht').encoderAlone ha', hsee'⟩

/-- Settles O57: the machines look alike to the decoder from its start on. -/
theorem decoderRunForgetsThePast : Obligations.DecoderRunForgetsThePast := by
  intro k l s s' t ha ha' hc hb hk
  have hstart : DecodersAlike (startDecoder l s) (startDecoder l s') :=
    ⟨ha, ha', decoderSeesTheSame_startDecoder l hc.symm hb.symm⟩
  obtain ⟨t', ht', _, _, hsee⟩ := runSteps_carries DecodersAlike.step hstart hk
  exact ⟨t', ht', hsee.dec, hsee.cells⟩

/-- Settles O58: the machines look alike to the encoder from its header step on. -/
theorem encoderRunForgetsThePast : Obligations.EncoderRunForgetsThePast := by
  intro k hin win s s' t ha ha' hg hh hw hk
  have first : ∀ u, EncoderAlone u → step (startEncoder hin win u) = .next (encHeaderStep (startEncoder hin win u)) ∧
      EncoderAlone (encHeaderStep (startEncoder hin win u)) := fun u hu => by
    have hu' : EncoderAlone (startEncoder hin win u) := hu
    have hturn := encTurn_header (s := startEncoder hin win u) rfl rfl
    exact ⟨(step_encoderAlone hu').trans hturn, (encTurn_frame hturn).encoderAlone hu'⟩
  obtain ⟨hstep, hal⟩ := first s ha
  obtain ⟨hstep', hal'⟩ := first s' ha'
  rw [runSteps_of_step k hstep] at hk
  obtain ⟨t', ht', _, _, hsee⟩ := runSteps_carries EncodersAlike.step
    ⟨hal, hal', encoderSeesTheSame_firstStep hg.symm ⟨hh, hw⟩⟩ hk
  exact ⟨t', (runSteps_of_step k hstep').trans ht', hsee.enc, hsee.bytes⟩

end Sys2Proof.Machine
end

section
/-! The statements about the host and the machine's step (60_exceptions.md, 70_reset_and_hazards.md): reads and input writes
(R35, R63, R235, R240), starts, the order of the moves (R213), the fetched instruction, and the phases that persist (R32). -/

namespace Sys2Proof.Machine

/-! ## Host reads (rules R35, R36, R63) -/

/-- `t` is `s` but for what the host was delivered and the count of free values. -/
def OnlyDelivered (s t : State) : Prop := t = { s with hostData := t.hostData, fresh := t.fresh }

theorem onlyDelivered_deliver (v : HostData) (s : State) : OnlyDelivered s (deliver v s) := rfl

theorem onlyDelivered_deliverFree (v : Nat → HostData) (s : State) : OnlyDelivered s (deliverFree v s) := rfl

theorem readReg_onlyDelivered (r : HostReg) (s : State) : OnlyDelivered s (readReg r s) := by
  cases r <;> simp only [readReg]
  case encStatus | decStatus => exact onlyDelivered_deliver _ s
  all_goals
    split_ifs
    · exact onlyDelivered_deliver _ s
    · exact onlyDelivered_deliverFree _ s

theorem readBytesOut_onlyDelivered {a : Nat} {s t : State} (h : readBytesOut a s = .next t) : OnlyDelivered s t := by
  unfold readBytesOut at h
  split_ifs at h
  · split at h <;> cases h
    · exact onlyDelivered_deliver _ s
    · exact onlyDelivered_deliverFree _ s
  · cases h
    exact onlyDelivered_deliverFree _ s

theorem readGridOut_onlyDelivered {i : Nat} {s t : State} (h : readGridOut i s = .next t) : OnlyDelivered s t := by
  unfold readGridOut at h
  split_ifs at h
  · split at h <;> cases h
    · exact onlyDelivered_deliver _ s
    · exact onlyDelivered_deliverFree _ s
  · cases h
    exact onlyDelivered_deliverFree _ s

/-- Outside DONE and ERROR a read of the stream delivers a free value, wherever it reads. -/
theorem readBytesOut_unsettled {a : Nat} {s : State} (h : s.enc.phase.settled = false) :
    readBytesOut a s = .next (deliverFree (fun k => .byte (Config.anyByte k)) s) := by
  simp only [readBytesOut, h, Bool.false_eq_true, if_false]

theorem readGridOut_unsettled {i : Nat} {s : State} (h : s.dec.phase.settled = false) :
    readGridOut i s = .next (deliverFree (fun k => .pixel (Config.anyPixel k)) s) := by
  simp only [readGridOut, h, Bool.false_eq_true, if_false]

theorem readBytesOut_beyond {a : Nat} {s : State} (h : s.enc.phase.settled = true) (ha : s.enc.outlen ≤ a) :
    readBytesOut a s = .fault .bytesOutReadOutOfRange := by
  simp only [readBytesOut, h, if_true, if_neg (Nat.not_lt.2 ha)]

theorem readGridOut_beyond {i : Nat} {s : State} (h : s.dec.phase.settled = true) (hi : s.dec.n ≤ i) :
    readGridOut i s = .fault .gridOutReadOutOfRange := by
  simp only [readGridOut, h, if_true, if_neg (Nat.not_lt.2 hi)]

/-- Inside a settled output a read delivers the unit that is there. -/
theorem readBytesOut_within {a : Nat} {b : Byte} {s : State} (h : s.enc.phase.settled = true) (ha : a < s.enc.outlen)
    (hb : Memory.read s.bytesOut a = some b) : readBytesOut a s = .next (deliver (.byte b) s) := by
  simp only [readBytesOut, h, if_true, ha, hb]

theorem readGridOut_within {i : Nat} {p : Pixel} {s : State} (h : s.dec.phase.settled = true) (hi : i < s.dec.n)
    (hp : Memory.read s.gridOut i = some p) : readGridOut i s = .next (deliver (.pixel p) s) := by
  simp only [readGridOut, h, if_true, hi, hp]

/-- A read of the stream stops only beyond a settled output (log 15). -/
theorem readBytesOut_completes {a : Nat} {s : State} (h : s.enc.phase.settled = true → a < s.enc.outlen) :
    ∃ t, readBytesOut a s = .next t := by
  cases hs : s.enc.phase.settled
  · exact ⟨_, readBytesOut_unsettled hs⟩
  · simp only [readBytesOut, hs, if_true, h hs]
    split <;> exact ⟨_, rfl⟩

theorem readGridOut_completes {i : Nat} {s : State} (h : s.dec.phase.settled = true → i < s.dec.n) :
    ∃ t, readGridOut i s = .next t := by
  cases hs : s.dec.phase.settled
  · exact ⟨_, readGridOut_unsettled hs⟩
  · simp only [readGridOut, hs, if_true, h hs]
    split <;> exact ⟨_, rfl⟩

/-- Settles O16: each kind of read delivers a value, free or not, or faults beyond a settled output. -/
theorem hostReadsTouchNoEngine : Obligations.HostReadsTouchNoEngine := by
  refine fun s => ⟨fun c t hc h => ?_, fun r => ⟨_, rfl⟩, fun a hb => ?_, fun i hb => ?_, fun a hd => ?_, fun i hd => ?_⟩
  · rcases hc with ⟨r, rfl⟩ | ⟨a, rfl⟩ | ⟨i, rfl⟩
    · cases h
      exact readReg_onlyDelivered r s
    · exact readBytesOut_onlyDelivered h
    · exact readGridOut_onlyDelivered h
  · exact ⟨_, _, readBytesOut_unsettled (by rw [hb]; rfl), rfl⟩
  · exact ⟨_, _, readGridOut_unsettled (by rw [hb]; rfl), rfl⟩
  · exact readBytesOut_beyond (by rw [hd]; rfl)
  · exact readGridOut_beyond (by rw [hd]; rfl)

/-! ## Host writes of the inputs (rules R235, R240) -/

/-- Distinct positions have distinct keys: a column is below 2^32 (log 5). -/
theorem gridKey_injective {row col row' col' : BitVec 32}
    (h : gridKey row.toNat col.toNat = gridKey row'.toNat col'.toNat) : row = row' ∧ col = col' := by
  have hc := col.isLt
  have hc' := col'.isLt
  unfold gridKey at h
  exact ⟨BitVec.eq_of_toNat_eq (by omega), BitVec.eq_of_toNat_eq (by omega)⟩

/-- Settles O13: the phase is the command's first test, and the memory is written at one key. -/
theorem inputWritesOutsideRuns : Obligations.InputWritesOutsideRuns := by
  refine fun s => ⟨fun row col p hb => if_pos hb, fun row col p hb => ⟨_, if_neg hb, read_write_same _ _ _, ?_, rfl⟩,
    fun a b hb => if_pos hb, fun a b hb => ⟨_, if_neg hb, read_write_same _ _ _, ?_, rfl⟩⟩
  · intro row' col' hne
    refine read_write_other _ _ fun e => ?_
    obtain ⟨rfl, rfl⟩ := gridKey_injective e
    exact hne.elim (absurd rfl) (absurd rfl)
  · exact fun a' hne => read_write_other _ _ hne.symm

/-! ## Starts (logs 12, 13) -/

/-- Settles O59: a start that completes is `startEncoder` or `startDecoder`, which write no output space; the decoder's has
the tests of its phase and of its length, in that order. -/
theorem startsKeepOutputsAndLengthsFit : Obligations.StartsKeepOutputsAndLengthsFit := by
  refine fun s => ⟨fun hin win t h => ?_, fun l t h => ?_, fun l hb hl => ?_, fun l hb _ => if_pos hb⟩
  · rw [hostStep_encStart_next h, startEncoder_bytesOut]
  · rw [hostStep_decStart_next h, startDecoder_gridOut]
  · exact (if_neg hb).trans (if_neg (Nat.not_lt.2 hl))

/-! ## The order of the moves (log 6) -/

theorem step_of_agenda {m : Move} {rest : List Move} {s : State} (h : s.agenda = m :: rest) :
    step s = moveStep m { s with agenda := rest } := by
  simp only [step, stepOf, h]

/-- Settles O17: a scheduled move comes first; with none, an engine that moves alone takes its turn, and the turn of an
engine that is not BUSY leaves the state as it is. -/
theorem agendaOrdersTheMoves : Obligations.AgendaOrdersTheMoves :=
  fun _ => ⟨fun _ _ => step_of_agenda, fun h hb => (step_encoderAlone h).trans (if_pos hb),
    fun h hb => (step_decoderAlone h).trans (if_pos hb), fun ha he hd => (step_encoderAlone ⟨ha, hd⟩).trans (if_neg he)⟩

/-! ## The step runs the decoded instruction (43_decoder.md rules R161, R162) -/

/-- What decodes as a header is followed by what remains of its bytes after four. -/
theorem decodeHeader_length {bs rest : List Byte} {i : Instr} (h : decodeHeader bs = .ok (i, rest)) :
    bs.length = 4 + rest.length := by
  unfold decodeHeader at h
  split at h <;> cases h
  simp only [List.length_cons]
  omega

/-- The header that stands at the front of the buffer is fetched. -/
theorem InstrAt.fetch_header {i : Instr} {s : State} (h : InstrAt .start 0 i s) (hs : s.dec.stage = .hdr) :
    fetch s = .instr i := by
  obtain ⟨bs, hd, hb, hl⟩ := h
  have hlen : bs.length = 4 := decodeHeader_length hd
  simp only [fetch, hs, fetchHeader]
  exact hlen ▸ fetchAt_of_holds hl hb hd

/-- Settles O25: the bytes at the decoder's place are what it fetches, whatever else the agenda holds. -/
theorem stepRunsTheDecodedInstruction : Obligations.StepRunsTheDecodedInstruction := by
  intro i s h
  have turn : ∀ u : State, u.dec = s.dec → u.bytesIn = s.bytesIn → decTurn u = exec i u := fun u ed eb => by
    rcases h with ⟨hb, hs, hi⟩ | ⟨hn, hi⟩
    · exact decTurn_of_instr (ed ▸ hb) ((fetch_congr ed eb).trans (hi.fetch_header hs))
    · exact decTurn_of_instr (ed ▸ hn.busy) ((fetch_congr ed eb).trans (hi.fetch_op hn.stage hn.more))
  exact ⟨turn s rfl rfl, fun rest ha => (step_of_agenda ha).trans (turn { s with agenda := rest } rfl rfl),
    fun ha => (step_decoderAlone ha).trans (turn s rfl rfl)⟩

/-! ## How the execution of an instruction can stop (log 15) -/

/-- With the grid full, the end of a pixel-producing op faults. -/
theorem producePixel_full {p : Pixel} {len : Nat} {stores : Bool} {s : State} (h : s.dec.n ≤ s.dec.cur) :
    producePixel p len stores s = .fault .gridOutOutOfRange := by
  rw [producePixel_eq, if_neg (Nat.not_lt.2 h)]

theorem produceFromDiff_full {p : Pixel} {d : Diff} {len : Nat} {s : State} (hr : recon s.dec.prev d = some p)
    (h : s.dec.n ≤ s.dec.cur) : produceFromDiff d len s = .fault .gridOutOutOfRange := by
  simp only [produceFromDiff, hr, producePixel_full h]

theorem exec_raw_whole {r g b : Byte} {s : State} (hl : s.dec.rp + 4 ≤ s.dec.l) :
    exec (.raw r g b) s = producePixel ⟨r, g, b⟩ 4 true s := if_neg (Nat.not_lt.2 hl)

theorem produceFromDiff_outcome (d : Diff) (len : Nat) (s : State) :
    (∃ t, produceFromDiff d len s = .next t) ∨ produceFromDiff d len s = .fault .gridOutOutOfRange := by
  cases hr : recon s.dec.prev d with
  | none => exact .inl ⟨_, produceFromDiff_next.2 (.inl ⟨hr, rfl⟩)⟩
  | some p =>
    by_cases hc : s.dec.cur < s.dec.n
    · exact .inl ⟨_, produceFromDiff_next.2 (.inr ⟨p, hr, hc, rfl⟩)⟩
    · exact .inr (produceFromDiff_full hr (Nat.not_lt.1 hc))

/-- An instruction completes, or has the one fault of a cell outside the grid. -/
theorem exec_outcome (i : Instr) (s : State) : (∃ t, exec i s = .next t) ∨ exec i s = .fault .gridOutOutOfRange := by
  by_cases hc : s.dec.cur < s.dec.n
  · exact .inl (exec_stops (.inl hc))
  · have hfull := Nat.not_lt.1 hc
    cases i with
    | hdr v w => exact .inl (exec_stops (.inr rfl))
    | cache k => exact .inr (producePixel_full hfull)
    | small dr dg db => exact produceFromDiff_outcome _ _ s
    | med dr dg db =>
      by_cases hl : s.dec.l < s.dec.rp + 2
      · exact .inl ⟨_, exec_med_truncated hl⟩
      · rw [exec_med_whole (Nat.not_lt.1 hl)]
        exact produceFromDiff_outcome _ _ s
    | run n =>
      by_cases hn : s.dec.cur + n ≤ s.dec.n
      · exact .inl ⟨_, exec_run_row hn⟩
      · exact .inl ⟨_, exec_run_raises (Nat.not_le.1 hn)⟩
    | raw r g b =>
      by_cases hl : s.dec.l < s.dec.rp + 4
      · exact .inl ⟨_, exec_raw_raises hl⟩
      · exact .inr ((exec_raw_whole (Nat.not_lt.1 hl)).trans (producePixel_full hfull))

/-- Whichever instruction completes, the cells it writes are below N. -/
theorem exec_cells_beyond {i : Instr} {s t : State} {j : Nat} (h : exec i s = .next t) (hj : s.dec.n ≤ j) :
    Memory.read t.gridOut j = Memory.read s.gridOut j := by
  rcases exec_next h with ⟨c, _, _, rfl⟩ | ⟨v, w, _, _, rfl⟩ | ⟨p, b, _, _, hc, rfl⟩ | ⟨n, _, hn, m, rfl, hm, _⟩
  · rfl
  · rfl
  · exact read_write_other _ _ (by omega)
  · exact (hm j).trans (if_neg (by omega))

/-- Settles O24: each one-pixel op past its own tests is the end of a pixel-producing op, and a fault means the cursor is
not below N, as `exec_stops` says. -/
theorem cellsOutsideTheGridFault : Obligations.CellsOutsideTheGridFault := by
  refine fun s => ⟨fun hfull => ⟨fun k => producePixel_full hfull, fun r g b hl => ?_, fun dr dg db p hr => ?_,
    fun dr dg db p hl hr => ?_⟩, fun i t j => exec_cells_beyond, fun i f h => ?_, fun i r h => ?_⟩
  · exact (exec_raw_whole hl).trans (producePixel_full hfull)
  · exact produceFromDiff_full hr hfull
  · exact (exec_med_whole hl).trans (produceFromDiff_full hr hfull)
  · have stops : ¬(s.dec.cur < s.dec.n ∨ i.place = .start) := fun hs => by
      obtain ⟨t, ht⟩ := exec_stops hs
      cases ht.symm.trans h
    rw [not_or] at stops
    refine ⟨?_, ?_, Nat.not_lt.1 stops.1⟩
    · rcases exec_outcome i s with ⟨t, ht⟩ | hf
      · cases ht.symm.trans h
      · exact (Host.Outcome.fault.inj (hf.symm.trans h)).symm
    · cases hp : i.place with
      | start => exact absurd hp stops.2
      | opStream => rfl
  · rcases exec_outcome i s with ⟨t, ht⟩ | hf
    · cases ht.symm.trans h
    · cases hf.symm.trans h

/-! ## Phases that persist (rules R32, R203, R208) -/

/-- A step leaves an encoder that is not BUSY as it is, unless it is the encoder's start or the reset input. -/
theorem step_keeps_enc {s t : State} (h : step s = .next t) (hn : s.enc.phase ≠ .busy)
    (hstart : ∀ hin win rest, s.agenda ≠ .host (.encStart hin win) :: rest)
    (hreset : ∀ rest, s.agenda ≠ .host .reset :: rest) : t.enc = s.enc := by
  rcases step_cases s with ⟨m, rest, ha, e⟩ | ⟨k, _, hb, _⟩ | ⟨k, _, _, e⟩ | e
  · rw [e] at h
    cases m with
    | enc =>
      cases (if_neg hn).symm.trans h
      rfl
    | dec =>
      obtain ⟨⟨_, henc, _⟩, _⟩ := decTurn_frame h
      exact henc
    | host c =>
      obtain ⟨_, _, ⟨henc, _⟩ | ⟨hin, win, rfl, _⟩ | ⟨rfl, _⟩, _⟩ := hostStep_engines h
      · exact henc
      · exact absurd ha (hstart _ _ _)
      · exact absurd ha (hreset _)
  · exact absurd hb hn
  · obtain ⟨⟨_, henc, _⟩, _⟩ := decTurn_frame (e ▸ h)
    exact henc
  · cases e.symm.trans h
    rfl

/-- A step leaves a decoder that is not BUSY as it is, unless it is the decoder's start or the reset input. -/
theorem step_keeps_dec {s t : State} (h : step s = .next t) (hn : s.dec.phase ≠ .busy)
    (hstart : ∀ l rest, s.agenda ≠ .host (.decStart l) :: rest)
    (hreset : ∀ rest, s.agenda ≠ .host .reset :: rest) : t.dec = s.dec := by
  rcases step_cases s with ⟨m, rest, ha, e⟩ | ⟨k, _, _, e⟩ | ⟨k, _, hb, _⟩ | e
  · rw [e] at h
    cases m with
    | enc =>
      obtain ⟨_, hdec, _⟩ := encTurn_frame h
      exact hdec
    | dec =>
      cases (if_neg hn).symm.trans h
      rfl
    | host c =>
      obtain ⟨_, _, _, ⟨hdec, _⟩ | ⟨l, rfl, _⟩ | ⟨rfl, _⟩⟩ := hostStep_engines h
      · exact hdec
      · exact absurd ha (hstart _ _)
      · exact absurd ha (hreset _)
  · obtain ⟨_, hdec, _⟩ := encTurn_frame (e ▸ h)
    exact hdec
  · exact absurd hb hn
  · cases e.symm.trans h
    rfl

/-- Settles O56: an engine that is DONE or ERROR is not BUSY. -/
theorem finishedPhasesPersist : Obligations.FinishedPhasesPersist := fun s t h =>
  ⟨fun hp => step_keeps_enc h (by rcases hp with hp | hp <;> simp [hp]),
    fun hp => step_keeps_dec h (by rcases hp with hp | hp <;> simp [hp])⟩

end Sys2Proof.Machine
end

section
/-! The invariant of Safety.lean: it holds at reset, every turn and every host command keeps it, and in a state that has it,
with the inputs placed, every allowed move completes. From it follow what a finished engine's outputs hold (R36, R54) and
that a decode ends within its bytes (R175). -/

namespace Sys2Proof.Machine

/-! ## Reset and starts -/

theorem encInv_of_reset {s : State} (h : s.enc = Enc.reset) : EncInv s := by
  refine ⟨?_, ?_, ?_, ?_, ?_, ?_⟩ <;> rw [h]
  · exact slotsAfterStart_idle _
  · exact .inl rfl
  · decide
  all_goals exact nofun

/-- The decoder's length after a reset is 0 (logs 1 and 2), which any width holds. -/
theorem decInv_of_reset {s : State} (h : s.dec = Dec.reset) : DecInv s := by
  refine ⟨?_, ?_, ?_, ?_, ?_, ?_, ?_⟩ <;> rw [h]
  · exact slotsAfterStart_idle _
  · decide
  · decide
  · exact Nat.two_pow_pos _
  all_goals exact nofun

/-- Settles O51: no memory is listed, and the invariant asks of an IDLE engine its code and the decoder's length. -/
theorem invariantHoldsAtReset : Obligations.InvariantHoldsAtReset :=
  ⟨rfl, rfl, rfl, rfl, encInv_of_reset rfl, decInv_of_reset rfl⟩

theorem encInv_startEncoder (hin win : BitVec 32) (s : State) : EncInv (startEncoder hin win s) :=
  ⟨fun _ => startEncoder_slotsHashed hin win s, .inl rfl, ⟨nofun, fun h => absurd rfl h⟩,
    fun _ _ => encFresh_startEncoder hin win s, nofun, nofun⟩

theorem decInv_startDecoder {l : Nat} {s : State} (hl : l < 2 ^ s.cfg.addrWidth) : DecInv (startDecoder l s) :=
  ⟨fun _ => startDecoder_slotsHashed l s, nofun, ⟨nofun, fun h => absurd rfl h⟩, hl,
    fun _ _ => ⟨rfl, rfl, rfl, rfl, rfl, rfl, rfl⟩, nofun, nofun⟩

/-! ## Turns of the encoder -/

theorem EncInv.code_of_busy {s : State} (h : EncInv s) (hb : s.enc.phase = .busy) : s.enc.code = .ok := by
  by_contra hc
  cases hb.symm.trans (h.error.2 hc)

theorem encInv_encTurn {s t : State} (h : EncInv s) (ht : encTurn s = .next t) : EncInv t := by
  have hslots := encSlots_encTurn h.slots ht
  rcases encTurn_cases ht with ⟨_, rfl⟩ | ⟨hb, hs, rfl⟩ | ⟨hb, hs, hi, rfl⟩ | ⟨hb, hs, hi, p, _, rfl⟩
  · exact h
  · by_cases hd : s.enc.hin.toNat > maxDim ∨ s.enc.win.toNat > maxDim
    · rw [encHeaderStep_raises hd] at hslots ⊢
      exact ⟨hslots, .inr rfl, ⟨fun _ => nofun, fun _ => rfl⟩, nofun, nofun, nofun⟩
    · have hpass : s.enc.hin.toNat ≤ maxDim ∧ s.enc.win.toNat ≤ maxDim := by omega
      have hpix := encPixels_encHeaderStep (h.fresh hb hs) hpass
      have henc := (encHeaderStep_passes hpass).2
      refine ⟨hslots, ?_, ?_, ?_, fun _ _ => hpix, ?_⟩ <;> simp [henc, hb, h.code_of_busy hb]
  · have hfin := encFinished_encFlushStep (h.pixels hb hs) hi
    have henc := (encFlushStep_emits s).2
    refine ⟨hslots, ?_, ?_, ?_, ?_, fun _ => hfin⟩ <;> simp [henc, h.code_of_busy hb]
  · have hpix := encPixels_encTakePixel p (h.pixels hb hs) hi
    obtain ⟨_, ⟨hphase, hcode, hstage, _⟩, _⟩ := encTakePixel_frame p s
    refine ⟨hslots, ?_, ?_, ?_, fun _ _ => hpix, ?_⟩ <;>
      simp [hphase, hcode, hstage, hb, hs, h.code_of_busy hb]

/-- A BUSY encoder whose grid is placed takes its turn: in the pixel stage the position read lies in the grid (R51). -/
theorem encTurn_completes {s : State} (h : EncInv s)
    (placed : s.enc.phase = .busy → ∀ row col, row < s.enc.hin.toNat → col < s.enc.win.toNat →
      (Memory.read s.gridIn (gridKey row col)).isSome = true) : ∃ t, encTurn s = .next t := by
  by_cases hb : s.enc.phase = .busy
  · cases hs : s.enc.stage with
    | hdr => exact ⟨_, encTurn_header hb hs⟩
    | pix =>
      by_cases hi : s.enc.i = s.enc.n
      · exact ⟨_, encTurn_flush hb hs hi⟩
      · obtain ⟨hsized, hle, hrun, _⟩ := h.pixels hb hs
        have hlt : s.enc.i < s.enc.n := by omega
        obtain ⟨hrow, hcol⟩ := position_lt (hsized.n_eq ▸ hlt)
        rw [← hsized.w_toNat] at hrow hcol
        have hcol' : s.enc.i % s.enc.w.toNat < s.enc.win.toNat := hsized.w_toNat ▸ hcol
        obtain ⟨p, hp⟩ := Option.isSome_iff_exists.1 (placed hb _ _ hrow hcol')
        exact ⟨_, encTurn_pixel ⟨hb, hs, hi, hrow, hcol', hp, Nat.le_of_lt_succ hrun⟩⟩
  · exact ⟨s, if_neg hb⟩

/-! ## Turns of the decoder -/

/-- Ops that wrote their pixels inside the grid, and whose bytes end within L, keep the decoder's ranges. -/
theorem DecOps.of_decoded {ps : List Pixel} {len : Nat} {c : Context} {s t : State} (h : DecOps s)
    (hd : PixelsDecoded ps len c s t) (hl : s.dec.rp + len ≤ s.dec.l) (hn : s.dec.cur + ps.length ≤ s.dec.n) :
    DecOps t := by
  obtain ⟨_, _, _, el, eh, ew, en⟩ := hd.run
  have hheader := h.header
  refine ⟨by rw [en, eh, ew, h.n], by rw [hd.rp]; omega, by rw [hd.rp, el]; exact hl, by rw [hd.cur, en]; exact hn,
    fun a ha => ?_⟩
  rw [hd.cur] at ha
  by_cases hlt : a < s.dec.cur
  · rw [hd.others a (.inl hlt)]
    exact h.filled a hlt
  · have hj : a - s.dec.cur < ps.length := by omega
    have hcell := hd.cells _ hj
    rw [Nat.add_sub_cancel' (by omega), List.getElem?_eq_getElem hj] at hcell
    rw [hcell, Option.isSome_some]

/-- An op whose bytes are all there raises, or moves the read pointer past them and keeps the decoder's ranges. -/
theorem DecOps.after_exec {i : Instr} {s t : State} (h : DecOps s) (hp : i.place = .opStream)
    (hl : s.dec.rp + i.length ≤ s.dec.l) (he : exec i s = .next t) :
    (∃ c, c ≠ .ok ∧ c ≠ .dimensionOverflow ∧ t = raiseError .dec c s) ∨
    (SameDecoderRun s t ∧ t.dec.rp = s.dec.rp + i.length ∧ DecOps t) := by
  rcases exec_next he with hraise | ⟨v, w, rfl, _⟩ | ⟨p, b, _, _, hc, rfl⟩ | ⟨n, rfl, hn, hw⟩
  · exact .inl hraise
  · cases hp
  · have hd := pixelsDecoded_afterPixel p i.length b s
    exact .inr ⟨hd.run, hd.rp, h.of_decoded hd hl hc⟩
  · have hd := hw.pixelsDecoded
    exact .inr ⟨hd.run, hd.rp, h.of_decoded hd hl (by simpa using hn)⟩

/-- Everything a turn of a BUSY decoder can do at stage OPS: it raises, it completes a full grid, or it executes an op. -/
theorem DecOps.after_decTurn {s t : State} (h : DecOps s) (hb : s.dec.phase = .busy) (hs : s.dec.stage = .ops)
    (ht : decTurn s = .next t) :
    (∃ c, c ≠ .ok ∧ c ≠ .dimensionOverflow ∧ t = raiseError .dec c s) ∨
    (t = finishDecoder s ∧ s.dec.cur = s.dec.n ∧ (s.cfg.strictTrailing = true → s.dec.rp = s.dec.l)) ∨
    (SameDecoderRun s t ∧ s.dec.rp < t.dec.rp ∧ DecOps t) := by
  rcases decTurn_cases ht with ⟨hn, _⟩ | ⟨_, i, hf, he⟩ | ⟨_, c, hf, rfl⟩ | ⟨_, hf, rfl⟩
  · exact absurd hb hn
  · obtain ⟨hp, hl⟩ := (instrAt_of_fetch_op hf hs).op_within
    have hpos := length_encode i ▸ (encode_length_bounds i).1
    exact (h.after_exec hp hl he).imp_right fun ⟨hrun, hrp, hops⟩ => .inr ⟨hrun, by omega, hops⟩
  · refine .inl ⟨c, ?_, ?_, rfl⟩ <;> rcases fetch_error hf with rfl | rfl | rfl <;> decide
  · obtain ⟨_, hc⟩ := fetch_complete hf
    have hle := h.rp
    by_cases hst : s.cfg.strictTrailing = false ∨ s.dec.l ≤ s.dec.rp
    · refine .inr (.inl ⟨decComplete_finishes hst, hc, fun hstrict => ?_⟩)
      have := hst.resolve_left (by simp [hstrict])
      omega
    · rw [not_or, Bool.not_eq_false, Nat.not_le] at hst
      exact .inl ⟨.gridOverrun, by decide, by decide, decComplete_raises hst.1 hst.2⟩

/-- Everything a turn of a BUSY decoder can do at stage HDR: it raises, or it executes the header. -/
theorem decTurn_header_cases {s t : State} (hb : s.dec.phase = .busy) (hs : s.dec.stage = .hdr)
    (ht : decTurn s = .next t) :
    (∃ c, c ≠ .ok ∧ c ≠ .dimensionOverflow ∧ t = raiseError .dec c s) ∨
    (∃ v w, 4 ≤ s.dec.l ∧ t = finishHeader v w s) := by
  rcases decTurn_cases ht with ⟨hn, _⟩ | ⟨_, i, hf, he⟩ | ⟨_, c, hf, rfl⟩ | ⟨_, hf, rfl⟩
  · exact absurd hb hn
  · rcases fetch_instr hf with ⟨_, bs, rest, _, hl, _, hd⟩ | ⟨hops, _⟩
    · obtain ⟨v, w, rfl⟩ := decodeHeader_ok hd
      cases (exec_hdr_completes hl).symm.trans he
      exact .inr ⟨v, w, hl, rfl⟩
    · cases hs.symm.trans hops
  · refine .inl ⟨c, ?_, ?_, rfl⟩ <;> rcases fetch_error hf with rfl | rfl | rfl <;> decide
  · cases hs.symm.trans (fetch_complete hf).1

/-- The header of a started decoder leaves its cursor at the first cell of the declared grid. -/
theorem decOps_finishHeader {s : State} (v w : BitVec 16) (hc : s.dec.cur = 0) (hl : 4 ≤ s.dec.l) :
    DecOps (finishHeader v w s) :=
  ⟨rfl, le_rfl, hl, (Nat.le_of_eq hc).trans (Nat.zero_le _), fun _ ha => absurd (hc ▸ ha) (Nat.not_lt_zero _)⟩

theorem DecInv.code_of_busy {s : State} (h : DecInv s) (hb : s.dec.phase = .busy) : s.dec.code = .ok := by
  by_contra hc
  cases hb.symm.trans (h.error.2 hc)

theorem decInv_raiseError {c : Code} {s : State} (h : DecInv s) (hb : s.dec.phase = .busy) (hc : c ≠ .ok)
    (hd : c ≠ .dimensionOverflow) : DecInv (raiseError .dec c s) :=
  ⟨h.slots.of_busy hb (.refl _), hd, ⟨fun _ => hc, fun _ => rfl⟩, h.length, nofun, nofun, nofun⟩

theorem decInv_decTurn {s t : State} (h : DecInv s) (ht : decTurn s = .next t) : DecInv t := by
  have hslots := decSlots_decTurn h.slots ht
  by_cases hb : s.dec.phase = .busy
  · have hok := h.code_of_busy hb
    cases hs : s.dec.stage with
    | hdr =>
      rcases decTurn_header_cases hb hs ht with ⟨c, hc, hd, rfl⟩ | ⟨v, w, hl, rfl⟩
      · exact decInv_raiseError h hb hc hd
      · have hops := decOps_finishHeader v w (h.fresh hb hs).cur hl
        exact ⟨hslots, h.code, h.error, h.length, nofun, fun _ _ => hops, fun hdone => by cases hb.symm.trans hdone⟩
    | ops =>
      rcases (h.ops hb hs).after_decTurn hb hs ht with ⟨c, hc, hd, rfl⟩ | ⟨rfl, hcur, hst⟩ | ⟨hrun, _, hops⟩
      · exact decInv_raiseError h hb hc hd
      · have hops := h.ops hb hs
        exact ⟨hslots, h.code, ⟨nofun, fun hne => absurd hok hne⟩, h.length, nofun, nofun,
          fun _ => ⟨⟨hops.n, hops.header, hops.rp, hops.cur, hops.filled⟩, hcur, hst⟩⟩
      · obtain ⟨hphase, hcode, hstage, hlen, _⟩ := hrun
        refine ⟨hslots, hcode ▸ h.code, ?_, ?_, ?_, fun _ _ => hops, ?_⟩
        · rw [hphase, hcode]
          exact h.error
        · rw [hlen, decTurn_cfg ht]
          exact h.length
        · simp [hstage, hs]
        · simp [hphase, hb]
  · cases (if_neg hb).symm.trans ht
    exact h

/-! ## Reading bytes that are placed (rules R53, R235) -/

theorem bytesInAt_of_filled {a n : Nat} {s : State} (hf : Filled s.bytesIn s.dec.l) (hl : a + n ≤ s.dec.l) :
    ∃ bs, bytesInAt a n s = .ok bs := by
  induction n generalizing a with
  | zero => exact ⟨[], rfl⟩
  | succ n ih =>
    have ha : a < s.dec.l := by omega
    obtain ⟨b, hb⟩ := Option.isSome_iff_exists.1 (hf a ha)
    obtain ⟨bs, hbs⟩ := ih (a := a + 1) (by omega)
    have hbyte : byteIn a s = .ok b := byteIn_ok.2 ⟨ha, hb⟩
    exact ⟨b :: bs, by simp only [bytesInAt, hbyte, hbs]⟩

theorem fetchAt_ne_fault {place : Place} {a n : Nat} {c : Code} {f : Fault} {s : State} (hf : Filled s.bytesIn s.dec.l) :
    fetchAt place a n c s ≠ .fault f := by
  unfold fetchAt
  split_ifs with hl
  · exact nofun
  · obtain ⟨bs, hbs⟩ := bytesInAt_of_filled hf (Nat.not_lt.1 hl)
    simp only [hbs]
    split <;> exact nofun

/-- With the buffer placed and the read pointer within it the fetch never faults. -/
theorem fetch_ne_fault {f : Fault} {s : State} (hf : Filled s.bytesIn s.dec.l)
    (hrp : s.dec.stage = .ops → s.dec.rp ≤ s.dec.l) : fetch s ≠ .fault f := by
  unfold fetch
  cases hs : s.dec.stage with
  | hdr => exact fetchAt_ne_fault hf
  | ops =>
    simp only
    split_ifs with hc hl
    · exact nofun
    · exact nofun
    · have hlt : s.dec.rp < s.dec.l := lt_of_le_of_ne (hrp hs) hl
      obtain ⟨b, hb⟩ := Option.isSome_iff_exists.1 (hf _ hlt)
      have hbyte : byteIn s.dec.rp s = .ok b := byteIn_ok.2 ⟨hlt, hb⟩
      simp only [fetchOp, hbyte]
      exact fetchAt_ne_fault hf

/-- A BUSY decoder whose buffer is placed takes its turn: an op is executed with a cell left in the grid only (R54). -/
theorem decTurn_completes {s : State} (hops : s.dec.phase = .busy → s.dec.stage = .ops → DecOps s)
    (placed : s.dec.phase = .busy → Filled s.bytesIn s.dec.l) : ∃ t, decTurn s = .next t := by
  by_cases hb : s.dec.phase = .busy
  · cases hf : fetch s with
    | instr i =>
      rw [decTurn_of_instr hb hf]
      rcases fetch_instr hf with ⟨_, bs, rest, _, _, _, hd⟩ | ⟨hs, hc, _⟩
      · obtain ⟨v, w, rfl⟩ := decodeHeader_ok hd
        exact exec_stops (.inr rfl)
      · exact exec_stops (.inl (lt_of_le_of_ne (hops hb hs).cur hc))
    | error c => exact ⟨_, decTurn_of_error hb hf⟩
    | complete =>
      obtain ⟨hs, hc⟩ := fetch_complete hf
      exact ⟨_, decTurn_full hb hs hc⟩
    | fault f => exact absurd hf (fetch_ne_fault (placed hb) fun hs => (hops hb hs).rp)
  · exact ⟨s, if_neg hb⟩

/-! ## The invariant through every move -/

theorem wf_writeRow {i n : Nat} {p : Pixel} {m : Memory Pixel} (h : Memory.wf m = true) :
    Memory.wf (writeRow i n p m) = true := by
  induction n generalizing i m with
  | zero => exact h
  | succ n ih => exact ih (wf_write i p h)

theorem invariant_encTurn {s t : State} (h : Invariant s) (ht : encTurn s = .next t) : Invariant t := by
  obtain ⟨bs, he⟩ := encTurn_emits ht
  obtain ⟨hcfg, hdec, hgridIn, hbytesIn, hgridOut, _⟩ := he.frame
  exact ⟨hgridIn ▸ h.gridIn, hbytesIn ▸ h.bytesIn, he.wf h.bytesOut, hgridOut ▸ h.gridOut, encInv_encTurn h.enc ht,
    h.dec.congr hdec hgridOut hcfg⟩

theorem invariant_decTurn {s t : State} (h : Invariant s) (ht : decTurn s = .next t) : Invariant t := by
  obtain ⟨⟨_, henc, hgridIn, hbytesIn, hbytesOut, _⟩, _⟩ := decTurn_frame ht
  have hgridOut : Memory.wf t.gridOut = true := by
    obtain ⟨d, n, p, _, rfl, _⟩ := decTurn_rowWritten ht
    exact wf_writeRow h.gridOut
  exact ⟨hgridIn ▸ h.gridIn, hbytesIn ▸ h.bytesIn, hbytesOut ▸ h.bytesOut, hgridOut, h.enc.congr henc hbytesOut,
    decInv_decTurn h.dec ht⟩

/-- A host command keeps each input space, or writes one unit of it. -/
theorem hostStep_inputs {c : HostCmd} {s t : State} (h : hostStep c s = .next t) :
    (t.gridIn = s.gridIn ∨ ∃ k p, t.gridIn = Memory.write s.gridIn k p) ∧
    (t.bytesIn = s.bytesIn ∨ ∃ a b, t.bytesIn = Memory.write s.bytesIn a b) := by
  have of_read : OnlyDelivered s t → t.gridIn = s.gridIn ∧ t.bytesIn = s.bytesIn := fun e => by
    rw [OnlyDelivered] at e
    rw [e]
    exact ⟨rfl, rfl⟩
  cases c with
  | encStart hin win =>
    obtain rfl := hostStep_encStart_next h
    exact ⟨.inl rfl, .inl rfl⟩
  | decStart l =>
    obtain rfl := hostStep_decStart_next h
    exact ⟨.inl rfl, .inl rfl⟩
  | writeGridIn row col p =>
    simp only [hostStep] at h
    split_ifs at h
    cases h
    exact ⟨.inr ⟨_, _, rfl⟩, .inl rfl⟩
  | writeBytesIn a b =>
    simp only [hostStep] at h
    split_ifs at h
    cases h
    exact ⟨.inl rfl, .inr ⟨_, _, rfl⟩⟩
  | readReg r =>
    cases h
    exact (of_read (readReg_onlyDelivered r s)).imp .inl .inl
  | writeReg r v =>
    cases h
    exact ⟨.inl rfl, .inl rfl⟩
  | readBytesOut a => exact (of_read (readBytesOut_onlyDelivered h)).imp .inl .inl
  | readGridOut i => exact (of_read (readGridOut_onlyDelivered h)).imp .inl .inl
  | reset =>
    cases h
    exact ⟨.inl rfl, .inl rfl⟩

theorem wf_of_kept_or_written {α : Type} {m n : Memory α} (h : n = m ∨ ∃ a v, n = Memory.write m a v)
    (hm : Memory.wf m = true) : Memory.wf n = true := by
  obtain rfl | ⟨a, v, rfl⟩ := h
  · exact hm
  · exact wf_write a v hm

/-- The decoder's start completes for a length that fits only. -/
theorem hostStep_decStart_length {l : Nat} {s t : State} (h : hostStep (.decStart l) s = .next t) :
    l < 2 ^ s.cfg.addrWidth := by
  simp only [hostStep] at h
  split_ifs at h with _ hl
  exact hl

theorem invariant_hostStep {c : HostCmd} {s t : State} (h : Invariant s) (ht : hostStep c s = .next t) : Invariant t := by
  obtain ⟨hgridIn, hbytesIn⟩ := hostStep_inputs ht
  obtain ⟨hcfg, _, henc, hdec⟩ := hostStep_engines ht
  have enc : EncInv t ∧ Memory.wf t.bytesOut = true := by
    rcases henc with ⟨he, ho⟩ | ⟨hin, win, _, rfl⟩ | ⟨_, rfl⟩
    · exact ⟨h.enc.congr he ho, ho ▸ h.bytesOut⟩
    · exact ⟨encInv_startEncoder hin win s, h.bytesOut⟩
    · exact ⟨encInv_of_reset rfl, h.bytesOut⟩
  have dec : DecInv t ∧ Memory.wf t.gridOut = true := by
    rcases hdec with ⟨hd, ho⟩ | ⟨l, rfl, rfl⟩ | ⟨_, rfl⟩
    · exact ⟨h.dec.congr hd ho hcfg, ho ▸ h.gridOut⟩
    · exact ⟨decInv_startDecoder (hostStep_decStart_length ht), h.gridOut⟩
    · exact ⟨decInv_of_reset rfl, h.gridOut⟩
  exact ⟨wf_of_kept_or_written hgridIn h.gridIn, wf_of_kept_or_written hbytesIn h.bytesIn, enc.2, dec.2, enc.1, dec.1⟩

/-- The invariant does not read the agenda or the count of free values. -/
theorem Invariant.bookkeeping {s : State} (h : Invariant s) (a : List Move) (k : Nat) :
    Invariant { s with agenda := a, fresh := k } :=
  ⟨h.gridIn, h.bytesIn, h.bytesOut, h.gridOut, EncInv.congr (s := s) rfl rfl h.enc,
    DecInv.congr (s := s) rfl rfl rfl h.dec⟩

/-- Settles O52: the turns of both engines and every host command keep the invariant. -/
theorem everyStepKeepsTheInvariant : Obligations.EveryStepKeepsTheInvariant := fun _ _ h ht =>
  step_keeps (P := Invariant) (fun _ a k hu => hu.bookkeeping a k) (fun _ _ => invariant_encTurn)
    (fun _ _ => invariant_decTurn) (fun _ _ _ => invariant_hostStep) h ht

/-! ## Allowed moves complete (rules R235, R240) -/

theorem hostStep_completes {c : HostCmd} {s : State} (h : Allowed s (.host c)) : ∃ t, hostStep c s = .next t := by
  cases c with
  | encStart hin win => exact ⟨_, if_neg h⟩
  | decStart l => exact ⟨_, (if_neg h.1).trans (if_pos h.2)⟩
  | writeGridIn row col p => exact ⟨_, if_neg h⟩
  | writeBytesIn a b => exact ⟨_, if_neg h⟩
  | readReg r => exact ⟨_, rfl⟩
  | writeReg r v => exact ⟨_, rfl⟩
  | readBytesOut a => exact readBytesOut_completes h
  | readGridOut i => exact readGridOut_completes h
  | reset => exact ⟨_, rfl⟩

/-- In a state of the invariant with the inputs placed every allowed move completes. -/
theorem moveStep_completes {m : Move} {s : State} (h : Invariant s) (hp : InputsPlaced s) (ha : Allowed s m) :
    ∃ t, moveStep m s = .next t := by
  cases m with
  | enc => exact encTurn_completes h.enc hp.grid
  | dec => exact decTurn_completes h.dec.ops hp.bytes
  | host c => exact hostStep_completes ha

theorem InputsPlaced.bookkeeping {s : State} (h : InputsPlaced s) (a : List Move) (k : Nat) :
    InputsPlaced { s with agenda := a, fresh := k } := ⟨h.grid, h.bytes⟩

/-- Settles O54: the step is a scheduled move, which is allowed, or a turn, which always is, or nothing; it completes, and
every step that completes keeps the invariant. -/
theorem dutifulHostNeverStopsTheMachine : Obligations.DutifulHostNeverStopsTheMachine := by
  intro s h hp hallowed
  have completes : ∃ t, step s = .next t := by
    rcases step_cases s with ⟨m, rest, ha, e⟩ | ⟨k, _, _, e⟩ | ⟨k, _, _, e⟩ | e <;> rw [e]
    · refine moveStep_completes (h.bookkeeping rest s.fresh) (hp.bookkeeping rest s.fresh) ?_
      exact hallowed m rest ha
    · exact encTurn_completes (h.bookkeeping s.agenda k).enc (hp.bookkeeping s.agenda k).grid
    · exact decTurn_completes (h.bookkeeping s.agenda k).dec.ops (hp.bookkeeping s.agenda k).bytes
    · exact ⟨s, rfl⟩
  obtain ⟨t, ht⟩ := completes
  exact ⟨t, ht, everyStepKeepsTheInvariant s t h ht⟩

/-! ## Finished outputs (rules R36, R52, R54, R63) -/

/-- Settles O15: a finished engine's output is written throughout, and a read inside it delivers what is there. -/
theorem finishedOutputsAreRead : Obligations.FinishedOutputsAreRead := by
  refine fun s h => ⟨fun hd => ?_, fun hd => ?_⟩
  · have hsettled : s.enc.phase.settled = true := by rw [hd]; rfl
    refine ⟨by simp only [hostStep, readReg, hsettled, if_true, deliver], fun a ha => ?_⟩
    obtain ⟨b, hb⟩ := Option.isSome_iff_exists.1 ((h.enc.finished hd).sized.filled a ha)
    exact ⟨b, hb, readBytesOut_within hsettled ha hb⟩
  · have hsettled : s.dec.phase.settled = true := by rw [hd]; rfl
    obtain ⟨hops, hfull, _⟩ := h.dec.finished hd
    refine ⟨by simp only [hostStep, readReg, hsettled, if_true, deliver],
      by simp only [hostStep, readReg, hsettled, if_true, deliver], fun i hi => ?_⟩
    rw [← hops.n] at hi
    obtain ⟨p, hp⟩ := Option.isSome_iff_exists.1 (hops.filled i (hfull ▸ hi))
    exact ⟨p, hp, readGridOut_within hsettled hi hp⟩

/-! ## A decode ends within its bytes (rule R175) -/

/-- An op step reads at least one byte, so that the decode ends after at most one step more than there are bytes left. -/
theorem runSteps_ops_end {m : Nat} {s : State} (hs : OpStage s) (h : DecOps s) (hf : Filled s.bytesIn s.dec.l)
    (hm : s.dec.l < s.dec.rp + m) :
    ∃ k t, k ≤ m ∧ runSteps k s = .next t ∧ (t.dec.phase = .done ∨ t.dec.phase = .error) := by
  induction m generalizing s with
  | zero => exact absurd h.rp (Nat.not_le.2 hm)
  | succ m ih =>
    obtain ⟨t, ht⟩ := decTurn_completes (fun _ _ => h) (fun _ => hf)
    have h1 := runSteps_one_decoder hs.alone ht
    rcases h.after_decTurn hs.busy hs.stage ht with ⟨c, _, _, rfl⟩ | ⟨rfl, _⟩ | ⟨hrun, hlt, hops⟩
    · exact ⟨1, _, by omega, h1, .inr rfl⟩
    · exact ⟨1, _, by omega, h1, .inl rfl⟩
    · obtain ⟨hphase, _, hstage, hlen, _⟩ := hrun
      have hal : DecoderAlone t := (decTurn_frame ht).1.decoderAlone hs.alone
      have hst : OpStage t := ⟨hal, hphase.trans hs.busy, hstage.trans hs.stage⟩
      obtain ⟨⟨_, _, _, hbytes, _⟩, _⟩ := decTurn_frame ht
      obtain ⟨k, u, hk, hu, hend⟩ := ih hst hops (by rw [hbytes, hlen]; exact hf) (by omega)
      exact ⟨1 + k, u, by omega, (runSteps_add h1).trans hu, hend⟩

/-- Settles O32: the header step raises or leaves L - 4 bytes for the op steps. -/
theorem decoderEndsWithinItsBytes : Obligations.DecoderEndsWithinItsBytes := by
  intro l s ha _ hf
  have ha' : DecoderAlone (startDecoder l s) := ha
  obtain ⟨t, ht⟩ := decTurn_completes (s := startDecoder l s) nofun fun _ => hf
  have h1 := runSteps_one_decoder ha' ht
  rcases decTurn_header_cases rfl rfl ht with ⟨c, _, _, rfl⟩ | ⟨v, w, hl, rfl⟩
  · exact ⟨1, _, by omega, h1, .inr rfl⟩
  · obtain ⟨k, u, hk, hu, hend⟩ := runSteps_ops_end (s := finishHeader v w (startDecoder l s)) ⟨ha, rfl, rfl⟩
      (decOps_finishHeader v w rfl hl) hf (m := l - 3) (show l < 4 + (l - 3) by omega)
    exact ⟨1 + k, u, by omega, (runSteps_add h1).trans hu, hend⟩

end Sys2Proof.Machine
end
